-- ==== Sys2Proof/Word.lean ====
section
/-! DEFINITION. The word and byte types of SLZ-CORE (00_scope R9, R11): every operand, register view and
counter word is 32 bits, every IN, OUT and WINDOW element is a byte. -/

namespace Sys2Proof

/-- A 32-bit word: command words, operand words, RESULT, CKSUM, TOTAL_IN, FAULTCMD (30_encoding R90, R91). -/
abbrev Word := BitVec 32

/-- A byte of IN, OUT or WINDOW (20_memory R60). -/
abbrev Byte := BitVec 8

end Sys2Proof
end

