-- ==== Sys2Proof/Machine/Params.lean ====
section
/-! DEFINITION. The implementation parameters of 00_scope R9, and `ceil_div`. -/

namespace Sys2Proof.Machine

/-- WSIZE: window size and maximum distance. -/
abbrev wsize : Nat := 32768
/-- MAX_MATCH: the longest match. -/
abbrev maxMatch : Nat := 258
/-- MIN_MATCH: the shortest match the reference policy emits. -/
abbrev minMatch : Nat := 4
/-- KEY_BYTES: the hash key's length. -/
abbrev keyBytes : Nat := 4
/-- 2^HASH_BITS: the number of HASH buckets. -/
abbrev hashSize : Nat := 8192
/-- HASH_MUL. -/
abbrev hashMul : Word := 0x9E3779B1#32
/-- The shift that leaves HASH_BITS = 13 bits (41_match_finder R182). -/
abbrev hashShift : Nat := 19
/-- STORED_MAX: the most bytes a stored block holds. -/
abbrev storedMax : Nat := 65535
/-- The Adler32 modulus (43_checksums R256). -/
abbrev adlerMod : Nat := 65521

/-- `ceil_div(a, b)`, the least integer at least `a / b` (00_scope R11). -/
def ceilDiv (a b : Nat) : Nat := (a + (b - 1)) / b

end Sys2Proof.Machine
end

