-- ==== Sys2Proof/Config.lean ====
section
/-! DEFINITION. What an instance fixes and what the spec leaves free. The one open parameter is MATCH_POLICY
(00_scope R10). The free values are opaque constants: nothing can evaluate one or prove a value of it. -/

namespace Sys2Proof

/-- MATCH_POLICY, the one open parameter (00_scope R10, 92 D44). `reference` is the algorithm of 41_match_finder
R183; `anyValid` allows every token list that meets R189. A state carries it as a strap (log 8). -/
inductive MatchPolicy
  | reference
  | anyValid
deriving DecidableEq, Repr

/-- A token of the Match Finder (41_match_finder R180): `LIT(b)`, or `MATCH(L, d)`, a copy of `len` bytes from
`dist` bytes back. -/
inductive Token
  | lit (b : Byte)
  | copy (len dist : Nat)
deriving DecidableEq, Repr

/-- One entry of HASH (10_state R36): the valid flag V and the stream position P. -/
structure HashEntry where
  v : Bool
  p : Word
deriving DecidableEq, Repr

namespace Config

/-- The unspecified byte that WINDOW index `k` holds before anything is written there (10_state R35, R43; U10).
Free value, log 6. -/
opaque windowByte : Nat → Byte

/-- The unspecified P field of HASH entry `h` before anything is written there (10_state R36, R43; U11). Free
value, log 7. -/
opaque hashPos : Nat → Word

/-- The token list an any-valid Match Finder offers (00_scope R10), as a function of the free-value counter and of
all that a Match Finder can read: TOTAL_IN, HIST, WINDOW, HASH and the chunk. Free value, log 8. -/
opaque freeTokens : Nat → Word → Nat → List (Nat × Byte) → List (Nat × HashEntry) → List Byte → List Token

/-- The V flag of HASH entry `h` where HASH is unconstrained (41_match_finder R189, U12; 70_reset R351). Free value,
log 8 and log 12. -/
opaque freeHashV : Nat → Nat → Bool

/-- The P field of HASH entry `h` where HASH is unconstrained (U12; 70_reset R351). Free value, log 8 and log 12. -/
opaque freeHashP : Nat → Nat → Word

/-- The byte that an ENCODE whose IN is disturbed reads at IN offset `i` (70_reset R351, R353). Free value, log 12. -/
opaque disturbedIn : Nat → Nat → Byte

/-- The byte WINDOW index `k` holds after a disturbed command (70_reset R351). Free value, log 12. -/
opaque disturbedWindow : Nat → Nat → Byte

/-- CKSUM after a disturbed command (70_reset R351). Free value, log 12. -/
opaque disturbedCksum : Nat → Word

end Config

end Sys2Proof
end

