-- ==== Sys2Proof/Syntax.lean ====
section
/-! DEFINITION. The syntax: one constructor of `Instr` for each row of spec/opcode_table.json, and the forms in
which an instruction is presented: a request record at the command port (30_encoding R90), or one element of the
output bitstream as the packer is handed it (opcode table, DEFLATE-output rows). -/

namespace Sys2Proof

/-- The instructions. The first five are the commands (30_encoding R93); the next three the reserved command space
(R98); the rest the elements of the output bitstream, which ENCODE and FINISH pack (42_bit_packer R218 to R224).
A command keeps the reserved bits of its word as operands, since a word that sets one is still that command and
faults ILLEGAL (R97, 40_commands R141). -/
inductive Instr
  /-- TBLINIT (40_commands R140); `rsvd` = CW[31:4]. -/
  | tblinit (rsvd : BitVec 28)
  /-- INIT (40_commands R142); EN = CW[4], FMT = CW[6:5], `rsvd` = CW[31:7]. -/
  | init (en : BitVec 1) (fmt : BitVec 2) (rsvd : BitVec 25)
  /-- ENCODE (40_commands R144); MORE = CW[4], `rsvd` = CW[31:5], the operand word CAP, and the IN bytes, whose
  number is the operand word LEN (log 22). -/
  | encode (more : BitVec 1) (rsvd : BitVec 27) (cap : Word) (data : List Byte)
  /-- FINISH (40_commands R149); `rsvd` = CW[31:4], the operand word CAP. -/
  | finish (rsvd : BitVec 28) (cap : Word)
  /-- RDREG (40_commands R152); `rsvdLow` = CW[7:4], REG = CW[11:8], `rsvdHigh` = CW[31:12]. -/
  | rdreg (rsvdLow : BitVec 4) (reg : BitVec 4) (rsvdHigh : BitVec 20)
  /-- RESERVED_OP_0 (30_encoding R98): opcode 0x0, any other bits. -/
  | reservedOp0 (rest : BitVec 28)
  /-- RESERVED_OP_6_7 (30_encoding R98): opcode 0x6 or 0x7, `low` = CW[0]. -/
  | reservedOp67 (low : BitVec 1) (rest : BitVec 28)
  /-- RESERVED_OP_8_F (30_encoding R98): opcodes 0x8 to 0xF, `low` = CW[2:0]. -/
  | reservedOp8F (low : BitVec 3) (rest : BitVec 28)
  /-- BLK_STORED_HDR (42_bit_packer R222, R224): the header 000 and what follows it, Align, LEN, NLEN, the data. -/
  | blkStoredHdr (data : List Byte)
  /-- BLK_FIXED_HDR (42_bit_packer R221): BFINAL = 0, BTYPE = 01. -/
  | blkFixedHdr
  /-- BLK_FINAL_HDR (44_framer R275): BFINAL = 1, BTYPE = 01. -/
  | blkFinalHdr
  /-- LIT_00_0F (42_bit_packer R218): literal byte `l`. -/
  | lit000F (l : BitVec 4)
  /-- LIT_10_4F: literal byte `0x10 + l`. -/
  | lit104F (l : BitVec 6)
  /-- LIT_50_8F: literal byte `0x50 + l`. -/
  | lit508F (l : BitVec 6)
  /-- LIT_90_9F: literal byte `0x90 + l`. -/
  | lit909F (l : BitVec 4)
  /-- LIT_A0_BF: literal byte `0xA0 + l`. -/
  | litA0BF (l : BitVec 5)
  /-- LIT_C0_FF: literal byte `0xC0 + l`. -/
  | litC0FF (l : BitVec 6)
  /-- EOB (30_encoding R109): symbol 256. -/
  | eob
  /-- LEN_257_271 (42_bit_packer R219): length symbol `256 + s`, s in 1..15, and its extra bits. -/
  | len257271 (s : BitVec 4) (extra : BitVec 5)
  /-- LEN_272_279: length symbol `272 + s` and its extra bits. -/
  | len272279 (s : BitVec 3) (extra : BitVec 5)
  /-- LEN_280_285: length symbol `280 + s`, s in 0..5, and its extra bits. -/
  | len280285 (s : BitVec 3) (extra : BitVec 5)
  /-- DIST (42_bit_packer R219): distance code `d`, in 0..29, and its extra bits. -/
  | dist (d : BitVec 5) (extra : BitVec 13)
deriving DecidableEq, Repr

/-- A request record at the command port (30_encoding R90): the command word, the operand words its opcode calls
for, and for ENCODE the bytes of IN. -/
structure Request where
  cw       : Word
  operands : List Word
  input    : List Byte
deriving DecidableEq, Repr

/-- A field of bits: `value` in `width` bits. A code is written most significant bit first, extra bits least
significant bit first (20_memory R63). -/
structure Bits where
  width : Nat
  value : Nat
deriving DecidableEq, Repr

/-- The three alphabets of a block: the 3-bit header, the literal/length symbols, the 5-bit distance codes
(30_encoding R104, R106, R108). -/
inductive ElementKind
  | header
  | symbol
  | distance
deriving DecidableEq, Repr

/-- One element of the output bitstream (opcode table, DEFLATE-output rows): its code in decoder reading order, the
extra bits that follow a length or distance code, the data of a stored block. -/
structure Element where
  kind  : ElementKind
  code  : Bits
  extra : Bits
  data  : List Byte
deriving DecidableEq, Repr

/-- What is decoded: a request record of the command port, or one output element. -/
inductive Encoding
  | request (r : Request)
  | element (e : Element)
deriving DecidableEq, Repr

/-! Pseudo-commands, each another name of a core command (30_encoding R102). -/

/-- `RDSTATUS` is `RDREG STATUS`. -/
abbrev pseudoRdStatus : Instr := .rdreg 0 0 0
/-- `RDFAULTS` is `RDREG FAULTS`. -/
abbrev pseudoRdFaults : Instr := .rdreg 0 1 0
/-- `RDCK` is `RDREG CKSUM_VALUE`. -/
abbrev pseudoRdCk : Instr := .rdreg 0 4 0
/-- `NOPCMD` is `TBLINIT`. -/
abbrev pseudoNopCmd : Instr := .tblinit 0
/-- `HEADER cap=c` is `ENCODE more=1, len=0, cap=c`. -/
abbrev pseudoHeader (cap : Word) : Instr := .encode 1 0 cap []

end Sys2Proof
end

