-- ==== Sys2Proof/Machine/Operands.lean ====
section
/-! DEFINITION. The command word's fields, read and put together (30_encoding R92, R94): every field is an unsigned
integer, none sign-extended, scaled or shifted. -/

namespace Sys2Proof.Machine

/-- OP = CW[3:0]. -/
def cwOp (cw : Word) : BitVec 4 := cw.extractLsb' 0 4
/-- EN = CW[4] (INIT). -/
def cwEn (cw : Word) : BitVec 1 := cw.extractLsb' 4 1
/-- MORE = CW[4] (ENCODE). -/
def cwMore (cw : Word) : BitVec 1 := cw.extractLsb' 4 1
/-- FMT = CW[6:5] (INIT). -/
def cwFmt (cw : Word) : BitVec 2 := cw.extractLsb' 5 2
/-- REG = CW[11:8] (RDREG). -/
def cwReg (cw : Word) : BitVec 4 := cw.extractLsb' 8 4
/-- CW[31:4], reserved for TBLINIT and FINISH. -/
def cwAbove4 (cw : Word) : BitVec 28 := cw.extractLsb' 4 28
/-- CW[31:5], reserved for ENCODE. -/
def cwAbove5 (cw : Word) : BitVec 27 := cw.extractLsb' 5 27
/-- CW[31:7], reserved for INIT. -/
def cwAbove7 (cw : Word) : BitVec 25 := cw.extractLsb' 7 25
/-- CW[7:4], reserved for RDREG. -/
def cwMid (cw : Word) : BitVec 4 := cw.extractLsb' 4 4
/-- CW[31:12], reserved for RDREG. -/
def cwAbove12 (cw : Word) : BitVec 20 := cw.extractLsb' 12 20

/-- The word of TBLINIT: OP = 0x1. -/
def wordTblinit (rsvd : BitVec 28) : Word := rsvd ++ 0x1#4
/-- The word of INIT: OP = 0x2, EN at 4, FMT at 6:5. -/
def wordInit (en : BitVec 1) (fmt : BitVec 2) (rsvd : BitVec 25) : Word := rsvd ++ (fmt ++ (en ++ 0x2#4))
/-- The word of ENCODE: OP = 0x3, MORE at 4. -/
def wordEncode (more : BitVec 1) (rsvd : BitVec 27) : Word := rsvd ++ (more ++ 0x3#4)
/-- The word of FINISH: OP = 0x4. -/
def wordFinish (rsvd : BitVec 28) : Word := rsvd ++ 0x4#4
/-- The word of RDREG: OP = 0x5, REG at 11:8. -/
def wordRdreg (rsvdLow reg : BitVec 4) (rsvdHigh : BitVec 20) : Word := rsvdHigh ++ (reg ++ (rsvdLow ++ 0x5#4))
/-- A word of the reserved opcode 0x0. -/
def wordReserved0 (rest : BitVec 28) : Word := rest ++ 0x0#4
/-- A word of the reserved opcodes 0x6 and 0x7. -/
def wordReserved67 (low : BitVec 1) (rest : BitVec 28) : Word := rest ++ (0x3#3 ++ low)
/-- A word of the reserved opcodes 0x8 to 0xF. -/
def wordReserved8F (low : BitVec 3) (rest : BitVec 28) : Word := rest ++ (0x1#1 ++ low)

end Sys2Proof.Machine
end

