-- ==== Sys2Proof/Machine/Tables.lean ====
section
/-! DEFINITION. The ROM tables (10_state R37): CRC_TABLE (43_checksums R250), the fixed literal/length code
(30_encoding R111), the length and distance tables (R113 to R116). No command writes them. -/

namespace Sys2Proof.Machine

/-- One of the eight steps of R250. -/
def crcStep (c : Word) : Word :=
  if c.getLsbD 0 then 0xEDB88320#32 ^^^ (c >>> 1) else c >>> 1

/-- CRC_TABLE[n] (43_checksums R250). -/
def crcTable (n : Nat) : Word := crcStep^[8] (BitVec.ofNat 32 n)

/-- HuffCode(s) (30_encoding R111, R112). -/
def huffCode (s : Nat) : Nat :=
  if s ≤ 143 then 0x30 + s
  else if s ≤ 255 then 0x190 + (s - 144)
  else if s ≤ 279 then s - 256
  else 0xC0 + (s - 280)

/-- HuffLen(s) (30_encoding R111, R112). -/
def huffLen (s : Nat) : Nat :=
  if s ≤ 143 then 8 else if s ≤ 255 then 9 else if s ≤ 279 then 7 else 8

/-- The column LEN_EXTRA of R113, index k = symbol - 257. -/
def lenExtraTable : List Nat :=
  [0, 0, 0, 0, 0, 0, 0, 0, 1, 1, 1, 1, 2, 2, 2, 2] ++ [3, 3, 3, 3, 4, 4, 4, 4, 5, 5, 5, 5, 0]

/-- The column LEN_BASE of R113. -/
def lenBaseTable : List Nat :=
  [3, 4, 5, 6, 7, 8, 9, 10, 11, 13, 15, 17, 19, 23, 27, 31] ++
  [35, 43, 51, 59, 67, 83, 99, 115, 131, 163, 195, 227, 258]

/-- The column DIST_EXTRA of R115. -/
def distExtraTable : List Nat :=
  [0, 0, 0, 0, 1, 1, 2, 2, 3, 3, 4, 4, 5, 5, 6, 6] ++ [7, 7, 8, 8, 9, 9, 10, 10, 11, 11, 12, 12, 13, 13]

/-- The column DIST_BASE of R115. -/
def distBaseTable : List Nat :=
  [1, 2, 3, 4, 5, 7, 9, 13, 17, 25, 33, 49, 65, 97, 129, 193] ++
  [257, 385, 513, 769, 1025, 1537, 2049, 3073, 4097, 6145, 8193, 12289, 16385, 24577]

/-- LEN_EXTRA[k]. -/
def lenExtra (k : Nat) : Nat := lenExtraTable.getD k 0
/-- LEN_BASE[k]. -/
def lenBase (k : Nat) : Nat := lenBaseTable.getD k 0
/-- DIST_EXTRA[j]. -/
def distExtra (j : Nat) : Nat := distExtraTable.getD j 0
/-- DIST_BASE[j]. -/
def distBase (j : Nat) : Nat := distBaseTable.getD j 0

/-- The largest index at most `k` whose entry of `table` is at most `x` (0 where none is). -/
def largestLe (table : List Nat) (x : Nat) : Nat → Nat
  | 0 => 0
  | k + 1 => if table.getD (k + 1) 0 ≤ x then k + 1 else largestLe table x k

/-- The length index k of a length L in 3..258 (30_encoding R114). -/
def lenIndex (len : Nat) : Nat := if len = maxMatch then 28 else largestLe lenBaseTable len 27

/-- The distance code j of a distance d in 1..32768 (30_encoding R116). -/
def distIndex (d : Nat) : Nat := largestLe distBaseTable d 29

/-- The extra bits of length symbol `sym` fit its row of R113, and symbol 284 does not spell length 258 (R114, R118). -/
def lenExtraOk (sym : Nat) (extra : Nat) : Bool :=
  decide (extra < 2 ^ lenExtra (sym - 257)) && !(sym == 284 && extra == 31)

/-- The extra bits of distance code `j` fit its row of R115. -/
def distExtraOk (j : Nat) (extra : Nat) : Bool := decide (extra < 2 ^ distExtra j)

/-- `rev_n(v)`: the low n bits of v in reverse order (00_scope R11). -/
def rev : Nat → Nat → Nat
  | 0, _ => 0
  | n + 1, v => (v % 2) * 2 ^ n + rev n (v / 2)

/-- BTYPE 00, stored (30_encoding R105). -/
abbrev btypeStored : Nat := 0
/-- BTYPE 01, fixed Huffman (30_encoding R105). -/
abbrev btypeFixed : Nat := 1

/-- The 3-bit block header `BFINAL | (BTYPE << 1)` (30_encoding R104). -/
def blockHeader (bfinal btype : Nat) : Nat := bfinal ||| (btype <<< 1)

/-- The end-of-block symbol (30_encoding R109). -/
abbrev eobSymbol : Nat := 256

end Sys2Proof.Machine
end

