-- ==== Sys2Proof/WellFormed.lean ====
section
/-! DEFINITION. What a well-formed instruction is: a command that a request record can carry, an output element that
the block can emit (30_encoding R91, R113 to R118). A command word with a reserved bit set is well-formed: it is a
command, and faults ILLEGAL. -/

namespace Sys2Proof

open Sys2Proof.Machine

/-- Well-formedness, checked constructor by constructor. -/
def Instr.wellFormed : Instr → Bool
  | .tblinit _ => true
  | .init _ _ _ => true
  | .encode _ _ _ data => decide (data.length < 2 ^ 32)
  | .finish _ _ => true
  | .rdreg _ _ _ => true
  | .reservedOp0 _ => true
  | .reservedOp67 _ _ => true
  | .reservedOp8F _ _ => true
  | .blkStoredHdr data => decide (data.length ≤ storedMax)
  | .blkFixedHdr => true
  | .blkFinalHdr => true
  | .lit000F _ => true
  | .lit104F _ => true
  | .lit508F _ => true
  | .lit909F _ => true
  | .litA0BF _ => true
  | .litC0FF _ => true
  | .eob => true
  | .len257271 s extra => decide (1 ≤ s.toNat) && lenExtraOk (256 + s.toNat) extra.toNat
  | .len272279 s extra => lenExtraOk (272 + s.toNat) extra.toNat
  | .len280285 s extra => decide (s.toNat ≤ 5) && lenExtraOk (280 + s.toNat) extra.toNat
  | .dist d extra => decide (d.toNat ≤ 29) && distExtraOk d.toNat extra.toNat

end Sys2Proof
end

