-- ==== Sys2Proof/Decode.lean ====
section
/-! DEFINITION. The decoder, total on every request record and every output element, rejecting by name; then the
encoder, from the same tables of the spec (30_encoding R91 to R98, R104 to R118; opcode_table.json). -/

namespace Sys2Proof

open Sys2Proof.Machine

/-- Why something presented is no instruction. The first two are request records that are none by R90 and R91; the
others output elements that no row of the opcode table covers or that the block never emits (R118). -/
inductive DecodeError
  /-- The record's operand words are not those its opcode calls for (30_encoding R91). -/
  | operandCount
  /-- The record's IN bytes are not LEN bytes, or a command without IN brings some (30_encoding R91). -/
  | inputLength
  /-- A block header other than 000, 010, 110: BTYPE 10 or 11, or a final stored block (30_encoding R118). -/
  | blockHeader
  /-- A code that is no symbol's (30_encoding R110). -/
  | noSuchCode
  /-- Symbols 286 and 287 (30_encoding R118). -/
  | reservedSymbol
  /-- Distance codes 30 and 31 (30_encoding R118). -/
  | reservedDistance
  /-- Extra bits of another width than the row's, too large for it, or symbol 284 with extra 31 (R113, R115, R118). -/
  | extraBits
  /-- Data where the row has none, or more than 65535 bytes in a stored block (30_encoding R117). -/
  | storedData
deriving DecidableEq, Repr

/-- What decoding answers: an instruction, or a rejection by name. -/
inductive Decoded
  | ok (i : Instr)
  | rejected (e : DecodeError)
deriving DecidableEq, Repr

/-- A record with no operand words and no IN bytes (30_encoding R91). -/
def bare (r : Request) (i : Instr) : Decoded :=
  if r.operands = [] then
    if r.input = [] then .ok i else .rejected .inputLength
  else .rejected .operandCount

/-- The decoder of request records (30_encoding R91 to R98). Every command word is some instruction's. -/
def decodeRequest (r : Request) : Decoded :=
  match (cwOp r.cw).toNat with
  | 0 => bare r (.reservedOp0 (cwAbove4 r.cw))
  | 1 => bare r (.tblinit (cwAbove4 r.cw))
  | 2 => bare r (.init (cwEn r.cw) (cwFmt r.cw) (cwAbove7 r.cw))
  | 3 =>
    match r.operands with
    | [len, cap] =>
      if r.input.length = len.toNat then .ok (.encode (cwMore r.cw) (cwAbove5 r.cw) cap r.input)
      else .rejected .inputLength
    | _ => .rejected .operandCount
  | 4 =>
    match r.operands with
    | [cap] => if r.input = [] then .ok (.finish (cwAbove4 r.cw) cap) else .rejected .inputLength
    | _ => .rejected .operandCount
  | 5 => bare r (.rdreg (cwMid r.cw) (cwReg r.cw) (cwAbove12 r.cw))
  | 6 => bare r (.reservedOp67 0 (cwAbove4 r.cw))
  | 7 => bare r (.reservedOp67 1 (cwAbove4 r.cw))
  | _ => bare r (.reservedOp8F (r.cw.extractLsb' 0 3) (cwAbove4 r.cw))

/-- An element without extra bits and without data. -/
def plain (e : Element) (i : Instr) : Decoded :=
  if e.extra = ⟨0, 0⟩ then
    if e.data = [] then .ok i else .rejected .storedData
  else .rejected .extraBits

/-- The three block headers the block emits, in decoder reading order (opcode table, BLK_ rows). -/
def decodeHeader (e : Element) : Decoded :=
  if e.code = ⟨3, 0b000⟩ then
    if e.extra = ⟨0, 0⟩ then
      if e.data.length ≤ storedMax then .ok (.blkStoredHdr e.data) else .rejected .storedData
    else .rejected .extraBits
  else if e.code = ⟨3, 0b010⟩ then plain e .blkFixedHdr
  else if e.code = ⟨3, 0b110⟩ then plain e .blkFinalHdr
  else .rejected .blockHeader

/-- A length symbol with its extra bits (30_encoding R113). -/
def withLenExtra (e : Element) (sym : Nat) (i : Instr) : Decoded :=
  if e.data = [] then
    if e.extra.width = lenExtra (sym - 257) ∧ lenExtraOk sym e.extra.value then .ok i else .rejected .extraBits
  else .rejected .storedData

/-- The literal/length symbols (30_encoding R110; opcode table, LIT_, EOB and LEN_ rows). -/
def decodeSymbol (e : Element) : Decoded :=
  let v := e.code.value
  if e.code.width = 7 then
    if v = 0 then plain e .eob
    else if v ≤ 0b0001111 then
      withLenExtra e (256 + v) (.len257271 (BitVec.ofNat 4 v) (BitVec.ofNat 5 e.extra.value))
    else if v ≤ 0b0010111 then
      withLenExtra e (272 + (v - 0b0010000))
        (.len272279 (BitVec.ofNat 3 (v - 0b0010000)) (BitVec.ofNat 5 e.extra.value))
    else .rejected .noSuchCode
  else if e.code.width = 8 then
    if v < 0b00110000 then .rejected .noSuchCode
    else if v ≤ 0b00111111 then plain e (.lit000F (BitVec.ofNat 4 (v - 0b00110000)))
    else if v ≤ 0b01111111 then plain e (.lit104F (BitVec.ofNat 6 (v - 0b01000000)))
    else if v ≤ 0b10111111 then plain e (.lit508F (BitVec.ofNat 6 (v - 0b10000000)))
    else if v ≤ 0b11000101 then
      withLenExtra e (280 + (v - 0b11000000))
        (.len280285 (BitVec.ofNat 3 (v - 0b11000000)) (BitVec.ofNat 5 e.extra.value))
    else if v ≤ 0b11000111 then .rejected .reservedSymbol
    else .rejected .noSuchCode
  else if e.code.width = 9 then
    if v < 0b110010000 then .rejected .noSuchCode
    else if v ≤ 0b110011111 then plain e (.lit909F (BitVec.ofNat 4 (v - 0b110010000)))
    else if v ≤ 0b110111111 then plain e (.litA0BF (BitVec.ofNat 5 (v - 0b110100000)))
    else if v ≤ 0b111111111 then plain e (.litC0FF (BitVec.ofNat 6 (v - 0b111000000)))
    else .rejected .noSuchCode
  else .rejected .noSuchCode

/-- The 5-bit distance codes (30_encoding R115, R116; opcode table, DIST row). -/
def decodeDistance (e : Element) : Decoded :=
  if e.code.width = 5 ∧ e.code.value ≤ 31 then
    if e.code.value ≤ 29 then
      if e.data = [] then
        if e.extra.width = distExtra e.code.value ∧ distExtraOk e.code.value e.extra.value then
          .ok (.dist (BitVec.ofNat 5 e.code.value) (BitVec.ofNat 13 e.extra.value))
        else .rejected .extraBits
      else .rejected .storedData
    else .rejected .reservedDistance
  else .rejected .noSuchCode

/-- The decoder of output elements. -/
def decodeElement (e : Element) : Decoded :=
  match e.kind with
  | .header => decodeHeader e
  | .symbol => decodeSymbol e
  | .distance => decodeDistance e

/-- The decoder. -/
def decode : Encoding → Decoded
  | .request r => decodeRequest r
  | .element e => decodeElement e

/-! The encoder. -/

/-- A request record of a bare command word. -/
def bareRequest (cw : Word) : Encoding := .request ⟨cw, [], []⟩

/-- An element without extra bits and without data. -/
def plainElement (kind : ElementKind) (width value : Nat) : Encoding :=
  .element ⟨kind, ⟨width, value⟩, ⟨0, 0⟩, []⟩

/-- A length symbol's element, with the extra bits of symbol `sym`. -/
def lenElement (width value sym : Nat) (extra : Nat) : Encoding :=
  .element ⟨.symbol, ⟨width, value⟩, ⟨lenExtra (sym - 257), extra⟩, []⟩

/-- The encoder, each constructor from its row of the opcode table. -/
def encode : Instr → Encoding
  | .tblinit rsvd => bareRequest (wordTblinit rsvd)
  | .init en fmt rsvd => bareRequest (wordInit en fmt rsvd)
  | .encode more rsvd cap data =>
    .request ⟨wordEncode more rsvd, [BitVec.ofNat 32 data.length, cap], data⟩
  | .finish rsvd cap => .request ⟨wordFinish rsvd, [cap], []⟩
  | .rdreg rsvdLow reg rsvdHigh => bareRequest (wordRdreg rsvdLow reg rsvdHigh)
  | .reservedOp0 rest => bareRequest (wordReserved0 rest)
  | .reservedOp67 low rest => bareRequest (wordReserved67 low rest)
  | .reservedOp8F low rest => bareRequest (wordReserved8F low rest)
  | .blkStoredHdr data => .element ⟨.header, ⟨3, 0b000⟩, ⟨0, 0⟩, data⟩
  | .blkFixedHdr => plainElement .header 3 0b010
  | .blkFinalHdr => plainElement .header 3 0b110
  | .lit000F l => plainElement .symbol 8 (0b00110000 + l.toNat)
  | .lit104F l => plainElement .symbol 8 (0b01000000 + l.toNat)
  | .lit508F l => plainElement .symbol 8 (0b10000000 + l.toNat)
  | .lit909F l => plainElement .symbol 9 (0b110010000 + l.toNat)
  | .litA0BF l => plainElement .symbol 9 (0b110100000 + l.toNat)
  | .litC0FF l => plainElement .symbol 9 (0b111000000 + l.toNat)
  | .eob => plainElement .symbol 7 0
  | .len257271 s extra => lenElement 7 s.toNat (256 + s.toNat) extra.toNat
  | .len272279 s extra => lenElement 7 (0b0010000 + s.toNat) (272 + s.toNat) extra.toNat
  | .len280285 s extra => lenElement 8 (0b11000000 + s.toNat) (280 + s.toNat) extra.toNat
  | .dist d extra => .element ⟨.distance, ⟨5, d.toNat⟩, ⟨distExtra d.toNat, extra.toNat⟩, []⟩

/-! The table's numbering, for the host. -/

/-- The operand words that go with a command word whose operands are all zero (30_encoding R91). -/
def zeroOperands (cw : Word) : List Word :=
  if cwOp cw = 3#4 then [0, 0] else if cwOp cw = 4#4 then [0] else []

/-- The element of a code of `width` bits with its extra bits all zero. -/
def zeroExtraElement (kind : ElementKind) (width value : Nat) : Element :=
  match kind with
  | .header => ⟨.header, ⟨width, value⟩, ⟨0, 0⟩, []⟩
  | .symbol =>
    let sym := if width = 7 then 256 + value else 280 + (value - 0b11000000)
    let extra := if width = 7 ∨ (width = 8 ∧ 0b11000000 ≤ value) then lenExtra (sym - 257) else 0
    ⟨.symbol, ⟨width, value⟩, ⟨extra, 0⟩, []⟩
  | .distance => ⟨.distance, ⟨width, value⟩, ⟨distExtra value, 0⟩, []⟩

/-- What a word of the opcode table stands for (log 5). A word given 3, 5, 7 or 9 bits is the code of a
DEFLATE-output row of that width. Given 8 bits it is the code of an 8-bit row where it lies in that row's range, given
16 bits that of a 9-bit row where it lies in theirs. Any other is a command word, with operand words of zeros. -/
def tableEncoding (nbits w : Nat) : Encoding :=
  if nbits = 3 then .element (zeroExtraElement .header 3 w)
  else if nbits = 5 then .element (zeroExtraElement .distance 5 w)
  else if nbits = 7 then .element (zeroExtraElement .symbol 7 w)
  else if nbits = 9 ∨ (nbits = 16 ∧ 0b110010000 ≤ w ∧ w ≤ 0b111111111) then
    .element (zeroExtraElement .symbol 9 w)
  else if nbits = 8 ∧ 0b00110000 ≤ w ∧ w ≤ 0b11000111 then .element (zeroExtraElement .symbol 8 w)
  else
    let cw : Word := BitVec.ofNat 32 w
    .request ⟨cw, zeroOperands cw, []⟩

/-- The instruction the decoder reads from a word numbered as the opcode table numbers it. -/
def decodeTableWord (nbits w : Nat) : Option Instr :=
  match decode (tableEncoding nbits w) with
  | .ok i => some i
  | .rejected _ => none

end Sys2Proof
end

