-- ==== Sys2Proof/Machine/State.lean ====
section
/-! DEFINITION. The state of one SLZ-CORE instance as plain data (10_state R20 to R43), its two ports and the
host's buffers (30_encoding R90, 20_memory R60), why a step can stop, and the state after reset (10_state R43). -/

namespace Sys2Proof.Machine

/-- STATE, the lifecycle phase (10_state R23). -/
inductive Phase
  | uninit
  | idle
  | active
  | closed
deriving DecidableEq, Repr

/-- FORMAT (10_state R26); the value 3 does not exist. -/
inductive Format
  | raw
  | zlib
  | gzip
deriving DecidableEq, Repr

/-- A sparse memory: elements by address, addresses strictly rising. What an address that is not listed reads as is
`Memory.unlisted` (Machine/Ops.lean): no value. `Memory Byte` is a list of `Host.Cell`. -/
abbrev Memory (α : Type) := List (Nat × α)

/-- A response record (30_encoding R90, R100). The RESULT bytes of OUT stand in `State.out`. -/
structure Response where
  ok     : Bool
  cause  : BitVec 4
  result : Word
deriving DecidableEq, Repr

/-- Which of its duties towards a command's buffers the host breaks (70_reset R351, R353). -/
inductive Disturbance
  /-- It changes IN and leaves OUT alone (R351). -/
  | inOnly
  /-- It reads or writes OUT and leaves IN alone (R351). -/
  | outOnly
  /-- It does both, or lets the two overlap (R353). -/
  | both
deriving DecidableEq, Repr

/-- What reaches the block from outside, in order (20_memory R70). -/
inductive Arrival
  /-- The host issues a request record and keeps its duties towards it (30_encoding R90); or, the model's own entry
  that no host can make, the packer is handed one output element alone (log 4). -/
  | issue (x : Encoding)
  /-- The host issues a request record and, before the response, disturbs its buffers (70_reset R351, R353; log 12). -/
  | issueDisturbed (d : Disturbance) (r : Request)
  /-- Reset between commands (70_reset R340). -/
  | reset
  /-- Reset while the command of this record executes (70_reset R341; log 13). -/
  | resetDuring (r : Request)
deriving DecidableEq, Repr

/-- Why the machine stops with a fault. The spec's own faults (60_exceptions R300) are no such stop: a command that
faults is answered and the block goes on, so they are next states. -/
inductive Fault
  /-- Raised by fetching (Machine/Fetch.lean) where what is presented is no request record of 30_encoding R90 and R91
  (operand words or IN bytes that its opcode does not call for), or no element of the opcode table. Safe: the spec
  gives such a thing no meaning, and the model stops (log 3). -/
  | malformedRequest (e : DecodeError)
deriving DecidableEq, Repr

/-- Why the machine refuses. -/
inductive Refusal
  /-- Raised by an arm of exec whose instruction has no meaning yet. Safe. No arm raises it. -/
  | notModelled (mnemonic : String)
  /-- Raised by the meanings of BLK_STORED_HDR, LEN_257_271, LEN_272_279, LEN_280_285 and DIST on an operand that
  30_encoding R118 says the block never emits (more than 65535 bytes in a stored block, symbols 286 and 287, symbol
  284 with extra 31, distance codes 30 and 31, a distance beyond the bytes emitted so far, extra bits that do not fit the
  row). Safe: R118 forbids a model to produce one (log 15). -/
  | notEmitted
deriving DecidableEq, Repr

/-- The state. -/
structure State where
  /-- STATE (R23). -/
  phase     : Phase
  /-- LEVEL (R25). -/
  level     : BitVec 1
  /-- FORMAT (R26). -/
  format    : Format
  /-- CKSUM (R27). -/
  cksum     : Word
  /-- TOTAL_IN (R28). -/
  totalIn   : Word
  /-- ACC (R29). -/
  acc       : BitVec 7
  /-- CNT (R30). -/
  cnt       : BitVec 3
  /-- HIST (R31). -/
  hist      : BitVec 16
  /-- FAULT (R32): bit 0 ILLEGAL, 1 BAD_FORMAT, 2 USAGE, 3 OUT_CAPACITY. -/
  fault     : BitVec 4
  /-- LAST_CAUSE (R33). -/
  lastCause : BitVec 4
  /-- FAULTCMD (R34). -/
  faultCmd  : Word
  /-- WINDOW (R35): the bytes written since reset; others are unspecified (log 6). -/
  window    : Memory Byte
  /-- HASH (R36): the entries written since reset; others have V = 0 and P unspecified (log 7). -/
  hash      : Memory HashEntry
  /-- The command port: what the host has yet to have answered, in order (30_encoding R90; log 1). -/
  inbox     : List Arrival
  /-- The response port: the last response sent, none after reset (30_encoding R90; log 14). -/
  response  : Option Response
  /-- OUT: the bytes the block has written into the region that the host supplied with the last ENCODE or FINISH
  (20_memory R60, R61; log 10). -/
  out       : Memory Byte
  /-- o, the output cursor (00_scope R12, 10_state R41; log 11). -/
  cursor    : Nat
  /-- MATCH_POLICY, a strap no step writes (00_scope R10; log 8). -/
  policy    : MatchPolicy
  /-- The model's own: which free value comes next (log 9). -/
  freeCtr   : Nat
  /-- The model's own: how many stream bytes the output elements run alone since INIT stand for (log 15). -/
  elementBytes : Nat
  /-- The model's own: the length of a length element run alone whose distance is yet to come (log 15). -/
  elementLen   : Nat
deriving DecidableEq, Repr

/-- The state after hardware reset (10_state R43, 70_reset R340), nothing waiting at the port. -/
def State.reset : State where
  phase     := .uninit
  level     := 0
  format    := .raw
  cksum     := 0xFFFFFFFF
  totalIn   := 0
  acc       := 0
  cnt       := 0
  hist      := 0
  fault     := 0
  lastCause := 0
  faultCmd  := 0
  window    := []
  hash      := []
  inbox     := []
  response  := none
  out       := []
  cursor    := 0
  policy    := .reference
  freeCtr   := 0
  elementBytes := 0
  elementLen   := 0

end Sys2Proof.Machine
end

