-- ==== Sys2Proof/Machine/Ops.lean ====
section
/-! DEFINITION. The shared operations: reading and writing the sparse memories, WINDOW and HASH (00_scope R12),
sending a response (30_encoding R100), and raising a fault (60_exceptions R302), which is this block's only way of
taking an exception. There is no return from one: the block has no handler context to return from (R311). -/

namespace Sys2Proof.Machine

/-! Memories. -/

/-- What an address that is not listed reads as: no value (log 6, log 7, log 10). -/
def Memory.unlisted {α : Type} : Option α := none

/-- The canonical form: addresses strictly rising. No entry equals what an unlisted address reads as, since that is
no value. -/
def Memory.wf {α : Type} : Memory α → Bool
  | [] => true
  | [_] => true
  | c :: c' :: rest => decide (c.1 < c'.1) && Memory.wf (c' :: rest)

/-- Every listed address lies below `bound`. -/
def Memory.below {α : Type} (bound : Nat) (m : Memory α) : Bool := m.all fun c => decide (c.1 < bound)

/-- The element at address `a`. -/
def Memory.read {α : Type} : Memory α → Nat → Option α
  | [], _ => Memory.unlisted
  | (b, x) :: rest, a => if a = b then some x else Memory.read rest a

/-- The memory with element `x` at address `a`. -/
def Memory.write {α : Type} : Memory α → Nat → α → Memory α
  | [], a, x => [(a, x)]
  | (b, y) :: rest, a, x =>
    if a < b then (a, x) :: (b, y) :: rest
    else if a = b then (a, x) :: rest
    else (b, y) :: Memory.write rest a x

/-- The memory with the elements of a list at `a`, `a + 1`, and so on, written in that order. -/
def Memory.writeAll {α : Type} (m : Memory α) (a : Nat) : List α → Memory α
  | [] => m
  | x :: rest => Memory.writeAll (Memory.write m a x) (a + 1) rest

/-- The memory in which every address below `bound` has no known value. -/
def Memory.forgetBelow {α : Type} (bound : Nat) (m : Memory α) : Memory α := m.filter fun c => decide (bound ≤ c.1)

/-- The memory with `f` applied to every listed element. -/
def Memory.mapValues {α β : Type} (f : α → β) (m : Memory α) : Memory β := m.map fun c => (c.1, f c.2)

/-- The memory that lists `f 0` to `f (size - 1)`. -/
@[irreducible]
def Memory.tabulate {α : Type} (size : Nat) (f : Nat → α) : Memory α := (List.range size).map fun k => (k, f k)

/-! WINDOW and HASH. -/

/-- `WinRead(k)`: a byte never written since reset is unspecified, a free value (10_state R35; log 6). -/
def winRead (win : Memory Byte) (k : Nat) : Byte := (win.read k).getD (Config.windowByte k)

/-- `WinWrite(k, v)`. -/
def winWrite (win : Memory Byte) (k : Nat) (v : Byte) : Memory Byte := win.write k v

/-- `HashRead(h)`: an entry never written since reset has V = 0, its P unspecified (10_state R36, R43; log 7). -/
def hashRead (hash : Memory HashEntry) (h : Nat) : HashEntry := (hash.read h).getD ⟨false, Config.hashPos h⟩

/-- `HashWrite(h, e)`. -/
def hashWrite (hash : Memory HashEntry) (h : Nat) (e : HashEntry) : Memory HashEntry := hash.write h e

/-- `for h in 0..8191: HASH[h].V <- 0`, the P fields unchanged (40_commands R143, 10_state R43). -/
def hashInvalidate (hash : Memory HashEntry) : Memory HashEntry := hash.mapValues fun e => ⟨false, e.p⟩

/-- HASH where no rule constrains it: every entry a free value (41_match_finder R189, 70_reset R351). -/
def freeHash (ctr : Nat) : Memory HashEntry :=
  Memory.tabulate hashSize fun h => ⟨Config.freeHashV ctr h, Config.freeHashP ctr h⟩

/-- WINDOW after a disturbed command: every byte a free value (70_reset R351; log 12). -/
def disturbedWindow (ctr : Nat) : Memory Byte := Memory.tabulate wsize (Config.disturbedWindow ctr)

/-! Responses and faults. -/

/-- The fault causes (60_exceptions R300). -/
inductive Cause
  | illegal
  | badFormat
  | usage
  | outCapacity
deriving DecidableEq, Repr

/-- The cause code (60_exceptions R300). -/
def Cause.code : Cause → BitVec 4
  | .illegal => 1
  | .badFormat => 2
  | .usage => 3
  | .outCapacity => 4

/-- The response of a command that completes (30_encoding R100). -/
def okResponse (result : Word) : Response := ⟨true, 0, result⟩

/-- The response of a command that faults (30_encoding R100, 60_exceptions R302). -/
def faultResponse (c : Cause) : Response := ⟨false, c.code, 0⟩

/-- Send the response of a command that completes. -/
def respond (result : Word) (s : State) : State := { s with response := some (okResponse result) }

/-- FAULT with the bit of `c` set: bit `cause - 1` (60_exceptions R302). -/
def setFaultBit (c : Cause) (fault : BitVec 4) : BitVec 4 := fault ||| (1#4 <<< (c.code.toNat - 1))

/-- `raise Fault(cause)` (60_exceptions R302): the sticky bit, LAST_CAUSE, FAULTCMD and the response; nothing else
changes. -/
def raiseFault (c : Cause) (cw : Word) (s : State) : State :=
  { s with
    fault     := setFaultBit c s.fault
    lastCause := c.code
    faultCmd  := cw
    response  := some (faultResponse c) }

end Sys2Proof.Machine
end

