-- ==== Sys2Proof/Machine/Checksums.lean ====
section
/-! DEFINITION. The CRC32 and Adler32 accumulators (43_checksums.md). -/

namespace Sys2Proof.Machine

/-- One byte of CRC32 (43_checksums R252). -/
def crcUpdate (c : Word) (b : Byte) : Word :=
  crcTable ((c ^^^ b.setWidth 32) &&& 0xFF#32).toNat ^^^ (c >>> 8)

/-- s1 of an Adler32 state, CKSUM[15:0] (43_checksums R256). -/
def adlerS1 (c : Word) : Nat := (c.extractLsb' 0 16).toNat
/-- s2 of an Adler32 state, CKSUM[31:16]. -/
def adlerS2 (c : Word) : Nat := (c.extractLsb' 16 16).toNat
/-- The Adler32 state `(s2 << 16) | s1`. -/
def adlerPack (s1 s2 : Nat) : Word := BitVec.ofNat 16 s2 ++ BitVec.ofNat 16 s1

/-- One byte of Adler32 (43_checksums R256). -/
def adlerUpdate (c : Word) (b : Byte) : Word :=
  let s1 := (adlerS1 c + b.toNat) % adlerMod
  let s2 := (adlerS2 c + s1) % adlerMod
  adlerPack s1 s2

/-- CKSUM at INIT (43_checksums R251, R257). -/
def checksumSeed : Format → Word
  | .raw => 0xFFFFFFFF
  | .zlib => 0x00000001
  | .gzip => 0xFFFFFFFF

/-- The update of one byte, by format (43_checksums R258). -/
def checksumStep : Format → Word → Byte → Word
  | .raw => crcUpdate
  | .zlib => adlerUpdate
  | .gzip => crcUpdate

/-- `CkUpdate(FORMAT, CKSUM, D)` (43_checksums R258): over each byte in order. -/
def checksumUpdate (format : Format) (c : Word) (d : List Byte) : Word := d.foldl (checksumStep format) c

end Sys2Proof.Machine
end

