-- ==== Sys2Proof/Machine/Flags.lean ====
section
/-! DEFINITION. The state and fault flags as words: the values of STATE and FORMAT, the RDREG views
(10_state R39), and the state check of ENCODE and FINISH (60_exceptions R307). -/

namespace Sys2Proof.Machine

/-- The value of STATE (10_state R23). -/
def Phase.bits : Phase → BitVec 2
  | .uninit => 0
  | .idle => 1
  | .active => 2
  | .closed => 3

/-- The value of FORMAT (10_state R26). -/
def Format.bits : Format → BitVec 2
  | .raw => 0
  | .zlib => 1
  | .gzip => 2

/-- FORMAT from an FMT field: 3 is reserved (30_encoding R95). -/
def Format.ofFmt (fmt : BitVec 2) : Option Format :=
  if fmt = 0 then some .raw else if fmt = 1 then some .zlib else if fmt = 2 then some .gzip else none

/-- STATE is UNINIT or CLOSED: ENCODE and FINISH fault USAGE (60_exceptions R307). -/
def Phase.noStream : Phase → Bool
  | .uninit => true
  | .idle => false
  | .active => false
  | .closed => true

/-- CKSUM_VALUE (10_state R39, 43_checksums R253, R257): complemented for CRC32, as it is for Adler32. -/
def checksumValue (format : Format) (cksum : Word) : Word :=
  match format with
  | .zlib => cksum
  | .raw => ~~~cksum
  | .gzip => ~~~cksum

/-- View 0, STATUS: STATE [1:0], LEVEL [2], FORMAT [4:3]. -/
def viewStatus (s : State) : Word := 0#27 ++ (s.format.bits ++ (s.level ++ s.phase.bits))
/-- View 1, FAULTS: the FAULT bits [3:0], LAST_CAUSE [7:4]. -/
def viewFaults (s : State) : Word := 0#24 ++ (s.lastCause ++ s.fault)
/-- View 6, BITS: ACC [6:0], CNT [10:8]. -/
def viewBits (s : State) : Word := 0#21 ++ (s.cnt ++ (0#1 ++ s.acc))
/-- View 7, HIST: [15:0]. -/
def viewHist (s : State) : Word := 0#16 ++ s.hist

/-- `View(REG)` (10_state R39); the indices 8 to 15 are reserved. -/
def view (reg : BitVec 4) (s : State) : Option Word :=
  match reg.toNat with
  | 0 => some (viewStatus s)
  | 1 => some (viewFaults s)
  | 2 => some s.faultCmd
  | 3 => some s.cksum
  | 4 => some (checksumValue s.format s.cksum)
  | 5 => some s.totalIn
  | 6 => some (viewBits s)
  | 7 => some (viewHist s)
  | _ => none

end Sys2Proof.Machine
end

