-- ==== Sys2Proof/Machine/Packer.lean ====
section
/-! DEFINITION. The Huffman encoder and LSB-first bit packer (42_bit_packer.md). -/

namespace Sys2Proof.Machine

/-- The packer inside a command (42_bit_packer R210, R212): the working accumulator W, the bit count C, and the bytes
emitted so far, in order. -/
structure Packer where
  w       : Word
  c       : Nat
  emitted : List Byte
deriving DecidableEq, Repr

/-- `Emit(v)` (00_scope R12). -/
def Packer.emit (v : Byte) (p : Packer) : Packer := { p with emitted := p.emitted ++ [v] }

/-- Emit a list of bytes in order. -/
def Packer.emitAll (vs : List Byte) (p : Packer) : Packer := { p with emitted := p.emitted ++ vs }

/-- The loop of R213, `while C >= 8`, at most `fuel` times round. -/
def Packer.drain : Nat → Packer → Packer
  | 0, p => p
  | fuel + 1, p =>
    if 8 ≤ p.c then
      Packer.drain fuel { w := p.w >>> 8, c := p.c - 8, emitted := p.emitted ++ [p.w.setWidth 8] }
    else p

/-- `PutBits(v, n)` (42_bit_packer R213). The loop goes round (C + n) / 8 times. -/
def putBits (v n : Nat) (p : Packer) : Packer :=
  Packer.drain ((p.c + n) / 8) { p with w := p.w ||| (BitVec.ofNat 32 v <<< p.c), c := p.c + n }

/-- `PutHuff(s)` (42_bit_packer R214). -/
def putHuff (sym : Nat) (p : Packer) : Packer := putBits (rev (huffLen sym) (huffCode sym)) (huffLen sym) p

/-- `Align()` (42_bit_packer R216). -/
def align (p : Packer) : Packer := if 0 < p.c then putBits 0 (8 - p.c) p else p

/-! Tokens (42_bit_packer R218, R219). -/

/-- A length symbol and its extra bits. -/
def putLength (sym extra : Nat) (p : Packer) : Packer := putBits extra (lenExtra (sym - 257)) (putHuff sym p)

/-- A distance code, most significant bit first, and its extra bits. -/
def putDistance (j extra : Nat) (p : Packer) : Packer := putBits extra (distExtra j) (putBits (rev 5 j) 5 p)

/-- `EmitToken(t)`. -/
def emitToken : Token → Packer → Packer
  | .lit b, p => putHuff b.toNat p
  | .copy len d, p =>
    let k := lenIndex len
    let j := distIndex d
    putDistance j (d - distBase j) (putLength (257 + k) (len - lenBase k) p)

/-- `TokenBits(t)` (42_bit_packer R220). -/
def tokenBits : Token → Nat
  | .lit b => if b.toNat ≤ 143 then 8 else 9
  | .copy len d => huffLen (257 + lenIndex len) + lenExtra (lenIndex len) + 5 + distExtra (distIndex d)

/-! Blocks. -/

/-- `EmitFixed(T)` (42_bit_packer R227). -/
def emitFixed (ts : List Token) (p : Packer) : Packer :=
  putHuff eobSymbol (ts.foldl (fun q t => emitToken t q) (putBits (blockHeader 0 btypeFixed) 3 p))

/-- `EmitStoredBlock(E, m)`, m the number of bytes of E (42_bit_packer R224). -/
def emitStoredBlock (e : List Byte) (p : Packer) : Packer :=
  let len := BitVec.ofNat 16 e.length
  e.foldl (fun q b => putBits b.toNat 8 q)
    (putBits (~~~len).toNat 16 (putBits len.toNat 16 (align (putBits (blockHeader 0 btypeStored) 3 p))))

/-- The pieces EmitStored cuts a chunk into: 65535 bytes each, the last the rest (42_bit_packer R226). `fuel` bounds
the number of pieces. -/
def storedPieces : Nat → List Byte → List (List Byte)
  | 0, _ => []
  | fuel + 1, d => if d.isEmpty then [] else d.take storedMax :: storedPieces fuel (d.drop storedMax)

/-- `EmitStored(D)` (42_bit_packer R226). -/
def emitStored (d : List Byte) (p : Packer) : Packer :=
  (storedPieces d.length d).foldl (fun q e => emitStoredBlock e q) p

/-- `FixedBits(T)` (42_bit_packer R228). -/
def fixedBits (ts : List Token) : Nat := 3 + (ts.map tokenBits).sum + 7

/-- `StoredBits(n, c)` (42_bit_packer R228). -/
def storedBits (n c : Nat) : Nat :=
  let k := ceilDiv n storedMax
  (8 * ceilDiv (c + 3) 8 - c) + 8 * (k - 1) + 32 * k + 8 * n

/-! The packer and the state (42_bit_packer R210). -/

/-- `(W, C) <- (ACC, CNT)`, nothing emitted yet. -/
def openPacker (s : State) : Packer := ⟨s.acc.setWidth 32, s.cnt.toNat, []⟩

/-- `ACC <- W[6:0]`, `CNT <- C`, and the emitted bytes in OUT from the output cursor on (00_scope R12). -/
def commitPacker (p : Packer) (s : State) : State :=
  { s with
    acc    := p.w.setWidth 7
    cnt    := BitVec.ofNat 3 p.c
    out    := s.out.writeAll s.cursor p.emitted
    cursor := s.cursor + p.emitted.length }

end Sys2Proof.Machine
end

