-- ==== Sys2Proof/Machine/Framer.lean ====
section
/-! DEFINITION. The Format Framer (44_framer.md), the header and trailer bytes (30_encoding R119 to R124) and the
worst-case bounds (42_bit_packer R232). -/

namespace Sys2Proof.Machine

/-- Byte k of a word, byte 0 the least significant. -/
def wordByte (v : Word) (k : Nat) : Byte := v.extractLsb' (8 * k) 8

/-- The header bytes (30_encoding R119, R121, R123; 44_framer R270). -/
def headerBytes : Format → List Byte
  | .raw => []
  | .zlib => [0x78, 0x01]
  | .gzip => [0x1F, 0x8B, 0x08, 0x00, 0x00, 0x00, 0x00, 0x00, 0x04, 0xFF]

/-- The trailer bytes (30_encoding R120, R122, R123; 44_framer R272 to R274). -/
def trailerBytes (format : Format) (cksum totalIn : Word) : List Byte :=
  match format with
  | .raw => []
  | .zlib => [wordByte cksum 3, wordByte cksum 2, wordByte cksum 1, wordByte cksum 0]
  | .gzip =>
    let c := ~~~cksum
    [wordByte c 0, wordByte c 1, wordByte c 2, wordByte c 3,
      wordByte totalIn 0, wordByte totalIn 1, wordByte totalIn 2, wordByte totalIn 3]

/-- HDR_LEN (30_encoding R124). -/
def hdrLen : Format → Nat
  | .raw => 0
  | .zlib => 2
  | .gzip => 10

/-- TRL_LEN (30_encoding R124). -/
def trlLen : Format → Nat
  | .raw => 0
  | .zlib => 4
  | .gzip => 8

/-- `EmitHeader(FORMAT)`, run only in STATE IDLE (44_framer R270; 40_commands R146, R150). -/
def emitHeaderIfIdle (s : State) (p : Packer) : Packer :=
  match s.phase with
  | .idle => p.emitAll (headerBytes s.format)
  | .uninit => p
  | .active => p
  | .closed => p

/-- `EmitFinalBlock()` (44_framer R275). -/
def emitFinalBlock (p : Packer) : Packer := putHuff eobSymbol (putBits (blockHeader 1 btypeFixed) 3 p)

/-- `EmitTrailer(FORMAT)` (44_framer R272 to R274). -/
def emitTrailer (s : State) (p : Packer) : Packer := p.emitAll (trailerBytes s.format s.cksum s.totalIn)

/-- HDR_IF_IDLE (42_bit_packer R232). -/
def hdrIfIdle (s : State) : Nat :=
  match s.phase with
  | .idle => hdrLen s.format
  | .uninit => 0
  | .active => 0
  | .closed => 0

/-- WORST_ENC(n) (42_bit_packer R232). -/
def worstEnc (s : State) (n : Nat) : Nat := hdrIfIdle s + (if n = 0 then 0 else n + 5 * ceilDiv n storedMax + 1)

/-- WORST_FIN (42_bit_packer R232). -/
def worstFin (s : State) : Nat := hdrIfIdle s + 3 + trlLen s.format

end Sys2Proof.Machine
end

