-- ==== Sys2Proof/Machine/MatchFinder.lean ====
section
/-! DEFINITION. The LZ77 Match Finder (41_match_finder.md). `d` is the chunk, `p0` and `h0` TOTAL_IN and HIST at the
start of the command, `win` WINDOW. -/

namespace Sys2Proof.Machine

/-- `D[i]`. No rule reads past the chunk (41_match_finder R185, R187; log 16). -/
def chunkByte (d : List Byte) (i : Nat) : Byte := d.getD i 0

/-- `Key(D, i)`: four bytes, the first the least significant (41_match_finder R181). -/
def hashKey (d : List Byte) (i : Nat) : Word :=
  chunkByte d (i + 3) ++ (chunkByte d (i + 2) ++ (chunkByte d (i + 1) ++ chunkByte d i))

/-- `Hash(K)` (41_match_finder R182). -/
def hashOf (k : Word) : Nat := ((k * hashMul) >>> hashShift).toNat

/-- `B(j)`, the stream byte at position `p0 + j` (41_match_finder R185). -/
def byteSource (d : List Byte) (p0 : Word) (win : Memory Byte) (j : Int) : Byte :=
  if 0 ≤ j then chunkByte d j.toNat else winRead win (((p0.toNat : Int) + j) % (wsize : Int)).toNat

/-- The comparison loop of R183: from length `len`, at most `fuel` bytes more. -/
def matchExtend (d : List Byte) (p0 : Word) (win : Memory Byte) (i dist : Nat) : Nat → Nat → Nat
  | 0, len => len
  | fuel + 1, len =>
    if byteSource d p0 win (((i + len : Nat) : Int) - (dist : Int)) = chunkByte d (i + len) then
      matchExtend d p0 win i dist fuel (len + 1)
    else len

/-- The candidate of HASH entry `e` at index `i`: its length and distance where it is used and long enough
(41_match_finder R183, R186, R187). -/
def matchCandidate (d : List Byte) (p0 : Word) (h0 : Nat) (win : Memory Byte) (i : Nat) (e : HashEntry) :
    Option (Nat × Nat) :=
  if e.v then
    let dist := (p0 + BitVec.ofNat 32 i - e.p).toNat
    if 1 ≤ dist ∧ dist ≤ min wsize (h0 + i) then
      let len := matchExtend d p0 win i dist (min maxMatch (d.length - i)) 0
      if minMatch ≤ len then some (len, dist) else none
    else none
  else none

/-- `Tokenize(D)` from index `i` on (41_match_finder R183): the tokens and HASH. `fuel` bounds the number of tokens. -/
def tokenizeFrom (d : List Byte) (p0 : Word) (h0 : Nat) (win : Memory Byte) :
    Nat → Nat → Memory HashEntry → List Token × Memory HashEntry
  | 0, _, hash => ([], hash)
  | fuel + 1, i, hash =>
    if i < d.length then
      if keyBytes ≤ d.length - i then
        let h := hashOf (hashKey d i)
        let hash' := hashWrite hash h ⟨true, p0 + BitVec.ofNat 32 i⟩
        match matchCandidate d p0 h0 win i (hashRead hash h) with
        | some (len, dist) =>
          let r := tokenizeFrom d p0 h0 win fuel (i + len) hash'
          (Token.copy len dist :: r.1, r.2)
        | none =>
          let r := tokenizeFrom d p0 h0 win fuel (i + 1) hash'
          (Token.lit (chunkByte d i) :: r.1, r.2)
      else
        let r := tokenizeFrom d p0 h0 win fuel (i + 1) hash
        (Token.lit (chunkByte d i) :: r.1, r.2)
    else ([], hash)

/-- `Tokenize(D)`, the whole reference policy (41_match_finder R183). -/
def tokenize (d : List Byte) (p0 : Word) (h0 : Nat) (win : Memory Byte) (hash : Memory HashEntry) :
    List Token × Memory HashEntry :=
  tokenizeFrom d p0 h0 win d.length 0 hash

/-- The validity contract from index `i` on (41_match_finder R189). -/
def validFrom (d : List Byte) (p0 : Word) (h0 : Nat) (win : Memory Byte) : Nat → List Token → Bool
  | i, [] => decide (i = d.length)
  | i, .lit b :: ts => decide (i < d.length ∧ b = chunkByte d i) && validFrom d p0 h0 win (i + 1) ts
  | i, .copy len dist :: ts =>
    decide (3 ≤ len ∧ len ≤ maxMatch ∧ 1 ≤ dist ∧ dist ≤ min wsize (h0 + i) ∧ i + len ≤ d.length) &&
      (List.range len).all (fun k =>
        decide (chunkByte d (i + k) = byteSource d p0 win (((i + k : Nat) : Int) - (dist : Int)))) &&
      validFrom d p0 h0 win (i + len) ts

/-- The validity contract every MATCH_POLICY meets (41_match_finder R189). -/
def validTokens (d : List Byte) (p0 : Word) (h0 : Nat) (win : Memory Byte) (ts : List Token) : Bool :=
  validFrom d p0 h0 win 0 ts

/-- The tokens of a chunk under MATCH_POLICY, and HASH and the free-value counter afterwards (00_scope R10,
41_match_finder R189). Under any-valid the tokens are a free list that meets the contract and HASH is unconstrained;
where the free list offered does not meet it, the reference list, which does, is taken (log 8, log 24). -/
def chooseTokens (d : List Byte) (s : State) : List Token × Memory HashEntry × Nat :=
  let reference := tokenize d s.totalIn s.hist.toNat s.window s.hash
  match s.policy with
  | .reference => (reference.1, reference.2, s.freeCtr)
  | .anyValid =>
    let offered := Config.freeTokens s.freeCtr s.totalIn s.hist.toNat s.window s.hash d
    (if validTokens d s.totalIn s.hist.toNat s.window offered then offered else reference.1,
      freeHash s.freeCtr, s.freeCtr + 1)

/-- `WindowUpdate(D)` (41_match_finder R188): byte i of the chunk at `(p0 + i) mod 32768`, in increasing i. `q` is the
position of the first byte of `d`. -/
def windowUpdate (win : Memory Byte) (q : Nat) : List Byte → Memory Byte
  | [] => win
  | b :: rest => windowUpdate (winWrite win (q % wsize) b) (q + 1) rest

/-- `min(32768, HIST + LEN)` (10_state R31). -/
def histAfter (hist : BitVec 16) (n : Nat) : BitVec 16 := BitVec.ofNat 16 (min wsize (hist.toNat + n))

end Sys2Proof.Machine
end

