-- ==== Sys2Proof/Machine/Controller.lean ====
section
/-! DEFINITION. The meanings of the five commands (40_commands.md). Each takes its fault checks in the order of its
rule, then its effects, then responds (R141). -/

namespace Sys2Proof.Machine

/-- TBLINIT (40_commands R140). -/
def execTblinit (rsvd : BitVec 28) (s : State) : Host.Outcome State Fault Refusal :=
  if rsvd ≠ 0 then .next (raiseFault .illegal (wordTblinit rsvd) s)
  else .next (respond 0 s)

/-- INIT's effect (40_commands R143). -/
def initEffect (en : BitVec 1) (format : Format) (s : State) : State :=
  respond 0
    { s with
      phase   := .idle
      level   := en
      format  := format
      cksum   := checksumSeed format
      totalIn := 0
      acc     := 0
      cnt     := 0
      hist    := 0
      hash    := hashInvalidate s.hash
      elementBytes := 0
      elementLen   := 0 }

/-- INIT (40_commands R142, R143). -/
def execInit (en : BitVec 1) (fmt : BitVec 2) (rsvd : BitVec 25) (s : State) : Host.Outcome State Fault Refusal :=
  if rsvd ≠ 0 then .next (raiseFault .illegal (wordInit en fmt rsvd) s)
  else
    match Format.ofFmt fmt with
    | none => .next (raiseFault .badFormat (wordInit en fmt rsvd) s)
    | some format => .next (initEffect en format s)

/-- What ENCODE of `data` emits after the header, and HASH and the free-value counter afterwards (40_commands R146,
42_bit_packer R229). -/
def encodeBlocks (data : List Byte) (s : State) (p : Packer) : Packer × Memory HashEntry × Nat :=
  if s.level = 0 then (emitStored data p, s.hash, s.freeCtr)
  else
    let choice := chooseTokens data s
    if fixedBits choice.1 ≤ storedBits data.length s.cnt.toNat then
      (emitFixed choice.1 p, choice.2.1, choice.2.2)
    else (emitStored data p, choice.2.1, choice.2.2)

/-- ENCODE's effect but for the response (40_commands R146): the register updates come last and read the state at the
start of the command. -/
def encodeUpdate (data : List Byte) (s : State) : State :=
  let start := { s with cursor := 0 }
  let header := emitHeaderIfIdle s (openPacker s)
  if data.isEmpty then { commitPacker header start with phase := .active }
  else
    let blocks := encodeBlocks data s header
    { commitPacker blocks.1 start with
      phase   := .active
      cksum   := checksumUpdate s.format s.cksum data
      window  := windowUpdate s.window s.totalIn.toNat data
      totalIn := s.totalIn + BitVec.ofNat 32 data.length
      hist    := histAfter s.hist data.length
      hash    := blocks.2.1
      freeCtr := blocks.2.2 }

/-- ENCODE's effect (40_commands R146): `RESULT <- o`. -/
def encodeEffect (data : List Byte) (s : State) : State :=
  let t := encodeUpdate data s
  respond (BitVec.ofNat 32 t.cursor) t

/-- ENCODE (40_commands R144 to R146). MORE is only part of the word (30_encoding R96). -/
def execEncode (more : BitVec 1) (rsvd : BitVec 27) (cap : Word) (data : List Byte) (s : State) :
    Host.Outcome State Fault Refusal :=
  if rsvd ≠ 0 then .next (raiseFault .illegal (wordEncode more rsvd) s)
  else if s.phase.noStream then .next (raiseFault .usage (wordEncode more rsvd) s)
  else if cap.toNat < worstEnc s data.length then .next (raiseFault .outCapacity (wordEncode more rsvd) s)
  else .next (encodeEffect data s)

/-- FINISH's effect but for the response (40_commands R150). -/
def finishUpdate (s : State) : State :=
  let p := emitTrailer s (align (emitFinalBlock (emitHeaderIfIdle s (openPacker s))))
  { commitPacker p { s with cursor := 0 } with phase := .closed }

/-- FINISH's effect (40_commands R150): `RESULT <- o`. -/
def finishEffect (s : State) : State :=
  let t := finishUpdate s
  respond (BitVec.ofNat 32 t.cursor) t

/-- FINISH (40_commands R149, R150). -/
def execFinish (rsvd : BitVec 28) (cap : Word) (s : State) : Host.Outcome State Fault Refusal :=
  if rsvd ≠ 0 then .next (raiseFault .illegal (wordFinish rsvd) s)
  else if s.phase.noStream then .next (raiseFault .usage (wordFinish rsvd) s)
  else if cap.toNat < worstFin s then .next (raiseFault .outCapacity (wordFinish rsvd) s)
  else .next (finishEffect s)

/-- RDREG (40_commands R152). -/
def execRdreg (rsvdLow reg : BitVec 4) (rsvdHigh : BitVec 20) (s : State) : Host.Outcome State Fault Refusal :=
  if rsvdLow ≠ 0 ∨ rsvdHigh ≠ 0 then .next (raiseFault .illegal (wordRdreg rsvdLow reg rsvdHigh) s)
  else
    match view reg s with
    | none => .next (raiseFault .illegal (wordRdreg rsvdLow reg rsvdHigh) s)
    | some v => .next (respond v s)

end Sys2Proof.Machine
end

