-- ==== Sys2Proof/Machine/Elements.lean ====
section
/-! DEFINITION. The meanings of the output elements (opcode table, DEFLATE-output rows): what the Huffman encoder and
bit packer does for one of them. The block does so only inside ENCODE and FINISH; alone, an element is packed onto
ACC and CNT and its whole bytes go to OUT at the output cursor (log 4), and the stream bytes it stands for are counted,
since a distance never reaches back before the stream's first byte (30_encoding R118; log 15). The rows a token or a block is made of are
listed at the end, for the statements that tie ENCODE's output to them. -/

namespace Sys2Proof.Machine

/-- Run the packer: open it on ACC and CNT, do `f`, write it back (42_bit_packer R210). -/
def runPacker (f : Packer → Packer) (s : State) : State := commitPacker (f (openPacker s)) s

/-- The number of bytes emitted so far in the stream, up to where it stops to matter: HIST counts those of ENCODE up to
32768, and no distance is greater (30_encoding R118, 10_state R31; log 15). -/
def streamBytes (s : State) : Nat := s.hist.toNat + s.elementBytes

/-- Run a literal: it stands for one byte. -/
def runLiteral (b : Nat) (s : State) : State :=
  { runPacker (putHuff b) s with elementBytes := s.elementBytes + 1 }

/-- Run a length: the bytes it stands for count when its distance has come. -/
def runLength (sym extra : Nat) (s : State) : State :=
  { runPacker (putLength sym extra) s with elementLen := lenBase (sym - 257) + extra }

/-- Run a distance: the copy it ends stands for the bytes of its length. -/
def runDistance (j extra : Nat) (s : State) : State :=
  { runPacker (putDistance j extra) s with elementBytes := s.elementBytes + s.elementLen, elementLen := 0 }

/-- Run a stored block: it stands for its data. -/
def runStored (data : List Byte) (s : State) : State :=
  { runPacker (emitStoredBlock data) s with elementBytes := s.elementBytes + data.length }

/-- BLK_STORED_HDR (42_bit_packer R222, R224). -/
def execBlkStoredHdr (data : List Byte) (s : State) : Host.Outcome State Fault Refusal :=
  if data.length ≤ storedMax then .next (runStored data s) else .refused .notEmitted

/-- BLK_FIXED_HDR (42_bit_packer R221). -/
def execBlkFixedHdr (s : State) : Host.Outcome State Fault Refusal :=
  .next (runPacker (putBits (blockHeader 0 btypeFixed) 3) s)

/-- BLK_FINAL_HDR (42_bit_packer R221, 44_framer R275). -/
def execBlkFinalHdr (s : State) : Host.Outcome State Fault Refusal :=
  .next (runPacker (putBits (blockHeader 1 btypeFixed) 3) s)

/-- LIT_00_0F (42_bit_packer R218): byte `l`. -/
def execLit000F (l : BitVec 4) (s : State) : Host.Outcome State Fault Refusal :=
  .next (runLiteral l.toNat s)

/-- LIT_10_4F: byte `0x10 + l`. -/
def execLit104F (l : BitVec 6) (s : State) : Host.Outcome State Fault Refusal :=
  .next (runLiteral (0x10 + l.toNat) s)

/-- LIT_50_8F: byte `0x50 + l`. -/
def execLit508F (l : BitVec 6) (s : State) : Host.Outcome State Fault Refusal :=
  .next (runLiteral (0x50 + l.toNat) s)

/-- LIT_90_9F: byte `0x90 + l`. -/
def execLit909F (l : BitVec 4) (s : State) : Host.Outcome State Fault Refusal :=
  .next (runLiteral (0x90 + l.toNat) s)

/-- LIT_A0_BF: byte `0xA0 + l`. -/
def execLitA0BF (l : BitVec 5) (s : State) : Host.Outcome State Fault Refusal :=
  .next (runLiteral (0xA0 + l.toNat) s)

/-- LIT_C0_FF: byte `0xC0 + l`. -/
def execLitC0FF (l : BitVec 6) (s : State) : Host.Outcome State Fault Refusal :=
  .next (runLiteral (0xC0 + l.toNat) s)

/-- EOB (30_encoding R109). -/
def execEob (s : State) : Host.Outcome State Fault Refusal := .next (runPacker (putHuff eobSymbol) s)

/-- LEN_257_271 (42_bit_packer R219); s = 0 is EOB's code, not a length's. -/
def execLen257271 (sym : BitVec 4) (extra : BitVec 5) (s : State) : Host.Outcome State Fault Refusal :=
  if 1 ≤ sym.toNat ∧ lenExtraOk (256 + sym.toNat) extra.toNat then
    .next (runLength (256 + sym.toNat) extra.toNat s)
  else .refused .notEmitted

/-- LEN_272_279 (42_bit_packer R219). -/
def execLen272279 (sym : BitVec 3) (extra : BitVec 5) (s : State) : Host.Outcome State Fault Refusal :=
  if lenExtraOk (272 + sym.toNat) extra.toNat then
    .next (runLength (272 + sym.toNat) extra.toNat s)
  else .refused .notEmitted

/-- LEN_280_285 (42_bit_packer R219); symbols 286 and 287 are never emitted (30_encoding R118). -/
def execLen280285 (sym : BitVec 3) (extra : BitVec 5) (s : State) : Host.Outcome State Fault Refusal :=
  if sym.toNat ≤ 5 ∧ lenExtraOk (280 + sym.toNat) extra.toNat then
    .next (runLength (280 + sym.toNat) extra.toNat s)
  else .refused .notEmitted

/-- DIST (42_bit_packer R219); codes 30 and 31, and a distance greater than the bytes emitted so far in the stream, are never
emitted (30_encoding R118). That a refused distance is refused by name is log 15. -/
def execDist (d : BitVec 5) (extra : BitVec 13) (s : State) : Host.Outcome State Fault Refusal :=
  if d.toNat ≤ 29 ∧ distExtraOk d.toNat extra.toNat ∧ distBase d.toNat + extra.toNat ≤ streamBytes s then
    .next (runDistance d.toNat extra.toNat s)
  else .refused .notEmitted

/-! The rows of a token and of a block. -/

/-- The row of literal byte `b` (opcode table, LIT_ rows). -/
def literalRow (b : Byte) : Instr :=
  let v := b.toNat
  if v < 0x10 then .lit000F (BitVec.ofNat 4 v)
  else if v < 0x50 then .lit104F (BitVec.ofNat 6 (v - 0x10))
  else if v < 0x90 then .lit508F (BitVec.ofNat 6 (v - 0x50))
  else if v < 0xA0 then .lit909F (BitVec.ofNat 4 (v - 0x90))
  else if v < 0xC0 then .litA0BF (BitVec.ofNat 5 (v - 0xA0))
  else .litC0FF (BitVec.ofNat 6 (v - 0xC0))

/-- The row of length L, with its extra bits (30_encoding R114; opcode table, LEN_ rows). -/
def lengthRow (len : Nat) : Instr :=
  let sym := 257 + lenIndex len
  let extra := BitVec.ofNat 5 (len - lenBase (lenIndex len))
  if sym ≤ 271 then .len257271 (BitVec.ofNat 4 (sym - 256)) extra
  else if sym ≤ 279 then .len272279 (BitVec.ofNat 3 (sym - 272)) extra
  else .len280285 (BitVec.ofNat 3 (sym - 280)) extra

/-- The row of distance d, with its extra bits (30_encoding R116; opcode table, DIST row). -/
def distanceRow (d : Nat) : Instr :=
  .dist (BitVec.ofNat 5 (distIndex d)) (BitVec.ofNat 13 (d - distBase (distIndex d)))

/-- The rows of a token, in order (30_encoding R107, R108). -/
def tokenRows : Token → List Instr
  | .lit b => [literalRow b]
  | .copy len d => [lengthRow len, distanceRow d]

/-- The rows of a fixed block of tokens, in order (42_bit_packer R227). -/
def fixedBlockRows (ts : List Token) : List Instr := .blkFixedHdr :: (ts.flatMap tokenRows ++ [.eob])

end Sys2Proof.Machine
end

