-- ==== Sys2Proof/Machine/Reserved.lean ====
section
/-! DEFINITION. The meanings of the reserved command space (30_encoding R98, 60_exceptions R304): each word faults
ILLEGAL, and the block goes on. -/

namespace Sys2Proof.Machine

/-- RESERVED_OP_0. -/
def execReservedOp0 (rest : BitVec 28) (s : State) : Host.Outcome State Fault Refusal :=
  .next (raiseFault .illegal (wordReserved0 rest) s)

/-- RESERVED_OP_6_7. -/
def execReservedOp67 (low : BitVec 1) (rest : BitVec 28) (s : State) : Host.Outcome State Fault Refusal :=
  .next (raiseFault .illegal (wordReserved67 low rest) s)

/-- RESERVED_OP_8_F. -/
def execReservedOp8F (low : BitVec 3) (rest : BitVec 28) (s : State) : Host.Outcome State Fault Refusal :=
  .next (raiseFault .illegal (wordReserved8F low rest) s)

end Sys2Proof.Machine
end

