-- ==== Sys2Proof/Machine/Dispatch.lean ====
section
/-! DEFINITION. One arm for each instruction. -/

namespace Sys2Proof.Machine

def exec (i : Instr) (s : State) : Host.Outcome State Fault Refusal :=
  match i with
  | .tblinit rsvd => Sys2Proof.Machine.execTblinit rsvd s
  | .init en fmt rsvd => Sys2Proof.Machine.execInit en fmt rsvd s
  | .encode more rsvd cap data => Sys2Proof.Machine.execEncode more rsvd cap data s
  | .finish rsvd cap => Sys2Proof.Machine.execFinish rsvd cap s
  | .rdreg rsvdLow reg rsvdHigh => Sys2Proof.Machine.execRdreg rsvdLow reg rsvdHigh s
  | .reservedOp0 rest => Sys2Proof.Machine.execReservedOp0 rest s
  | .reservedOp67 low rest => Sys2Proof.Machine.execReservedOp67 low rest s
  | .reservedOp8F low rest => Sys2Proof.Machine.execReservedOp8F low rest s
  | .blkStoredHdr data => Sys2Proof.Machine.execBlkStoredHdr data s
  | .blkFixedHdr => Sys2Proof.Machine.execBlkFixedHdr s
  | .blkFinalHdr => Sys2Proof.Machine.execBlkFinalHdr s
  | .lit000F l => Sys2Proof.Machine.execLit000F l s
  | .lit104F l => Sys2Proof.Machine.execLit104F l s
  | .lit508F l => Sys2Proof.Machine.execLit508F l s
  | .lit909F l => Sys2Proof.Machine.execLit909F l s
  | .litA0BF l => Sys2Proof.Machine.execLitA0BF l s
  | .litC0FF l => Sys2Proof.Machine.execLitC0FF l s
  | .eob => Sys2Proof.Machine.execEob s
  | .len257271 sym extra => Sys2Proof.Machine.execLen257271 sym extra s
  | .len272279 sym extra => Sys2Proof.Machine.execLen272279 sym extra s
  | .len280285 sym extra => Sys2Proof.Machine.execLen280285 sym extra s
  | .dist d extra => Sys2Proof.Machine.execDist d extra s

end Sys2Proof.Machine
end

