-- ==== Sys2Proof/Machine/Fetch.lean ====
section
/-! DEFINITION. What the block does with what arrives: it decodes and runs a command (30_encoding R90), runs one whose
buffers the host disturbs (70_reset R351, R353), or is reset (R340, R341). -/

namespace Sys2Proof.Machine

/-! The host's buffers (20_memory R60). -/

/-- CAP of an instruction that has an OUT: ENCODE and FINISH (20_memory R60). -/
def capacityOf : Instr → Option Nat
  | .encode _ _ cap _ => some cap.toNat
  | .finish _ cap => some cap.toNat
  | .tblinit _ | .init _ _ _ | .rdreg _ _ _ | .reservedOp0 _ | .reservedOp67 _ _ | .reservedOp8F _ _ => none
  | .blkStoredHdr _ | .blkFixedHdr | .blkFinalHdr | .lit000F _ | .lit104F _ | .lit508F _ | .lit909F _ | .litA0BF _
  | .litC0FF _ | .eob | .len257271 _ _ | .len272279 _ _ | .len280285 _ _ | .dist _ _ => none

/-- The bytes of IN: those of ENCODE (20_memory R60). -/
def inputOf : Instr → List Byte
  | .encode _ _ _ data => data
  | .finish _ _ => []
  | .tblinit _ | .init _ _ _ | .rdreg _ _ _ | .reservedOp0 _ | .reservedOp67 _ _ | .reservedOp8F _ _ => []
  | .blkStoredHdr _ | .blkFixedHdr | .blkFinalHdr | .lit000F _ | .lit104F _ | .lit508F _ | .lit909F _ | .litA0BF _
  | .litC0FF _ | .eob | .len257271 _ _ | .len272279 _ _ | .len280285 _ _ | .dist _ _ => []

/-- The host supplies OUT afresh with each ENCODE and FINISH (20_memory R60): a region in which the block has written
nothing yet (log 10). -/
def supplyOut (i : Instr) (s : State) : State :=
  match capacityOf i with
  | some _ => { s with out := [] }
  | none => s

/-- Decode and run, with the OUT that the host supplies. What is no instruction stops by name (log 3). -/
def runEncoding (x : Encoding) (s : State) : Host.Outcome State Fault Refusal :=
  match decode x with
  | .ok i => exec i (supplyOut i s)
  | .rejected e => .fault (.malformedRequest e)

/-! Reset. -/

/-- Reset (70_reset R340): every piece of the block's state at its reset value. OUT is the host's buffer, the requests
not yet issued are the host's, MATCH_POLICY is a strap, and the free-value counter goes on. -/
def applyReset (s : State) : State :=
  { State.reset with out := s.out, inbox := s.inbox, policy := s.policy, freeCtr := s.freeCtr }

/-- Reset while a command executes (70_reset R341): the command is abandoned without a response, and of the OUT supplied
with it no byte is known (log 13). -/
def applyResetDuring (r : Request) (s : State) : State :=
  match decodeRequest r with
  | .ok i => applyReset (supplyOut i s)
  | .rejected _ => applyReset s

/-! A host that breaks R351 or R353. -/

/-- The host changes IN. -/
def Disturbance.reachesIn : Disturbance → Bool
  | .inOnly => true
  | .outOnly => false
  | .both => true

/-- The host reads or writes OUT. -/
def Disturbance.reachesOut : Disturbance → Bool
  | .inOnly => false
  | .outOnly => true
  | .both => true

/-- The host breaks a rule: it changes IN where IN has a byte, or touches OUT where OUT has one (70_reset R351). -/
def breaksDuties (d : Disturbance) (i : Instr) : Bool :=
  (d.reachesIn && !(inputOf i).isEmpty) || (d.reachesOut && decide (0 < (capacityOf i).getD 0))

/-- The bytes an ENCODE reads whose IN the host changes: as many as LEN, each a free value (log 12). -/
def disturbedData (ctr n : Nat) : List Byte := (List.range n).map (Config.disturbedIn ctr)

/-- The instruction with the bytes it reads: its own, unless the host changes IN. -/
def asRead (d : Disturbance) (ctr : Nat) (i : Instr) : Instr :=
  match i with
  | .encode more rsvd cap data =>
    if d.reachesIn then .encode more rsvd cap (disturbedData ctr data.length) else .encode more rsvd cap data
  | .finish _ _ | .tblinit _ | .init _ _ _ | .rdreg _ _ _ | .reservedOp0 _ | .reservedOp67 _ _ | .reservedOp8F _ _ => i
  | .blkStoredHdr _ | .blkFixedHdr | .blkFinalHdr | .lit000F _ | .lit104F _ | .lit508F _ | .lit909F _ | .litA0BF _
  | .litC0FF _ | .eob | .len257271 _ _ | .len272279 _ _ | .len280285 _ _ | .dist _ _ => i

/-- After a disturbed command with capacity `cap` (70_reset R351): the OUT bytes below `cap` are unspecified, and where
the command completed so are CKSUM, WINDOW and HASH. A command that faulted read and wrote nothing (60_exceptions
R302). -/
def disturb (cap : Nat) (t : State) : State :=
  match t.response with
  | some ⟨true, _, _⟩ =>
    { t with
      out     := t.out.forgetBelow cap
      cksum   := Config.disturbedCksum t.freeCtr
      window  := disturbedWindow t.freeCtr
      hash    := freeHash t.freeCtr
      freeCtr := t.freeCtr + 1 }
  | _ => { t with out := t.out.forgetBelow cap }

/-- The outcome with `f` applied to its next state. -/
def mapNext (f : State → State) : Host.Outcome State Fault Refusal → Host.Outcome State Fault Refusal
  | .next s => .next (f s)
  | .fault r => .fault r
  | .refused r => .refused r

/-- Run a request whose buffers the host disturbs; one that has no such buffer runs as it is. -/
def runDisturbed (d : Disturbance) (r : Request) (s : State) : Host.Outcome State Fault Refusal :=
  match decodeRequest r with
  | .ok i =>
    if breaksDuties d i then
      mapNext (disturb ((capacityOf i).getD 0)) (exec (asRead d s.freeCtr i) (supplyOut i s))
    else exec i (supplyOut i s)
  | .rejected e => .fault (.malformedRequest e)

/-- What the block does with one arrival. -/
def arrive (a : Arrival) (s : State) : Host.Outcome State Fault Refusal :=
  match a with
  | .issue x => runEncoding x s
  | .issueDisturbed d r => runDisturbed d r s
  | .reset => .next (applyReset s)
  | .resetDuring r => .next (applyResetDuring r s)

/-- Take the next arrival and act on it. With none the block holds its state (60_exceptions R320, 20_memory R68). -/
def takeArrival (s : State) : Host.Outcome State Fault Refusal :=
  match s.inbox with
  | [] => .next s
  | a :: rest => arrive a { s with inbox := rest }

end Sys2Proof.Machine
end

