-- ==== Sys2Proof/Machine/Step.lean ====
section
/-! DEFINITION. One step: the next arrival at the command port, run to completion (20_memory R66, R70). -/

namespace Sys2Proof.Machine

/-- One step. -/
def step (s : State) : Host.Outcome State Fault Refusal := takeArrival s

/-- The state with a word of the opcode table waiting first at the port (log 2, log 5). -/
def State.withFetchWord (s : State) (nbits w : Nat) : State :=
  { s with inbox := .issue (tableEncoding nbits w) :: s.inbox }

end Sys2Proof.Machine
end

