-- ==== Sys2Proof/Safety.lean ====
section
/-! DEFINITION. The terms claims use: which instructions are commands, the bits the packer has packed, what a token
list decodes to, what WINDOW holds, and the invariants of a run. -/

namespace Sys2Proof

/-- The commands of the command port, reserved ones included (30_encoding R93); the other rows are output elements. -/
def Instr.isCommand : Instr → Bool
  | .tblinit _ => true
  | .init _ _ _ => true
  | .encode _ _ _ _ => true
  | .finish _ _ => true
  | .rdreg _ _ _ => true
  | .reservedOp0 _ => true
  | .reservedOp67 _ _ => true
  | .reservedOp8F _ _ => true
  | .blkStoredHdr _ => false
  | .blkFixedHdr => false
  | .blkFinalHdr => false
  | .lit000F _ => false
  | .lit104F _ => false
  | .lit508F _ => false
  | .lit909F _ => false
  | .litA0BF _ => false
  | .litC0FF _ => false
  | .eob => false
  | .len257271 _ _ => false
  | .len272279 _ _ => false
  | .len280285 _ _ => false
  | .dist _ _ => false

/-- CW of a command, 0 where the instruction is an output element (30_encoding R92). -/
def Instr.commandWord (i : Instr) : Word :=
  match Sys2Proof.encode i with
  | .request r => r.cw
  | .element _ => 0

end Sys2Proof

namespace Sys2Proof.Machine

/-! Bits in transmission order (42_bit_packer R211). -/

/-- The low `n` bits of `v`, least significant first. -/
def lsbBits (n v : Nat) : List Bool := (List.range n).map fun i => v.testBit i

/-- The low `n` bits of `v`, most significant first. -/
def msbBits (n v : Nat) : List Bool := (lsbBits n v).reverse

/-- The bits of a list of DEFLATE bytes: bit b(8m+t) is bit t of byte m (42_bit_packer R211). -/
def bytesBits (l : List Byte) : List Bool := l.flatMap fun b => lsbBits 8 b.toNat

/-- The bits a packer has packed: its bytes, then the low C bits of W (42_bit_packer R217). -/
def packedBits (p : Packer) : List Bool := bytesBits p.emitted ++ lsbBits p.c p.w.toNat

/-- The bits pending in a state: the low CNT bits of ACC. -/
def pendingBits (s : State) : List Bool := lsbBits s.cnt.toNat s.acc.toNat

/-- The bits of an output element: its code, most significant bit first, then its extra bits, least significant first
(20_memory R63, opcode table). -/
def elementBits (e : Element) : List Bool := msbBits e.code.width e.code.value ++ lsbBits e.extra.width e.extra.value

/-- A packer between two PutBits: fewer than 8 bits pending, W's bits at and above C zero (42_bit_packer R212, R217). -/
def Packer.settled (p : Packer) : Prop := p.c < 8 ∧ p.w.toNat < 2 ^ p.c

/-- The bytes at offsets `o`, `o + 1`, ... of a memory are those of a list. -/
def holdsAt (m : Memory Byte) (o : Nat) (l : List Byte) : Prop := ∀ k : Nat, k < l.length → m.read (o + k) = l[k]?

/-- The header that an ENCODE or FINISH writes at OUT offset 0: that of FORMAT in STATE IDLE, none otherwise (30_encoding
R119, R121, R123; 40_commands R146, R150). Written out, so that statements do not rest on the Framer's own table. -/
def writtenHeader (s : State) : List Byte :=
  if s.phase = .idle then
    match s.format with
    | .raw => []
    | .zlib => [0x78, 0x01]
    | .gzip => [0x1F, 0x8B, 0x08, 0x00, 0x00, 0x00, 0x00, 0x00, 0x04, 0xFF]
  else []

/-- A stored block from its LEN field on: LEN and NLEN, least significant byte first, then the data (30_encoding R117). -/
def storedBlockBytes (e : List Byte) : List Byte :=
  [BitVec.ofNat 8 e.length, BitVec.ofNat 8 (e.length / 256),
    ~~~(BitVec.ofNat 8 e.length), ~~~(BitVec.ofNat 8 (e.length / 256))] ++ e

/-- `bytes` is a chunk sent as stored blocks from the bits pending in `s` (42_bit_packer R224, R226): the chunk is cut into
pieces of 65535 bytes and a last one of 1 to 65535; the first header shares a byte with the pending bits, or two where it
does not fit with them, and every later header is a byte of its own, 0. -/
def isStoredChunk (s : State) (data bytes : List Byte) : Prop :=
  ∃ (pieces : List (List Byte)) (last : List Byte),
    (pieces ++ [last]).flatten = data ∧ (∀ e ∈ pieces, e.length = 65535) ∧ 1 ≤ last.length ∧ last.length ≤ 65535 ∧
    bytes = (if s.cnt.toNat ≤ 5 then [s.acc.setWidth 8] else [s.acc.setWidth 8, 0]) ++
      List.intercalate [0x00] ((pieces ++ [last]).map storedBlockBytes)

/-! Running several instructions. -/

/-- The instructions of a list one after the other, to the first that does not answer a next state. -/
def execAll : List Instr → State → Host.Outcome State Fault Refusal
  | [], s => .next s
  | i :: rest, s =>
    match exec i s with
    | .next t => execAll rest t
    | .fault r => .fault r
    | .refused r => .refused r

/-! What a decoder makes of tokens (41_match_finder R189: DEFLATE copy semantics). -/

/-- `len` bytes, one at a time, each from `dist` bytes back. A stream is held latest byte first. -/
def copyBytes (dist : Nat) : Nat → List Byte → Option (List Byte)
  | 0, stream => some stream
  | len + 1, stream =>
    match stream[dist - 1]? with
    | some b => copyBytes dist len (b :: stream)
    | none => none

/-- The stream after a token list, `stream` being the stream before it, latest byte first. -/
def decodeTokens : List Token → List Byte → Option (List Byte)
  | [], stream => some stream
  | .lit b :: ts, stream => decodeTokens ts (b :: stream)
  | .copy len dist :: ts, stream =>
    if dist = 0 then none
    else
      match copyBytes dist len stream with
      | some stream' => decodeTokens ts stream'
      | none => none

/-! What the reference policy chooses (41_match_finder R183 to R187), said of a finished token list, without Tokenize's
loop. -/

/-- How many bytes of the chunk a token covers (41_match_finder R180). -/
def tokenSpan : Token → Nat
  | .lit _ => 1
  | .copy len _ => len

/-- `tok` stands in the list `ts` and starts at index `i` of the chunk. -/
def tokenAt (ts : List Token) (i : Nat) (tok : Token) : Prop :=
  ∃ before after : List Token, ts = before ++ tok :: after ∧ (before.map tokenSpan).sum = i

/-- Index `i` of the chunk `d` is keyed: a token starts there, with at least 4 bytes left (41_match_finder R184). -/
def keyedAt (d : List Byte) (ts : List Token) (i : Nat) : Prop := i + 4 ≤ d.length ∧ ∃ tok, tokenAt ts i tok

/-- `e` is what bucket `h` of HASH holds when Tokenize reaches index `i`: the position of the last index below `i` that was
keyed into that bucket, or, where there is none, what HASH held before the command (41_match_finder R183, R184). -/
def bucketBefore (d : List Byte) (s : State) (ts : List Token) (i h : Nat) (e : HashEntry) : Prop :=
  (∃ j : Nat, j < i ∧ keyedAt d ts j ∧ hashOf (hashKey d j) = h ∧ e = ⟨true, s.totalIn + BitVec.ofNat 32 j⟩ ∧
    ∀ k : Nat, j < k → k < i → keyedAt d ts k → hashOf (hashKey d k) ≠ h) ∨
  ((∀ k : Nat, k < i → keyedAt d ts k → hashOf (hashKey d k) ≠ h) ∧ e = hashRead s.hash h)

/-- Byte `i + k` of the chunk equals the stream byte `dist` before it, k bytes into a match (41_match_finder R185). -/
def sameByte (d : List Byte) (s : State) (i dist k : Nat) : Prop :=
  byteSource d s.totalIn s.window (((i + k : Nat) : Int) - (dist : Int)) = chunkByte d (i + k)

/-- The entry `e` names a candidate for index `i` that is used: 4 bytes are left to key, V is 1, its distance is at least 1
and at most 32768 and the bytes kept so far, and its first 4 bytes are the chunk's (41_match_finder R183, R186). -/
def usesCandidate (d : List Byte) (s : State) (i : Nat) (e : HashEntry) : Prop :=
  let dist := (s.totalIn + BitVec.ofNat 32 i - e.p).toNat
  i + 4 ≤ d.length ∧ e.v = true ∧ 1 ≤ dist ∧ dist ≤ min 32768 (s.hist.toNat + i) ∧ ∀ k : Nat, k < 4 → sameByte d s i dist k

/-- `tok` is the token the reference policy takes at index `i` with the bucket entry `e`: the candidate's copy, as long as the
bytes stay equal, up to 258 bytes and the end of the chunk, or else the literal (41_match_finder R183, R187). -/
def referenceToken (d : List Byte) (s : State) (i : Nat) (e : HashEntry) (tok : Token) : Prop :=
  let dist := (s.totalIn + BitVec.ofNat 32 i - e.p).toNat
  (usesCandidate d s i e → ∃ len : Nat, tok = .copy len dist ∧ 4 ≤ len ∧ len ≤ 258 ∧ i + len ≤ d.length ∧
    (∀ k : Nat, k < len → sameByte d s i dist k) ∧ (len = 258 ∨ i + len = d.length ∨ ¬ sameByte d s i dist len)) ∧
  (¬ usesCandidate d s i e → tok = .lit (chunkByte d i))

/-- WINDOW holds the last HIST bytes of a stream (10_state R35): for every k in 1..HIST, byte
`(TOTAL_IN - k) mod 32768` is the k-th most recent byte. The stream is held latest byte first. -/
def windowHolds (s : State) (stream : List Byte) : Prop :=
  s.hist.toNat ≤ wsize ∧
  ∀ k : Nat, 1 ≤ k → k ≤ s.hist.toNat →
    stream[k - 1]? = some (winRead s.window (((s.totalIn.toNat : Int) - (k : Int)) % (wsize : Int)).toNat)

/-! Invariants. -/

/-- An arrival that a host can make: any but an output element handed to the packer alone (log 4). -/
def Arrival.fromHost : Arrival → Bool
  | .issue (.request _) => true
  | .issue (.element _) => false
  | .issueDisturbed _ _ => true
  | .reset => true
  | .resetDuring _ => true

/-- An arrival in which the host keeps its duties (70_reset R351, R353). -/
def Arrival.dutiful : Arrival → Bool
  | .issue (.request _) => true
  | .issue (.element _) => false
  | .issueDisturbed _ _ => false
  | .reset => true
  | .resetDuring _ => true

/-- Every V bit of HASH is 0. -/
def hashInvalid (hash : Memory HashEntry) : Prop := ∀ h : Nat, (hashRead hash h).v = false

/-- The registers of a stream that nothing has been packed for yet (10_state R43). -/
structure FreshStream (s : State) : Prop where
  cksum   : s.cksum = checksumSeed s.format
  totalIn : s.totalIn = 0
  acc     : s.acc = 0
  cnt     : s.cnt = 0
  hist    : s.hist = 0
  hash    : hashInvalid s.hash

/-- What every step keeps, whatever the host does. -/
structure Inv (s : State) : Prop where
  /-- The memories are canonical and within their sizes (10_state R35, R36). -/
  outWf       : s.out.wf = true
  windowWf    : s.window.wf = true
  windowBelow : s.window.below wsize = true
  hashWf      : s.hash.wf = true
  hashBelow   : s.hash.below hashSize = true
  /-- HIST is at most 32768 (10_state R31), and short of that it counts the same bytes as TOTAL_IN. -/
  histLe      : s.hist.toNat ≤ wsize
  histTotal   : s.hist.toNat = wsize ∨ s.hist.toNat = s.totalIn.toNat
  /-- ACC's bits at and above CNT are 0 (10_state R29, 42_bit_packer R217). -/
  accSettled  : s.acc.toNat < 2 ^ s.cnt.toNat
  /-- The reset column of 10_state R43 holds as long as STATE is UNINIT. -/
  uninit      : s.phase = .uninit → s.level = 0 ∧ s.format = .raw ∧ FreshStream s
  /-- The INIT column holds as long as STATE is IDLE. -/
  idle        : s.phase = .idle → FreshStream s
  /-- After FINISH no bit is pending (44_framer R276). -/
  closed      : s.phase = .closed → s.acc = 0 ∧ s.cnt = 0
  /-- LAST_CAUSE holds no code but 0 to 4 (60_exceptions R300). -/
  causeLe     : s.lastCause.toNat ≤ 4
  /-- With no fault since reset the fault registers are 0 (10_state R33, R34). -/
  noFault     : s.lastCause = 0 → s.fault = 0 ∧ s.faultCmd = 0
  /-- The FAULT bit of the last cause is set (60_exceptions R302, R312). -/
  lastLatched : s.lastCause ≠ 0 → s.fault.getLsbD (s.lastCause.toNat - 1) = true
  /-- No output element has run alone, since no host can make one (log 4, log 15). -/
  noElement   : s.elementBytes = 0 ∧ s.elementLen = 0
  /-- Nothing waits at the port but what a host can send. -/
  fromHost    : s.inbox.all Arrival.fromHost = true

/-- Both Adler32 sums are reduced where FORMAT is zlib (10_state R27, 43_checksums R257). -/
def AdlerReduced (s : State) : Prop := s.format = .zlib → adlerS1 s.cksum < adlerMod ∧ adlerS2 s.cksum < adlerMod

end Sys2Proof.Machine
end

