-- ==== Sys2Proof/Certificates/Slice0/Obligations.lean ====
section
/-! DEFINITION. The statements for the provers. `s` is the state before, `t` the state after. -/

open Sys2Proof Sys2Proof.Machine

/-! Encodings (30_encoding). -/

/-- Decoding the encoding of a well-formed instruction gives it back, for all 22 rows of the opcode table, with every
operand at every value the encoding admits (30_encoding R91 to R98, R111 to R118). -/
def Obligations.DecodeOfEncodeIsTheInstruction : Prop :=
  ∀ i : Instr, i.wellFormed = true → decode (encode i) = .ok i

/-- What decodes to an instruction is that instruction's own encoding, and the instruction is well-formed: no bit of a
command word, no operand, no extra bit is dropped. -/
def Obligations.EncodeOfDecodeIsTheEncoding : Prop :=
  ∀ (x : Encoding) (i : Instr), decode x = .ok i → i.wellFormed = true ∧ encode i = x

/-- The opcode alone settles what a record holds beside its command word: two operand words and LEN bytes for ENCODE,
one operand word for FINISH, nothing for every other opcode, reserved ones included; such a record is a command, so that
every command word is some command (30_encoding R91, R98). That a record which holds anything else is none is the model's
choice: the spec says nothing of such a record (log 3). -/
def Obligations.OpcodeAloneSettlesTheRecord : Prop :=
  ∀ r : Request,
    (∃ i, decodeRequest r = .ok i) ↔
      (if r.cw.extractLsb' 0 4 = 0x3#4 then
        ∃ len cap : Word, r.operands = [len, cap] ∧ r.input.length = len.toNat
      else if r.cw.extractLsb' 0 4 = 0x4#4 then r.operands.length = 1 ∧ r.input = []
      else r.operands = [] ∧ r.input = [])

/-- The words the assembler of 30_encoding R101 gives each command decode to that command, fields as written. -/
def Obligations.AssembledWordsDecode : Prop :=
  decode (.request ⟨0x1#32, [], []⟩) = .ok (.tblinit 0) ∧
  (∀ (en : BitVec 1) (fmt : BitVec 2),
    decode (.request ⟨0x2#32 ||| (en.setWidth 32 <<< 4) ||| (fmt.setWidth 32 <<< 5), [], []⟩) = .ok (.init en fmt 0)) ∧
  (∀ (more : BitVec 1) (len cap : Word) (data : List Byte), data.length = len.toNat →
    decode (.request ⟨0x3#32 ||| (more.setWidth 32 <<< 4), [len, cap], data⟩) = .ok (.encode more 0 cap data)) ∧
  (∀ cap : Word, decode (.request ⟨0x4#32, [cap], []⟩) = .ok (.finish 0 cap)) ∧
  (∀ reg : BitVec 4, decode (.request ⟨0x5#32 ||| (reg.setWidth 32 <<< 8), [], []⟩) = .ok (.rdreg 0 reg 0))

/-- Words written out from the opcode table, a row of each family, decode to the instructions they stand for. That the
number of bits tells which row a word belongs to, and that operand words and extra bits are all zero, is the model's
choice (log 5). -/
def Obligations.OpcodeTableWordsDecode : Prop :=
  decodeTableWord 32 0x00000001 = some (.tblinit 0) ∧
  decodeTableWord 32 0x00000052 = some (.init 1 2 0) ∧
  decodeTableWord 32 0x00000013 = some (.encode 1 0 0 []) ∧
  decodeTableWord 32 0x00000004 = some (.finish 0 0) ∧
  decodeTableWord 32 0x00000405 = some (.rdreg 0 4 0) ∧
  decodeTableWord 32 0x00000000 = some (.reservedOp0 0) ∧
  decodeTableWord 32 0x00000007 = some (.reservedOp67 1 0) ∧
  decodeTableWord 32 0x0000000D = some (.reservedOp8F 5 0) ∧
  decodeTableWord 8 0b00111010 = some (.lit000F 0b1010) ∧
  decodeTableWord 8 0b10010001 = some (.lit508F 0b010001) ∧
  decodeTableWord 9 0b111111111 = some (.litC0FF 0b111111) ∧
  decodeTableWord 7 0b0000000 = some .eob ∧
  decodeTableWord 7 0b0000111 = some (.len257271 7 0) ∧
  decodeTableWord 8 0b11000101 = some (.len280285 5 0) ∧
  decodeTableWord 5 0b11101 = some (.dist 29 0) ∧
  decodeTableWord 3 0b110 = some .blkFinalHdr

/-- The row of a literal byte carries the fixed code of its symbol, of 8 bits up to 143 and of 9 from 144 (30_encoding
R107, R111). The row of a length carries the code of symbol 257 + k, the row of a distance the 5-bit code j, and base
plus extra bits give the length and the distance back (R108, R113 to R116); none is one that R118 forbids. -/
def Obligations.TokenRowsCarryTheFixedCodes : Prop :=
  (∀ b : Byte, encode (literalRow b) =
    .element ⟨.symbol, if b.toNat ≤ 143 then ⟨8, 0x30 + b.toNat⟩ else ⟨9, 0x190 + (b.toNat - 144)⟩, ⟨0, 0⟩, []⟩) ∧
  (∀ len : Nat, 3 ≤ len → len ≤ 258 → ∃ k extra : Nat, k ≤ 28 ∧ (lengthRow len).wellFormed = true ∧
    encode (lengthRow len) =
      .element ⟨.symbol, ⟨huffLen (257 + k), huffCode (257 + k)⟩, ⟨lenExtra k, extra⟩, []⟩ ∧
    lenBase k + extra = len ∧ extra < 2 ^ lenExtra k ∧ ¬ (k = 27 ∧ extra = 31)) ∧
  (∀ d : Nat, 1 ≤ d → d ≤ 32768 → ∃ j extra : Nat, j ≤ 29 ∧ (distanceRow d).wellFormed = true ∧
    encode (distanceRow d) = .element ⟨.distance, ⟨5, j⟩, ⟨distExtra j, extra⟩, []⟩ ∧
    distBase j + extra = d ∧ extra < 2 ^ distExtra j)

/-- No fixed literal/length code begins with another one, so a decoder reading most significant bit first can tell where a
code ends (30_encoding R110, R111). -/
def Obligations.FixedCodesArePrefixFree : Prop :=
  ∀ a b : Nat, a ≤ 287 → b ≤ 287 → huffLen a ≤ huffLen b →
    huffCode b / 2 ^ (huffLen b - huffLen a) = huffCode a → a = b

/-- PutHuff packs a symbol's code most significant bit first, after the bits packed before (42_bit_packer R214). -/
def Obligations.PutHuffPacksTheCodeMsbFirst : Prop :=
  ∀ (sym : Nat) (p : Packer), sym ≤ 287 → p.settled →
    packedBits (putHuff sym p) = packedBits p ++ msbBits (huffLen sym) (huffCode sym) ∧ (putHuff sym p).settled

/-! Reset, waiting, and the step. -/

/-- The reset column of 10_state R43. That no bytes of WINDOW or HASH are known, that nothing waits and no response was
sent, and the model's own fields, are choices of the model (log 1, 6, 7, 9, 10, 11, 14). -/
def Obligations.ResetColumn : Prop :=
  State.reset.phase.bits = 0 ∧ State.reset.level = 0 ∧ State.reset.format.bits = 0 ∧
  State.reset.cksum = 0xFFFFFFFF ∧ State.reset.totalIn = 0 ∧ State.reset.acc = 0 ∧ State.reset.cnt = 0 ∧
  State.reset.hist = 0 ∧ State.reset.fault = 0 ∧ State.reset.lastCause = 0 ∧ State.reset.faultCmd = 0 ∧
  (∀ h : Nat, (hashRead State.reset.hash h).v = false)

/-- The state after reset meets the invariant. -/
def Obligations.ResetMeetsTheInvariant : Prop := Inv State.reset

/-- Every step, of whatever a host can send (commands, disturbed commands, resets), keeps the invariant: canonical
memories within their sizes, HIST at most 32768 and in step with TOTAL_IN, ACC zero above CNT, a fresh stream as long as
STATE is UNINIT or IDLE, no pending bit in CLOSED, coherent fault registers (10_state R26 to R36, R43; 42_bit_packer
R217; 44_framer R276; 60_exceptions R300, R312).
The form of the port and that a memory lists only what was written are the model's choices (log 1, 6, 7, 10). -/
def Obligations.StepKeepsTheInvariant : Prop :=
  ∀ s t : State, Inv s → step s = .next t → Inv t

/-- Both Adler32 sums stay in 0..65520 over every step but one whose buffers the host disturbs (10_state R27,
43_checksums R257). -/
def Obligations.AdlerSumsStayReduced : Prop :=
  ∀ s t : State, AdlerReduced s → (∀ d r rest, s.inbox ≠ .issueDisturbed d r :: rest) → step s = .next t → AdlerReduced t

/-- Reset takes the block to the reset column from any state (70_reset R340). OUT, the requests not yet issued,
MATCH_POLICY and the free-value counter are not the block's registers and stay (log 13). -/
def Obligations.ResetAppliesFromAnyState : Prop :=
  ∀ (s : State) (rest : List Arrival), s.inbox = .reset :: rest →
    step s = .next { State.reset with inbox := rest, out := s.out, policy := s.policy, freeCtr := s.freeCtr }

/-- Reset while a command executes, whichever it is (70_reset R341): no response, the registers as after reset; of the OUT
supplied with an ENCODE or FINISH no byte is known; TBLINIT, INIT, RDREG and the reserved commands have no OUT, so the
last one stays. That a byte of unspecified value is one without a known value is the model's choice (log 13). -/
def Obligations.ResetDuringACommand : Prop :=
  ∀ (s : State) (r : Request) (i : Instr) (rest : List Arrival), s.inbox = .resetDuring r :: rest →
    decodeRequest r = .ok i →
    ∃ t, step s = .next t ∧
      t = { State.reset with
        inbox := rest, out := t.out, policy := s.policy, freeCtr := s.freeCtr } ∧
      t.response = none ∧
      ∀ a : Nat, t.out.read a =
        (match i with
          | .encode _ _ _ _ => none
          | .finish _ _ => none
          | _ => s.out.read a)

/-- With nothing at the port the block holds its state (60_exceptions R320). That waiting is a step is the model's choice
(log 23). -/
def Obligations.WaitingHoldsTheState : Prop := ∀ s : State, s.inbox = [] → step s = .next s

/-- A step runs the instruction that waits first at the port, on the state from which it has been taken, and for ENCODE and
FINISH with the OUT that the host supplies afresh, in which nothing has been written (20_memory R60). The list of
arrivals is the model's choice (log 1); that an output element can stand in it is so too, since 30_encoding R90 gives the
block no port for one (log 4); that nothing is known of a fresh OUT is log 10. -/
def Obligations.StepRunsTheDecodedInstruction : Prop :=
  ∀ (s : State) (x : Encoding) (i : Instr) (rest : List Arrival),
    s.inbox = .issue x :: rest → decode x = .ok i →
    step s = exec i { s with
      inbox := rest
      out := (match i with
        | .encode _ _ _ _ => []
        | .finish _ _ => []
        | _ => s.out) }

/-- What waits first at the port and is no instruction stops the step under its name. That it stops is the model's choice: the
spec gives such a record no meaning (log 3). -/
def Obligations.MalformedArrivalsStopByName : Prop :=
  ∀ (s : State) (x : Encoding) (e : DecodeError) (rest : List Arrival),
    s.inbox = .issue x :: rest → decode x = .rejected e → step s = .fault (.malformedRequest e)

/-! Faults (60_exceptions). -/

/-- The three reserved rows, RESERVED_OP_0, RESERVED_OP_6_7 and RESERVED_OP_8_F, complete in every state, with every value of
their other bits, by their own effect, the fault entry: FAULT bit 0, LAST_CAUSE 1, the whole word in FAULTCMD, the response;
nothing else changes (30_encoding R98, 60_exceptions R302, R304). -/
def Obligations.ReservedRowsComplete : Prop :=
  ∀ s : State,
    (∀ rest : BitVec 28, exec (.reservedOp0 rest) s = .next { s with
      fault := s.fault ||| 0x1#4, lastCause := 1, faultCmd := rest.setWidth 32 <<< 4, response := some ⟨false, 1, 0⟩ }) ∧
    (∀ (low : BitVec 1) (rest : BitVec 28), exec (.reservedOp67 low rest) s = .next { s with
      fault := s.fault ||| 0x1#4, lastCause := 1,
      faultCmd := (rest.setWidth 32 <<< 4) ||| 0x6#32 ||| low.setWidth 32, response := some ⟨false, 1, 0⟩ }) ∧
    (∀ (low : BitVec 3) (rest : BitVec 28), exec (.reservedOp8F low rest) s = .next { s with
      fault := s.fault ||| 0x1#4, lastCause := 1,
      faultCmd := (rest.setWidth 32 <<< 4) ||| 0x8#32 ||| low.setWidth 32, response := some ⟨false, 1, 0⟩ })

/-- The reserved opcodes 0x0 and 0x6 to 0xF: the record of the bare word is a command (no operand words), and running it
faults ILLEGAL with the whole word in FAULTCMD, in every state (30_encoding R98, 60_exceptions R302, R304). That a record
which adds operand words is rejected is the model's choice: the spec says nothing of such a record (log 3). -/
def Obligations.ReservedOpcodesFaultIllegal : Prop :=
  ∀ (cw : Word) (s : State), (cw.extractLsb' 0 4 = 0x0#4 ∨ 0x6#4 ≤ cw.extractLsb' 0 4) →
    (∃ i, decodeRequest ⟨cw, [], []⟩ = .ok i ∧
      exec i s = .next { s with
        fault := s.fault ||| 0x1#4, lastCause := 1, faultCmd := cw, response := some ⟨false, 1, 0⟩ }) ∧
    ∀ (w : Word) (ws : List Word) (d : List Byte), decodeRequest ⟨cw, w :: ws, d⟩ = .rejected .operandCount

/-- A command word with opcode 0x1 to 0x5 whose bits under its row's mask differ from the row's match value faults ILLEGAL,
in every state and whatever its operands (30_encoding R97). The mask and match values are those of the opcode table. -/
def Obligations.ReservedBitsFaultIllegal : Prop :=
  ∀ (r : Request) (i : Instr) (s : State), decodeRequest r = .ok i →
    ((r.cw.extractLsb' 0 4 = 0x1#4 ∧ r.cw &&& 0xFFFFFFFF#32 ≠ 0x00000001#32) ∨
      (r.cw.extractLsb' 0 4 = 0x2#4 ∧ r.cw &&& 0xFFFFFF8F#32 ≠ 0x00000002#32) ∨
      (r.cw.extractLsb' 0 4 = 0x3#4 ∧ r.cw &&& 0xFFFFFFEF#32 ≠ 0x00000003#32) ∨
      (r.cw.extractLsb' 0 4 = 0x4#4 ∧ r.cw &&& 0xFFFFFFFF#32 ≠ 0x00000004#32) ∨
      (r.cw.extractLsb' 0 4 = 0x5#4 ∧ r.cw &&& 0xFFFFF0FF#32 ≠ 0x00000005#32)) →
    exec i s = .next { s with
      fault := s.fault ||| 0x1#4, lastCause := 1, faultCmd := r.cw, response := some ⟨false, 1, 0⟩ }

/-- INIT with FMT = 3 faults BAD_FORMAT in every state; its word is 0x62 or, with EN, 0x72 (60_exceptions R306). -/
def Obligations.InitOfFormatThreeFaultsBadFormat : Prop :=
  ∀ (en : BitVec 1) (s : State),
    exec (.init en 3 0) s = .next { s with
      fault := s.fault ||| 0x2#4, lastCause := 2, faultCmd := 0x62#32 ||| (en.setWidth 32 <<< 4),
      response := some ⟨false, 2, 0⟩ }

/-- ENCODE and FINISH in STATE UNINIT or CLOSED fault USAGE, whatever LEN and CAP (60_exceptions R307). -/
def Obligations.EncodeAndFinishWithoutAStreamFaultUsage : Prop :=
  ∀ s : State, (s.phase = .uninit ∨ s.phase = .closed) →
    (∀ (more : BitVec 1) (cap : Word) (data : List Byte),
      exec (.encode more 0 cap data) s = .next { s with
        fault := s.fault ||| 0x4#4, lastCause := 3, faultCmd := 0x3#32 ||| (more.setWidth 32 <<< 4),
        response := some ⟨false, 3, 0⟩ }) ∧
    (∀ cap : Word,
      exec (.finish 0 cap) s = .next { s with
        fault := s.fault ||| 0x4#4, lastCause := 3, faultCmd := 0x4#32, response := some ⟨false, 3, 0⟩ })

/-- ENCODE with WORST_ENC(LEN) > CAP and FINISH with WORST_FIN > CAP fault OUT_CAPACITY in STATE IDLE and ACTIVE
(60_exceptions R308). -/
def Obligations.TooSmallCapacityFaultsOutCapacity : Prop :=
  ∀ s : State, (s.phase = .idle ∨ s.phase = .active) →
    (∀ (more : BitVec 1) (cap : Word) (data : List Byte), cap.toNat < worstEnc s data.length →
      exec (.encode more 0 cap data) s = .next { s with
        fault := s.fault ||| 0x8#4, lastCause := 4, faultCmd := 0x3#32 ||| (more.setWidth 32 <<< 4),
        response := some ⟨false, 4, 0⟩ }) ∧
    (∀ cap : Word, cap.toNat < worstFin s →
      exec (.finish 0 cap) s = .next { s with
        fault := s.fault ||| 0x8#4, lastCause := 4, faultCmd := 0x4#32, response := some ⟨false, 4, 0⟩ })

/-- The worst-case bounds (42_bit_packer R232), with HDR_LEN and TRL_LEN of 30_encoding R124 written out. -/
def Obligations.WorstCaseBounds : Prop :=
  ∀ (s : State) (n : Nat),
    let hdr := match s.phase, s.format with
      | .idle, .zlib => 2
      | .idle, .gzip => 10
      | _, _ => 0
    let trl := match s.format with
      | .raw => 0
      | .zlib => 4
      | .gzip => 8
    worstEnc s n = hdr + (if n = 0 then 0 else n + 5 * ((n + 65534) / 65535) + 1) ∧ worstFin s = hdr + 3 + trl

/-- Where several fault conditions hold, the first of ILLEGAL, BAD_FORMAT, USAGE, OUT_CAPACITY is the one reported, and only
its FAULT bit is set (60_exceptions R310). -/
def Obligations.FaultPriority : Prop :=
  ∀ s : State,
    (∀ (en : BitVec 1) (rsvd : BitVec 25), rsvd ≠ 0 → ∃ t, exec (.init en 3 rsvd) s = .next t ∧
      t.lastCause = 1 ∧ t.fault = s.fault ||| 0x1#4) ∧
    (∀ (more : BitVec 1) (rsvd : BitVec 27) (cap : Word) (data : List Byte), rsvd ≠ 0 →
      ∃ t, exec (.encode more rsvd cap data) s = .next t ∧ t.lastCause = 1 ∧ t.fault = s.fault ||| 0x1#4) ∧
    (∀ (rsvd : BitVec 28) (cap : Word), rsvd ≠ 0 →
      ∃ t, exec (.finish rsvd cap) s = .next t ∧ t.lastCause = 1 ∧ t.fault = s.fault ||| 0x1#4) ∧
    ((s.phase = .uninit ∨ s.phase = .closed) →
      (∀ (more : BitVec 1) (cap : Word) (data : List Byte), cap.toNat < worstEnc s data.length →
        ∃ t, exec (.encode more 0 cap data) s = .next t ∧ t.lastCause = 3 ∧ t.fault = s.fault ||| 0x4#4) ∧
      (∀ cap : Word, cap.toNat < worstFin s →
        ∃ t, exec (.finish 0 cap) s = .next t ∧ t.lastCause = 3 ∧ t.fault = s.fault ||| 0x4#4))

/-- A command always answers, either OK with CAUSE 0 and the fault registers as they were, or with a cause code of 1 to 4
and RESULT 0; and then nothing but FAULT (that cause's bit), LAST_CAUSE, FAULTCMD (the command word) and the response
has changed (60_exceptions R302, R303, R311; 30_encoding R100). -/
def Obligations.CommandsAnswerAndFaultsChangeNothingElse : Prop :=
  ∀ (i : Instr) (s : State), i.isCommand = true →
    ∃ (t : State) (ok : Bool) (cause : BitVec 4) (result : Word),
      exec i s = .next t ∧ t.response = some ⟨ok, cause, result⟩ ∧
      (ok = true → cause = 0 ∧ t.fault = s.fault ∧ t.lastCause = s.lastCause ∧ t.faultCmd = s.faultCmd) ∧
      (ok = false → 1 ≤ cause.toNat ∧ cause.toNat ≤ 4 ∧ result = 0 ∧
        t = { s with
          fault := s.fault ||| (1#4 <<< (cause.toNat - 1)), lastCause := cause, faultCmd := i.commandWord,
          response := some ⟨false, cause, 0⟩ })

/-- FAULT bits are sticky: a step that is no reset clears none (10_state R32, 60_exceptions R311). -/
def Obligations.FaultBitsAreSticky : Prop :=
  ∀ s t : State, step s = .next t → (∀ rest, s.inbox ≠ .reset :: rest) →
    (∀ r rest, s.inbox ≠ .resetDuring r :: rest) → s.fault &&& t.fault = s.fault

/-- LAST_CAUSE and FAULTCMD are written only by a faulting command, with its cause and its word, and by reset, which
writes 0 (10_state R33, R34). The arrivals by which a request or a reset comes are the model's (log 1, 12, 13). -/
def Obligations.OnlyFaultsAndResetWriteLastCause : Prop :=
  ∀ s t : State, step s = .next t → (t.lastCause ≠ s.lastCause ∨ t.faultCmd ≠ s.faultCmd) →
    (t.response = some ⟨false, t.lastCause, 0⟩ ∧ 1 ≤ t.lastCause.toNat ∧ t.lastCause.toNat ≤ 4 ∧
      ∃ r rest, (s.inbox = .issue (.request r) :: rest ∨ ∃ d, s.inbox = .issueDisturbed d r :: rest) ∧
        t.faultCmd = r.cw) ∨
    (t.lastCause = 0 ∧ t.faultCmd = 0 ∧
      ∃ rest, s.inbox = .reset :: rest ∨ ∃ r, s.inbox = .resetDuring r :: rest)

/-- Faults depend only on the command word, STATE, FORMAT, LEN and CAP: two chunks of one length, in two states that agree
on STATE and FORMAT, are answered with the same OK and CAUSE, and so is every other command (60_exceptions R301). -/
def Obligations.FaultsDependOnlyOnWordStateFormatLenCap : Prop :=
  ∀ s u : State, s.phase = u.phase → s.format = u.format →
    (∀ (more : BitVec 1) (rsvd : BitVec 27) (cap : Word) (data data' : List Byte), data.length = data'.length →
      ∃ t v r r', exec (.encode more rsvd cap data) s = .next t ∧ exec (.encode more rsvd cap data') u = .next v ∧
        t.response = some r ∧ v.response = some r' ∧ r.ok = r'.ok ∧ r.cause = r'.cause) ∧
    (∀ i : Instr, i.isCommand = true → ∃ t v r r', exec i s = .next t ∧ exec i u = .next v ∧
      t.response = some r ∧ v.response = some r' ∧ r.ok = r'.ok ∧ r.cause = r'.cause)

/-- No instruction but RDREG reads FAULT, LAST_CAUSE or FAULTCMD: with other values in them it leaves the same state in all
other fields (10_state R40). -/
def Obligations.OnlyRdregReadsTheFaultRegisters : Prop :=
  ∀ (i : Instr) (s t : State) (f l : BitVec 4) (w : Word), (∀ a b c, i ≠ .rdreg a b c) → exec i s = .next t →
    ∃ t', exec i { s with fault := f, lastCause := l, faultCmd := w } = .next t' ∧
      { t' with fault := 0, lastCause := 0, faultCmd := 0 } = { t with fault := 0, lastCause := 0, faultCmd := 0 }

/-! The commands (40_commands). -/

/-- TBLINIT: its word is 0x00000001, with no operands; it responds 0 and nothing else happens, in every state; with a bit of
CW[31:4] set it faults ILLEGAL (40_commands R140). -/
def Obligations.TblinitHasNoEffect : Prop :=
  encode (.tblinit 0) = .request ⟨0x00000001#32, [], []⟩ ∧
  ∀ s : State,
    exec (.tblinit 0) s = .next { s with response := some ⟨true, 0, 0⟩ } ∧
    ∀ rsvd : BitVec 28, rsvd ≠ 0 → exec (.tblinit rsvd) s = .next { s with
      fault := s.fault ||| 0x1#4, lastCause := 1, faultCmd := (rsvd.setWidth 32 <<< 4) ||| 0x1#32,
      response := some ⟨false, 1, 0⟩ }

/-- INIT of a format starts a stream from every state: the INIT column of 10_state R43, every HASH V bit 0 and its P field
unchanged where it is known, everything else as it was (40_commands R143).
That P stays is deduced (log 7); the count of elements run alone, which INIT clears, is the model's (log 15). -/
def Obligations.InitStartsAStream : Prop :=
  ∀ (en : BitVec 1) (s : State) (fmt : BitVec 2) (format : Format),
    (fmt = 0 ∧ format = .raw ∨ fmt = 1 ∧ format = .zlib ∨ fmt = 2 ∧ format = .gzip) →
    ∃ t, exec (.init en fmt 0) s = .next t ∧
      t = { s with
        phase := .idle, level := en, format := format,
        cksum := if fmt = 1 then 0x00000001#32 else 0xFFFFFFFF#32,
        totalIn := 0, acc := 0, cnt := 0, hist := 0, hash := t.hash, response := some ⟨true, 0, 0⟩,
        elementBytes := 0, elementLen := 0 } ∧
      ∀ h : Nat, (hashRead t.hash h).v = false ∧ (hashRead t.hash h).p = (hashRead s.hash h).p

/-- ENCODE completes in STATE IDLE and ACTIVE where WORST_ENC(LEN) is at most CAP, at both LEVELs, under both policies and
for every chunk. The registers are as 40_commands R146 says, and LEVEL, FORMAT and the fault registers are as they
were; with LEN = 0 so are CKSUM, TOTAL_IN, HIST, WINDOW, HASH, ACC and CNT; at LEVEL 0 HASH is as it was. RESULT is the
number of bytes written (the output cursor). The cursor and the free-value counter are the model's
(log 9, 11). -/
def Obligations.EncodeCompletes : Prop :=
  ∀ (more : BitVec 1) (cap : Word) (data : List Byte) (s : State), (s.phase = .idle ∨ s.phase = .active) →
    worstEnc s data.length ≤ cap.toNat →
    ∃ t, exec (.encode more 0 cap data) s = .next t ∧
      t = { s with
        phase := .active, cksum := t.cksum, totalIn := t.totalIn, acc := t.acc, cnt := t.cnt, hist := t.hist,
        window := t.window, hash := t.hash, out := t.out, cursor := t.cursor, freeCtr := t.freeCtr,
        response := some ⟨true, 0, BitVec.ofNat 32 t.cursor⟩ } ∧
      t.cksum = data.foldl (fun c b => if s.format = .zlib then adlerUpdate c b else crcUpdate c b) s.cksum ∧
      t.totalIn = s.totalIn + BitVec.ofNat 32 data.length ∧
      (data ≠ [] → t.hist.toNat = min 32768 (s.hist.toNat + data.length)) ∧
      (data = [] → t.hist = s.hist ∧ t.window = s.window ∧ t.hash = s.hash ∧ t.acc = s.acc ∧ t.cnt = s.cnt) ∧
      (s.level = 0 → t.hash = s.hash)

/-- ENCODE of no bytes emits the header in STATE IDLE and nothing in STATE ACTIVE, no block in either (40_commands R147,
R148; 42_bit_packer R231). The output cursor is the model's (log 11), and what else OUT holds is the host's (log 10). -/
def Obligations.EncodeOfNothingEmitsAtMostTheHeader : Prop :=
  ∀ (more : BitVec 1) (cap : Word) (s : State),
    (s.phase = .active → exec (.encode more 0 cap []) s =
      .next { s with cursor := 0, response := some ⟨true, 0, 0⟩ }) ∧
    (s.phase = .idle → worstEnc s 0 ≤ cap.toNat →
      ∃ t header, exec (.encode more 0 cap []) s = .next t ∧
        header = (match s.format with
          | .raw => ([] : List Byte)
          | .zlib => [0x78, 0x01]
          | .gzip => [0x1F, 0x8B, 0x08, 0x00, 0x00, 0x00, 0x00, 0x00, 0x04, 0xFF]) ∧
        t = { s with
          phase := .active, out := t.out, cursor := header.length,
          response := some ⟨true, 0, BitVec.ofNat 32 header.length⟩ } ∧
        holdsAt t.out 0 header ∧ ∀ a : Nat, header.length ≤ a → t.out.read a = s.out.read a)

/-- MORE has no effect: an ENCODE with the other value of MORE leaves the same state, but for the command word that a
fault records (30_encoding R96). -/
def Obligations.MoreHasNoEffect : Prop :=
  ∀ (more more' : BitVec 1) (rsvd : BitVec 27) (cap : Word) (data : List Byte) (s t : State),
    exec (.encode more rsvd cap data) s = .next t →
    exec (.encode more' rsvd cap data) s =
      .next (if t.response = some ⟨true, 0, BitVec.ofNat 32 t.cursor⟩ then t
        else { t with faultCmd := (Instr.encode more' rsvd cap data).commandWord })

/-- A command that completes never writes OUT at or above RESULT, and RESULT is at most the worst case it checked against
CAP (40_commands R157, 42_bit_packer R233, 20_memory R61). The cursor is the model's (log 11), and what else OUT holds is
the host's (log 10). -/
def Obligations.ResultStaysWithinTheWorstCase : Prop :=
  (∀ (more : BitVec 1) (rsvd : BitVec 27) (cap : Word) (data : List Byte) (s t : State) (result : Word),
    exec (.encode more rsvd cap data) s = .next t → t.response = some ⟨true, 0, result⟩ →
    result.toNat = t.cursor ∧ result.toNat ≤ worstEnc s data.length ∧ worstEnc s data.length ≤ cap.toNat ∧
      ∀ a : Nat, result.toNat ≤ a → t.out.read a = s.out.read a) ∧
  (∀ (rsvd : BitVec 28) (cap : Word) (s t : State) (result : Word),
    exec (.finish rsvd cap) s = .next t → t.response = some ⟨true, 0, result⟩ →
    result.toNat = t.cursor ∧ result.toNat ≤ worstFin s ∧ worstFin s ≤ cap.toNat ∧
      ∀ a : Nat, result.toNat ≤ a → t.out.read a = s.out.read a)

/-- At LEVEL 0 a chunk of any length leaves in IDLE and ACTIVE as stored blocks, after the header in IDLE: the pending bits,
the header 000 and the padding, LEN and NLEN least significant byte first, the bytes unchanged, and a block for every
65535 bytes; no bit is pending afterwards and HASH is as it was (30_encoding R103, R117; 40_commands R146, R147;
41_match_finder R193; 42_bit_packer R224, R226). What else OUT holds is the host's (log 10). -/
def Obligations.LevelZeroStoresTheChunk : Prop :=
  ∀ (more : BitVec 1) (cap : Word) (data : List Byte) (s : State), (s.phase = .idle ∨ s.phase = .active) →
    s.level = 0 → data ≠ [] → worstEnc s data.length ≤ cap.toNat →
    ∃ t bytes, exec (.encode more 0 cap data) s = .next t ∧ isStoredChunk s data bytes ∧
      t.response = some ⟨true, 0, BitVec.ofNat 32 (writtenHeader s ++ bytes).length⟩ ∧
      t.acc = 0 ∧ t.cnt = 0 ∧ t.hash = s.hash ∧ holdsAt t.out 0 (writtenHeader s ++ bytes) ∧
      ∀ a : Nat, (writtenHeader s ++ bytes).length ≤ a → t.out.read a = s.out.read a

/-- At LEVEL 1 a chunk whose stored blocks are cheaper than its fixed block leaves as stored blocks, byte for byte as at
LEVEL 0, under both policies; WINDOW, the checksum and the lengths do not depend on the choice (42_bit_packer R224, R226,
R229; 40_commands R146, R147). What else OUT holds is the host's (log 10). -/
def Obligations.LevelOneStoresTheChunkWhereCheaper : Prop :=
  ∀ (more : BitVec 1) (cap : Word) (data : List Byte) (s : State), (s.phase = .idle ∨ s.phase = .active) →
    s.level = 1 → data ≠ [] → worstEnc s data.length ≤ cap.toNat →
    storedBits data.length s.cnt.toNat < fixedBits (chooseTokens data s).1 →
    ∃ t bytes, exec (.encode more 0 cap data) s = .next t ∧ isStoredChunk s data bytes ∧
      t.response = some ⟨true, 0, BitVec.ofNat 32 (writtenHeader s ++ bytes).length⟩ ∧
      t.acc = 0 ∧ t.cnt = 0 ∧ t.hash = (chooseTokens data s).2.1 ∧
      holdsAt t.out 0 (writtenHeader s ++ bytes) ∧
      (∀ a : Nat, (writtenHeader s ++ bytes).length ≤ a → t.out.read a = s.out.read a) ∧
      ∃ u, exec (.encode more 0 cap data) { s with level := 0 } = .next u ∧
        t.cksum = u.cksum ∧ t.totalIn = u.totalIn ∧ t.hist = u.hist ∧ t.window = u.window ∧ t.out = u.out

/-- EmitStored cuts a chunk of n bytes into ceil_div(n, 65535) stored blocks and emits them in order: all but the last hold
exactly 65535 bytes, the last 1 to 65535 (42_bit_packer R226). -/
def Obligations.StoredBlocksSplitTheChunk : Prop :=
  ∀ d : List Byte, d ≠ [] →
    (∀ p : Packer, emitStored d p = (storedPieces d.length d).foldl (fun q e => emitStoredBlock e q) p) ∧
    (storedPieces d.length d).flatten = d ∧
    (storedPieces d.length d).length = ceilDiv d.length 65535 ∧
    (∀ e ∈ storedPieces d.length d, 1 ≤ e.length ∧ e.length ≤ 65535) ∧
    (∀ e ∈ (storedPieces d.length d).dropLast, e.length = 65535)

/-- What a block adds (42_bit_packer R230): EmitFixed from C = c leaves C = (c + FixedBits(T)) mod 8 and
floor((c + FixedBits(T)) / 8) bytes; EmitStored leaves C = 0 and (c + StoredBits(n, c)) / 8 =
ceil_div(c + 3, 8) + 5k - 1 + n bytes. -/
def Obligations.BlocksPackTheirBitCounts : Prop :=
  (∀ (ts : List Token) (p : Packer), p.c < 8 →
    (emitFixed ts p).c = (p.c + fixedBits ts) % 8 ∧
    (emitFixed ts p).emitted.length = p.emitted.length + (p.c + fixedBits ts) / 8) ∧
  (∀ (d : List Byte) (p : Packer), p.c < 8 → 1 ≤ d.length →
    (emitStored d p).c = 0 ∧
    (emitStored d p).emitted.length = p.emitted.length + (p.c + storedBits d.length p.c) / 8 ∧
    (p.c + storedBits d.length p.c) / 8 = ceilDiv (p.c + 3) 8 + 5 * ceilDiv d.length 65535 - 1 + d.length)

/-- ENCODE of a chunk adds StoredBits(n, CNT) bits at LEVEL 0 and, at LEVEL 1, the lesser of FixedBits(T) and
StoredBits(n, CNT), after the header if STATE was IDLE (42_bit_packer R229). -/
def Obligations.EncodeTakesTheCheaperBlock : Prop :=
  ∀ (more : BitVec 1) (cap : Word) (data : List Byte) (s : State), (s.phase = .idle ∨ s.phase = .active) →
    data ≠ [] → worstEnc s data.length ≤ cap.toNat →
    ∃ t, exec (.encode more 0 cap data) s = .next t ∧
      8 * t.cursor + t.cnt.toNat = 8 * hdrIfIdle s + s.cnt.toNat +
        (if s.level = 0 then storedBits data.length s.cnt.toNat
        else min (fixedBits (chooseTokens data s).1) (storedBits data.length s.cnt.toNat))

/-- FINISH completes in STATE IDLE and ACTIVE where WORST_FIN is at most CAP: the header if STATE was IDLE, the pending bits
with the final block 1, 1, 0 and seven zeros padded to whole bytes with zeros, then the trailer; STATE becomes CLOSED and no bit
is pending; nothing else changes (40_commands R150, 44_framer R272 to R276). The cursor is the model's (log 11), and what else OUT
holds is the host's (log 10). -/
def Obligations.FinishClosesTheStream : Prop :=
  ∀ (cap : Word) (s : State), (s.phase = .idle ∨ s.phase = .active) → worstFin s ≤ cap.toNat →
    s.acc.toNat < 2 ^ s.cnt.toNat →
    ∃ t final, exec (.finish 0 cap) s = .next t ∧
      final.length = (s.cnt.toNat + 10 + 7) / 8 ∧
      bytesBits final = pendingBits s ++ [true, true, false] ++ List.replicate 7 false ++
        List.replicate (8 * final.length - (s.cnt.toNat + 10)) false ∧
      ∃ bytes : List Byte,
        bytes = (if s.phase = .idle then
            (match s.format with
              | .raw => ([] : List Byte)
              | .zlib => [0x78, 0x01]
              | .gzip => [0x1F, 0x8B, 0x08, 0x00, 0x00, 0x00, 0x00, 0x00, 0x04, 0xFF])
          else []) ++ final ++
          (match s.format with
            | .raw => []
            | .zlib => [s.cksum.extractLsb' 24 8, s.cksum.extractLsb' 16 8, s.cksum.extractLsb' 8 8,
                s.cksum.extractLsb' 0 8]
            | .gzip => [(~~~s.cksum).extractLsb' 0 8, (~~~s.cksum).extractLsb' 8 8, (~~~s.cksum).extractLsb' 16 8,
                (~~~s.cksum).extractLsb' 24 8, s.totalIn.extractLsb' 0 8, s.totalIn.extractLsb' 8 8,
                s.totalIn.extractLsb' 16 8, s.totalIn.extractLsb' 24 8]) ∧
        t = { s with
          phase := .closed, acc := 0, cnt := 0, out := t.out, cursor := bytes.length,
          response := some ⟨true, 0, BitVec.ofNat 32 bytes.length⟩ } ∧
        holdsAt t.out 0 bytes ∧ ∀ a : Nat, bytes.length ≤ a → t.out.read a = s.out.read a

/-- INIT straight to FINISH, at either LEVEL and from any state: the bytes of each format (44_framer R278). -/
def Obligations.EmptyStreams : Prop :=
  ∀ (s : State) (en : BitVec 1) (cap : Word), 21 ≤ cap.toNat →
    (∃ t u, exec (.init en 0 0) s = .next t ∧ exec (.finish 0 cap) t = .next u ∧
      u.response = some ⟨true, 0, 2⟩ ∧ holdsAt u.out 0 [0x03, 0x00]) ∧
    (∃ t u, exec (.init en 1 0) s = .next t ∧ exec (.finish 0 cap) t = .next u ∧
      u.response = some ⟨true, 0, 8⟩ ∧ holdsAt u.out 0 [0x78, 0x01, 0x03, 0x00, 0x00, 0x00, 0x00, 0x01]) ∧
    (∃ t u, exec (.init en 2 0) s = .next t ∧ exec (.finish 0 cap) t = .next u ∧
      u.response = some ⟨true, 0, 20⟩ ∧
      holdsAt u.out 0 [0x1F, 0x8B, 0x08, 0x00, 0x00, 0x00, 0x00, 0x00, 0x04, 0xFF, 0x03, 0x00, 0x00, 0x00, 0x00, 0x00,
        0x00, 0x00, 0x00, 0x00])

/-- The register index map of RDREG (10_state R39): each view's bits, those not listed 0; the read changes nothing but the
response; the indices 8 to 15 fault ILLEGAL. -/
def Obligations.RdregReturnsTheViews : Prop :=
  ∀ s : State,
    (∀ (reg : BitVec 4) (v : Nat),
      v = (match reg.toNat with
        | 0 => s.phase.bits.toNat + 4 * s.level.toNat + 8 * s.format.bits.toNat
        | 1 => s.fault.toNat + 16 * s.lastCause.toNat
        | 2 => s.faultCmd.toNat
        | 3 => s.cksum.toNat
        | 4 => if s.format = .zlib then s.cksum.toNat else (~~~s.cksum).toNat
        | 5 => s.totalIn.toNat
        | 6 => s.acc.toNat + 256 * s.cnt.toNat
        | _ => s.hist.toNat) →
      reg.toNat < 8 → exec (.rdreg 0 reg 0) s = .next { s with response := some ⟨true, 0, BitVec.ofNat 32 v⟩ }) ∧
    (∀ reg : BitVec 4, 8 ≤ reg.toNat → exec (.rdreg 0 reg 0) s = .next { s with
      fault := s.fault ||| 0x1#4, lastCause := 1, faultCmd := 0x5#32 ||| (reg.setWidth 32 <<< 8),
      response := some ⟨false, 1, 0⟩ })

/-- The state transitions (40_commands R154): the next STATE of a command that does not fault, ENCODE and FINISH without a
stream never among them; a faulting command leaves STATE unchanged. -/
def Obligations.StateTransitions : Prop :=
  ∀ (i : Instr) (s : State), i.isCommand = true →
    ∃ t r, exec i s = .next t ∧ t.response = some r ∧
      (r.ok = false → t.phase = s.phase) ∧
      (r.ok = true → t.phase = (match i with
        | .init _ _ _ => .idle
        | .encode _ _ _ _ => .active
        | .finish _ _ => .closed
        | _ => s.phase)) ∧
      ((∃ more cap data, i = .encode more 0 cap data) ∨ (∃ cap, i = .finish 0 cap) →
        (s.phase = .uninit ∨ s.phase = .closed) → r.ok = false ∧ r.cause = 3)

/-- MATCH_POLICY decides tokens and nothing else of a stream (00_scope R10). An ENCODE under the other policy is answered
with the same OK and CAUSE, and leaves the same STATE, LEVEL, FORMAT, CKSUM, TOTAL_IN, HIST, WINDOW and fault registers;
where it makes no tokens (LEVEL 0, no bytes, or a fault) it leaves the same state in every field, OUT, RESULT, ACC, CNT and
HASH included. Every other instruction leaves the same state under both. The policy as a field of State is the model's
(log 8). -/
def Obligations.PolicyDecidesTokensOnly : Prop :=
  (∀ (more : BitVec 1) (rsvd : BitVec 27) (cap : Word) (data : List Byte) (s t : State) (policy : MatchPolicy),
    exec (.encode more rsvd cap data) s = .next t →
    ∃ t' r r', exec (.encode more rsvd cap data) { s with policy := policy } = .next t' ∧
      t.response = some r ∧ t'.response = some r' ∧ r'.ok = r.ok ∧ r'.cause = r.cause ∧
      t'.phase = t.phase ∧ t'.level = t.level ∧ t'.format = t.format ∧ t'.cksum = t.cksum ∧ t'.totalIn = t.totalIn ∧
      t'.hist = t.hist ∧ t'.window = t.window ∧ t'.fault = t.fault ∧ t'.lastCause = t.lastCause ∧
      t'.faultCmd = t.faultCmd ∧ t'.inbox = t.inbox ∧ t'.policy = policy ∧
      (s.level = 0 ∨ data = [] ∨ r.ok = false → t' = { t with policy := policy })) ∧
  ∀ (i : Instr) (s t : State) (policy : MatchPolicy), (∀ more rsvd cap data, i ≠ .encode more rsvd cap data) →
    exec i s = .next t → exec i { s with policy := policy } = .next { t with policy := policy }

/-! The match finder (41_match_finder). -/

/-- The tokens of every ENCODE at LEVEL 1 meet the validity contract (41_match_finder R189), under both policies. Under the
reference policy they copy at least 4 bytes, and each is the one R183, R186 and R187 give: where the bucket of its start
holds a candidate that is used, a copy from there that ends at the first mismatch, at 258 bytes or at the end of the chunk
(which R184's last bytes do not shorten, log 25), and a literal otherwise. What is taken where an offered any-valid list does
not meet the contract is the model's choice (log 24). -/
def Obligations.TokensMeetTheContract : Prop :=
  ∀ (data : List Byte) (s : State),
    validTokens data s.totalIn s.hist.toNat s.window (chooseTokens data s).1 = true ∧
    (s.policy = .reference →
      (∀ len dist, Token.copy len dist ∈ (chooseTokens data s).1 → 4 ≤ len) ∧
      ∀ (i : Nat) (tok : Token), tokenAt (chooseTokens data s).1 i tok →
        ∃ e, bucketBefore data s (chooseTokens data s).1 i (hashOf (hashKey data i)) e ∧ referenceToken data s i e tok)

/-- The tokens of every ENCODE at LEVEL 1 decode to the chunk, given the stream whose last HIST bytes WINDOW holds
(41_match_finder R189). Streams are written latest byte first. -/
def Obligations.TokensDecodeToTheChunk : Prop :=
  ∀ (data stream : List Byte) (s : State), windowHolds s stream →
    decodeTokens (chooseTokens data s).1 stream = some (data.reverse ++ stream)

/-- An ENCODE that completes leaves WINDOW holding the last HIST bytes of the stream with its chunk added (10_state R35,
41_match_finder R188), across every wrap of TOTAL_IN. -/
def Obligations.WindowHoldsTheStream : Prop :=
  ∀ (more : BitVec 1) (rsvd : BitVec 27) (cap : Word) (data stream : List Byte) (s t : State) (result : Word),
    windowHolds s stream → exec (.encode more rsvd cap data) s = .next t →
    t.response = some ⟨true, 0, result⟩ → windowHolds t (data.reverse ++ stream)

/-- An ENCODE that completes writes its chunk into WINDOW, byte i at `(TOTAL_IN + i) mod 32768`, at every LEVEL; of a chunk longer
than 32768 bytes the last 32768 remain; no other byte of WINDOW changes; then HIST and TOTAL_IN count the chunk
(41_match_finder R188). -/
def Obligations.EncodeWritesItsChunkIntoWindow : Prop :=
  ∀ (more : BitVec 1) (cap : Word) (data : List Byte) (s : State), (s.phase = .idle ∨ s.phase = .active) →
    data ≠ [] → worstEnc s data.length ≤ cap.toNat →
    ∃ t, exec (.encode more 0 cap data) s = .next t ∧
      (∀ i : Nat, i < data.length → data.length ≤ i + 32768 →
        t.window.read ((s.totalIn.toNat + i) % 32768) = data[i]?) ∧
      (∀ k : Nat, (∀ i : Nat, i < data.length → (s.totalIn.toNat + i) % 32768 ≠ k) → t.window.read k = s.window.read k) ∧
      t.hist.toNat = min 32768 (s.hist.toNat + data.length) ∧
      t.totalIn.toNat = (s.totalIn.toNat + data.length) % 4294967296

/-- Under the reference policy, at LEVEL 1, an ENCODE that completes leaves every HASH entry as it was or naming a position of
its chunk with at least 4 bytes from it on, in the bucket of those 4 bytes. Where the chunk has 4 bytes its first position is
keyed, so its bucket holds a position of the chunk whatever it held before. Every bucket holds the last position keyed into
it: the starts of tokens with 4 bytes left, and no other, are keyed (41_match_finder R183, R184). -/
def Obligations.EncodeKeysOnlyItsChunk : Prop :=
  ∀ (more : BitVec 1) (cap : Word) (data : List Byte) (s : State), (s.phase = .idle ∨ s.phase = .active) →
    s.level = 1 → s.policy = .reference → worstEnc s data.length ≤ cap.toNat →
    ∃ t, exec (.encode more 0 cap data) s = .next t ∧
      (∀ h : Nat, t.hash.read h = s.hash.read h ∨
        ∃ i : Nat, i + 4 ≤ data.length ∧ h = hashOf (hashKey data i) ∧
          t.hash.read h = some ⟨true, s.totalIn + BitVec.ofNat 32 i⟩) ∧
      (4 ≤ data.length → ∃ i : Nat, i + 4 ≤ data.length ∧ hashOf (hashKey data i) = hashOf (hashKey data 0) ∧
        t.hash.read (hashOf (hashKey data 0)) = some ⟨true, s.totalIn + BitVec.ofNat 32 i⟩) ∧
      ∀ h : Nat, bucketBefore data s (chooseTokens data s).1 data.length h (hashRead t.hash h)

/-- No rule reads the WINDOW bytes outside the last HIST bytes: under the reference policy an ENCODE in two states whose
windows agree on those bytes leaves the same state, WINDOW apart (10_state R35). -/
def Obligations.UnspecifiedWindowBytesAreNotRead : Prop :=
  ∀ (more : BitVec 1) (rsvd : BitVec 27) (cap : Word) (data : List Byte) (s t : State) (window : Memory Byte),
    s.policy = .reference →
    (∀ k : Nat, 1 ≤ k → k ≤ s.hist.toNat →
      winRead window (((s.totalIn.toNat : Int) - (k : Int)) % 32768).toNat =
        winRead s.window (((s.totalIn.toNat : Int) - (k : Int)) % 32768).toNat) →
    exec (.encode more rsvd cap data) s = .next t →
    ∃ t', exec (.encode more rsvd cap data) { s with window := window } = .next t' ∧
      { t' with window := [] } = { t with window := [] }

/-! The checksums (43_checksums). -/

/-- The check values of 43_checksums R259. -/
def Obligations.ChecksumCheckValues : Prop :=
  let check (d : List Byte) (register value adler : Word) : Prop :=
    checksumUpdate .raw 0xFFFFFFFF d = register ∧ checksumUpdate .gzip 0xFFFFFFFF d = register ∧
    checksumValue .raw register = value ∧ checksumValue .gzip register = value ∧
    checksumUpdate .zlib 0x00000001 d = adler ∧ checksumValue .zlib adler = adler
  check [] 0xFFFFFFFF 0x00000000 0x00000001 ∧
  check [0x61] 0x174841BC 0xE8B7BE43 0x00620062 ∧
  check [0x61, 0x62, 0x63] 0xCADBBE3D 0x352441C2 0x024D0127 ∧
  check [0x31, 0x32, 0x33, 0x34, 0x35, 0x36, 0x37, 0x38, 0x39] 0x340BC6D9 0xCBF43926 0x091E01DE ∧
  check [0x57, 0x69, 0x6B, 0x69, 0x70, 0x65, 0x64, 0x69, 0x61] 0x52553FD1 0xADAAC02E 0x11E60398 ∧
  check [0x61, 0x61, 0x61, 0x61, 0x61, 0x61, 0x61, 0x61, 0x61, 0x61] 0xB3EE320F 0x4C11CDF0 0x14E103CB

/-- Chunk boundaries never affect CKSUM, TOTAL_IN, HIST or WINDOW: two ENCODEs that complete leave them as one ENCODE of
the joined chunk does, at any LEVEL and in any format (43_checksums R254, R257; 40_commands R156). -/
def Obligations.ChunkBoundariesDoNotMatter : Prop :=
  ∀ (more : BitVec 1) (rsvd : BitVec 27) (cap cap' cap'' : Word) (d d' : List Byte) (s t u v : State) (r r' r'' : Word),
    exec (.encode more rsvd cap d) s = .next t → t.response = some ⟨true, 0, r⟩ →
    exec (.encode more rsvd cap' d') t = .next u → u.response = some ⟨true, 0, r'⟩ →
    exec (.encode more rsvd cap'' (d ++ d')) s = .next v → v.response = some ⟨true, 0, r''⟩ →
    u.cksum = v.cksum ∧ u.totalIn = v.totalIn ∧ u.hist = v.hist ∧ u.window = v.window ∧ u.phase = v.phase ∧
      u.format = v.format ∧ u.level = v.level

/-! The output elements (opcode table, DEFLATE-output rows). -/

/-- Every well-formed output element but a stored block (the block headers 010 and 110, the six LIT rows, EOB, the three LEN
rows, DIST) runs in every state whose ACC is zero above CNT, DIST where its distance is at most the bytes emitted so far
(30_encoding R118): its code goes out most significant bit first, then its extra bits least significant first, after the
pending bits; whole bytes go to OUT at the output cursor, the rest stay pending; the bytes it stands for are counted;
nothing else changes (42_bit_packer R213, R214, R218, R219, R221; 20_memory R63). That an element is run alone is the
model's choice (log 4), and so are the two counts (log 15). -/
def Obligations.ElementsPackTheirBits : Prop :=
  ∀ (i : Instr) (e : Element) (s : State), i.wellFormed = true → encode i = .element e →
    (∀ data, i ≠ .blkStoredHdr data) → s.acc.toNat < 2 ^ s.cnt.toNat →
    (∀ d extra, i = .dist d extra → distBase d.toNat + extra.toNat ≤ s.hist.toNat + s.elementBytes) →
    ∃ t bytes, exec i s = .next t ∧
      t = { s with
        acc := t.acc, cnt := t.cnt, out := t.out, cursor := s.cursor + bytes.length
        elementBytes := (match i with
          | .lit000F _ | .lit104F _ | .lit508F _ | .lit909F _ | .litA0BF _ | .litC0FF _ => s.elementBytes + 1
          | .dist _ _ => s.elementBytes + s.elementLen
          | _ => s.elementBytes)
        elementLen := (match i with
          | .len257271 sym extra => lenBase (sym.toNat - 1) + extra.toNat
          | .len272279 sym extra => lenBase (15 + sym.toNat) + extra.toNat
          | .len280285 sym extra => lenBase (23 + sym.toNat) + extra.toNat
          | .dist _ _ => 0
          | _ => s.elementLen) } ∧
      bytesBits bytes ++ pendingBits t = pendingBits s ++ elementBits e ∧
      t.acc.toNat < 2 ^ t.cnt.toNat ∧ holdsAt t.out s.cursor bytes ∧
      ∀ a : Nat, a < s.cursor ∨ s.cursor + bytes.length ≤ a → t.out.read a = s.out.read a

/-- A stored block of up to 65535 bytes (BLK_STORED_HDR and what follows it): header 000, zero bits to the byte boundary,
LEN and NLEN in 16 bits each, least significant first, the bytes; no bit is pending afterwards; nothing else changes
(30_encoding R117, 42_bit_packer R224, R225). That an element is run alone is the model's choice (log 4), and so is the
count of the bytes it stands for (log 15). -/
def Obligations.StoredElementPacksItsBlock : Prop :=
  ∀ (data : List Byte) (s : State), data.length ≤ 65535 → s.acc.toNat < 2 ^ s.cnt.toNat →
    ∃ t bytes, exec (.blkStoredHdr data) s = .next t ∧
      t = { s with
        acc := 0, cnt := 0, out := t.out, cursor := s.cursor + bytes.length
        elementBytes := s.elementBytes + data.length } ∧
      bytesBits bytes = pendingBits s ++ [false, false, false] ++
        List.replicate ((8 - (s.cnt.toNat + 3) % 8) % 8) false ++
        lsbBits 16 data.length ++ lsbBits 16 (65535 - data.length) ++ bytesBits data ∧
      holdsAt t.out s.cursor bytes ∧
      ∀ a : Nat, a < s.cursor ∨ s.cursor + bytes.length ≤ a → t.out.read a = s.out.read a

/-- An output element that is not well-formed, that is one 30_encoding R118 excludes by its own bits, is refused by name in
every state, and so is a DIST element whose distance is greater than the bytes emitted so far in the stream (R118). That it
is refused, and how those bytes are counted, is the model's choice (log 15). -/
def Obligations.NeverEmittedElementsAreRefused : Prop :=
  (∀ (i : Instr) (s : State), i.isCommand = false → i.wellFormed = false → exec i s = .refused .notEmitted) ∧
  (∀ extra, (Instr.len280285 6 extra).wellFormed = false ∧ (Instr.len280285 7 extra).wellFormed = false) ∧
  (∀ extra, (Instr.dist 30 extra).wellFormed = false ∧ (Instr.dist 31 extra).wellFormed = false) ∧
  (Instr.len280285 4 31).wellFormed = false ∧
  ∀ (d : BitVec 5) (extra : BitVec 13) (s : State), s.hist.toNat + s.elementBytes < distBase d.toNat + extra.toNat →
    exec (.dist d extra) s = .refused .notEmitted

/-- What ENCODE emits as a fixed block, in IDLE after the header and in ACTIVE from offset 0, is, bit for bit, the rows of the
opcode table: running the header row, the rows of its tokens and EOB one after the other, from the output cursor behind the
header, leaves the same ACC, CNT, OUT and cursor, and RESULT is that cursor (30_encoding R103; 40_commands R146, R147;
42_bit_packer R227; opcode table). That a row is run alone is the model's choice (log 4). -/
def Obligations.FixedBlockIsItsTableRows : Prop :=
  ∀ (more : BitVec 1) (cap : Word) (data : List Byte) (s : State), (s.phase = .idle ∨ s.phase = .active) →
    s.level = 1 → data ≠ [] → worstEnc s data.length ≤ cap.toNat → s.acc.toNat < 2 ^ s.cnt.toNat →
    fixedBits (chooseTokens data s).1 ≤ storedBits data.length s.cnt.toNat →
    ∃ t u, exec (.encode more 0 cap data) s = .next t ∧
      execAll (fixedBlockRows (chooseTokens data s).1)
        { s with cursor := (writtenHeader s).length, out := s.out.writeAll 0 (writtenHeader s) } = .next u ∧
      t.acc = u.acc ∧ t.cnt = u.cnt ∧ t.out = u.out ∧ t.cursor = u.cursor ∧
      t.response = some ⟨true, 0, BitVec.ofNat 32 u.cursor⟩ ∧ holdsAt t.out 0 (writtenHeader s)

/-! A host that breaks its duties. -/

/-- An ENCODE whose buffers the host disturbs still completes where it would have, and still writes only below CAP; STATE,
TOTAL_IN and HIST are as without; where IN is intact, so are RESULT, ACC and CNT; where the host touches no byte of IN or OUT,
so is everything (70_reset R351, R353). What is unspecified is free; that the bytes of a changed IN are so too, and that of
OUT no byte is known, is log 12. -/
def Obligations.DisturbedEncodeStillCompletes : Prop :=
  ∀ (s : State) (d : Disturbance) (r : Request) (rest : List Arrival) (more : BitVec 1) (cap : Word) (data : List Byte),
    s.inbox = .issueDisturbed d r :: rest → decodeRequest r = .ok (.encode more 0 cap data) →
    (s.phase = .idle ∨ s.phase = .active) → worstEnc s data.length ≤ cap.toNat →
    ∃ t u result, step s = .next t ∧ exec (.encode more 0 cap data) { s with inbox := rest, out := [] } = .next u ∧
      t.response = some ⟨true, 0, result⟩ ∧ result.toNat ≤ worstEnc s data.length ∧
      t.inbox = rest ∧ t.phase = .active ∧ t.level = s.level ∧ t.format = s.format ∧ t.fault = s.fault ∧
      t.lastCause = s.lastCause ∧ t.faultCmd = s.faultCmd ∧
      t.totalIn = s.totalIn + BitVec.ofNat 32 data.length ∧
      (data ≠ [] → t.hist.toNat = min 32768 (s.hist.toNat + data.length)) ∧
      (d = .outOnly ∨ data = [] → t.response = u.response ∧ t.acc = u.acc ∧ t.cnt = u.cnt) ∧
      (d = .inOnly ∧ data = [] ∨ d = .outOnly ∧ cap = 0 → t = u) ∧
      ∀ a : Nat, cap.toNat ≤ a → t.out.read a = none

/-- A FINISH whose OUT the host disturbs still completes where it would have, with the RESULT it would have had, and still
writes OUT only below CAP; STATE is CLOSED, no bit is pending, and every other register is as it was but CKSUM, which R351
leaves unspecified with WINDOW and HASH. FINISH has no IN, so a host that leaves OUT alone disturbs nothing (70_reset R351).
What is unspecified is free, and of OUT no byte is known (log 12). -/
def Obligations.DisturbedFinishStillCompletes : Prop :=
  ∀ (s : State) (d : Disturbance) (r : Request) (rest : List Arrival) (cap : Word),
    s.inbox = .issueDisturbed d r :: rest → decodeRequest r = .ok (.finish 0 cap) →
    (s.phase = .idle ∨ s.phase = .active) → worstFin s ≤ cap.toNat →
    ∃ t u, step s = .next t ∧ exec (.finish 0 cap) { s with inbox := rest, out := [] } = .next u ∧
      t.response = u.response ∧
      t.response = some ⟨true, 0, BitVec.ofNat 32 t.cursor⟩ ∧ t.cursor ≤ worstFin s ∧
      t.inbox = rest ∧ t.phase = .closed ∧ t.level = s.level ∧ t.format = s.format ∧ t.totalIn = s.totalIn ∧
      t.hist = s.hist ∧ t.fault = s.fault ∧ t.lastCause = s.lastCause ∧ t.faultCmd = s.faultCmd ∧
      (s.acc.toNat < 2 ^ s.cnt.toNat → t.acc = 0 ∧ t.cnt = 0) ∧ (d = .inOnly → t = u) ∧
      ∀ a : Nat, cap.toNat ≤ a → t.out.read a = none
end

