-- ==== Sys2Proof/Laws/Memory.lean ====
section
/-! SUPPORT. The laws of the sparse memories: reading after writing, and that every memory operation keeps the
canonical form and the size bound. -/

namespace Sys2Proof.Machine.Memory

variable {α β : Type}

@[simp] theorem read_nil (a : Nat) : Memory.read ([] : Memory α) a = none := rfl

theorem read_cons (b : Nat) (x : α) (rest : Memory α) (a : Nat) :
    Memory.read ((b, x) :: rest) a = if a = b then some x else Memory.read rest a := rfl

/-- A read gives what was written last at that address, and any other address reads as before. -/
theorem read_write (m : Memory α) (a : Nat) (x : α) (a' : Nat) :
    (m.write a x).read a' = if a' = a then some x else m.read a' := by
  induction m with
  | nil => rfl
  | cons c rest ih =>
    obtain ⟨b, y⟩ := c
    simp only [Memory.write]
    split
    · simp only [read_cons]
    · split
      · subst_vars
        simp only [read_cons]
        split <;> simp_all
      · simp only [read_cons, ih]
        split <;> split <;> simp_all

/-- What a run of writes leaves at each address. -/
theorem read_writeAll (m : Memory α) (o : Nat) (l : List α) (a : Nat) :
    (m.writeAll o l).read a = if o ≤ a ∧ a < o + l.length then l[a - o]? else m.read a := by
  induction l generalizing m o with
  | nil => simp [Memory.writeAll]
  | cons x rest ih =>
    simp only [Memory.writeAll, ih, read_write, List.length_cons]
    by_cases h : a = o
    · subst h; simp
    · by_cases h' : o + 1 ≤ a
      · obtain ⟨k, rfl⟩ := Nat.exists_eq_add_of_le h'
        have e : o + 1 + k - o = k + 1 := by omega
        simp only [e, List.getElem?_cons_succ, show o + 1 + k - (o + 1) = k by omega]
        split <;> split <;> first | rfl | omega
      · rw [if_neg (by omega), if_neg h, if_neg (by omega)]

/-- The canonical form, as a pairwise order of the addresses. -/
theorem wf_iff_pairwise (m : Memory α) : m.wf = true ↔ m.Pairwise (fun c c' => c.1 < c'.1) := by
  induction m with
  | nil => simp [Memory.wf]
  | cons c rest ih =>
    cases rest with
    | nil => simp [Memory.wf]
    | cons c' rest' =>
      simp only [Memory.wf, Bool.and_eq_true, decide_eq_true_eq, ih, List.pairwise_cons,
        List.mem_cons, forall_eq_or_imp]
      constructor
      · rintro ⟨h, h', h''⟩
        exact ⟨⟨h, fun d hd => Nat.lt_trans h (h' d hd)⟩, h', h''⟩
      · rintro ⟨⟨h, _⟩, h', h''⟩
        exact ⟨h, h', h''⟩

@[simp] theorem wf_nil : Memory.wf ([] : Memory α) = true := rfl

theorem mem_write {m : Memory α} {a : Nat} {x : α} {c : Nat × α} (h : c ∈ m.write a x) : c.1 = a ∨ c ∈ m := by
  induction m with
  | nil => simp_all [Memory.write]
  | cons d rest ih =>
    obtain ⟨b, y⟩ := d
    simp only [Memory.write] at h
    split at h
    · simp only [List.mem_cons] at h ⊢
      rcases h with rfl | h
      · exact .inl rfl
      · exact .inr h
    · split at h
      · simp only [List.mem_cons] at h ⊢
        rcases h with rfl | h
        · exact .inl rfl
        · exact .inr (.inr h)
      · simp only [List.mem_cons] at h ⊢
        rcases h with rfl | h
        · exact .inr (.inl rfl)
        · exact (ih h).imp id .inr

/-- A write keeps the canonical form. -/
theorem wf_write {m : Memory α} (h : m.wf = true) (a : Nat) (x : α) : (m.write a x).wf = true := by
  rw [wf_iff_pairwise] at h ⊢
  induction m with
  | nil => simp [Memory.write]
  | cons d rest ih =>
    obtain ⟨b, y⟩ := d
    rw [List.pairwise_cons] at h
    simp only [Memory.write]
    split
    · rename_i hab
      refine List.pairwise_cons.2 ⟨?_, List.pairwise_cons.2 h⟩
      intro c hc
      rcases List.mem_cons.1 hc with rfl | hc
      · exact hab
      · exact Nat.lt_trans hab (h.1 c hc)
    · split
      · rename_i hab
        subst hab
        exact List.pairwise_cons.2 h
      · refine List.pairwise_cons.2 ⟨?_, ih h.2⟩
        intro c hc
        rcases mem_write hc with hc | hc
        · rw [hc]; show b < a; omega
        · exact h.1 c hc

theorem wf_writeAll {m : Memory α} (h : m.wf = true) (o : Nat) (l : List α) : (m.writeAll o l).wf = true := by
  induction l generalizing m o with
  | nil => exact h
  | cons x rest ih => exact ih (wf_write h o x) (o + 1)

theorem wf_forgetBelow {m : Memory α} (h : m.wf = true) (bound : Nat) : (m.forgetBelow bound).wf = true := by
  rw [wf_iff_pairwise] at h ⊢
  exact h.filter _

theorem wf_mapValues {m : Memory α} (h : m.wf = true) (f : α → β) : (m.mapValues f).wf = true := by
  rw [wf_iff_pairwise] at h ⊢
  exact List.pairwise_map.2 h

theorem wf_tabulate (size : Nat) (f : Nat → α) : (Memory.tabulate size f).wf = true := by
  rw [wf_iff_pairwise, Memory.tabulate]
  exact List.pairwise_map.2 List.pairwise_lt_range

/-- A write below the bound keeps the bound. -/
theorem below_write {m : Memory α} {bound a : Nat} (h : m.below bound = true) (ha : a < bound) (x : α) :
    (m.write a x).below bound = true := by
  simp only [Memory.below, List.all_eq_true, decide_eq_true_eq] at h ⊢
  intro c hc
  rcases mem_write hc with hc | hc
  · omega
  · exact h c hc

theorem below_mapValues {m : Memory α} {bound : Nat} (h : m.below bound = true) (f : α → β) :
    (m.mapValues f).below bound = true := by
  simpa [Memory.below, Memory.mapValues] using h

theorem below_tabulate (size : Nat) (f : Nat → α) : (Memory.tabulate size f).below size = true := by
  simp [Memory.below, Memory.tabulate]

theorem read_mapValues (f : α → β) (m : Memory α) (a : Nat) : (m.mapValues f).read a = (m.read a).map f := by
  induction m with
  | nil => rfl
  | cons c rest ih =>
    obtain ⟨b, y⟩ := c
    rw [read_cons]
    show Memory.read ((b, f y) :: Memory.mapValues f rest) a = _
    rw [read_cons, ih]
    split <;> rfl

/-- Forgetting leaves no value below the bound and every address at or above it as it was. -/
theorem read_forgetBelow (m : Memory α) (bound a : Nat) :
    (m.forgetBelow bound).read a = if a < bound then none else m.read a := by
  induction m with
  | nil => simp [Memory.forgetBelow]
  | cons c rest ih =>
    obtain ⟨b, y⟩ := c
    simp only [Memory.forgetBelow, List.filter_cons] at ih ⊢
    split
    · rename_i hb
      simp only [decide_eq_true_eq] at hb
      simp only [read_cons, ih]
      split <;> split <;> first | rfl | omega
    · rename_i hb
      simp only [decide_eq_true_eq] at hb
      rw [ih, read_cons]
      split
      · rfl
      · rw [if_neg (by omega)]

theorem tabulate_succ (size : Nat) (f : Nat → α) :
    Memory.tabulate (size + 1) f = Memory.tabulate size f ++ [(size, f size)] := by
  simp [Memory.tabulate, List.range_succ]

theorem read_append (m m' : Memory α) (a : Nat) : Memory.read (m ++ m') a = (m.read a).or (m'.read a) := by
  induction m with
  | nil => simp
  | cons c rest ih =>
    obtain ⟨b, y⟩ := c
    rw [List.cons_append, read_cons, read_cons, ih]
    split <;> simp

/-- A tabulated memory holds `f k` at every address below its size. -/
theorem read_tabulate (size : Nat) (f : Nat → α) (a : Nat) :
    (Memory.tabulate size f).read a = if a < size then some (f a) else none := by
  induction size with
  | zero => simp [Memory.tabulate]
  | succ n ih =>
    rw [tabulate_succ, read_append, ih, read_cons, read_nil]
    by_cases h : a < n
    · simp [h, Nat.lt_succ_of_lt h]
    · by_cases h' : a = n
      · simp [h']
      · rw [if_neg h, if_neg h', if_neg (by omega)]; rfl

end Sys2Proof.Machine.Memory

namespace Sys2Proof.Machine

/-- WINDOW after a write. -/
theorem winRead_winWrite (win : Memory Byte) (k : Nat) (v : Byte) (k' : Nat) :
    winRead (winWrite win k v) k' = if k' = k then v else winRead win k' := by
  simp only [winRead, winWrite, Memory.read_write]
  split <;> rfl

/-- HASH after a write. -/
theorem hashRead_hashWrite (hash : Memory HashEntry) (h : Nat) (e : HashEntry) (h' : Nat) :
    hashRead (hashWrite hash h e) h' = if h' = h then e else hashRead hash h' := by
  simp only [hashRead, hashWrite, Memory.read_write]
  split <;> rfl

/-- INIT leaves every V bit 0 (40_commands R143). -/
theorem hashInvalid_hashInvalidate (hash : Memory HashEntry) : hashInvalid (hashInvalidate hash) := by
  intro h
  simp only [hashRead, hashInvalidate, Memory.read_mapValues]
  cases hash.read h <;> rfl

theorem windowUpdate_wf {win : Memory Byte} (h : win.wf = true) (q : Nat) (d : List Byte) :
    (windowUpdate win q d).wf = true := by
  induction d generalizing win q with
  | nil => exact h
  | cons b rest ih => exact ih (Memory.wf_write h _ _) _

theorem windowUpdate_below {win : Memory Byte} (h : win.below wsize = true) (q : Nat) (d : List Byte) :
    (windowUpdate win q d).below wsize = true := by
  induction d generalizing win q with
  | nil => exact h
  | cons b rest ih => exact ih (Memory.below_write h (Nat.mod_lt _ (by decide)) _) _

theorem windowUpdate_append (win : Memory Byte) (q : Nat) (d d' : List Byte) :
    windowUpdate win q (d ++ d') = windowUpdate (windowUpdate win q d) (q + d.length) d' := by
  induction d generalizing win q with
  | nil => rfl
  | cons b rest ih =>
    simp only [List.cons_append, windowUpdate, ih, List.length_cons]
    congr 1
    omega

/-- Only the position modulo the window's size counts (70_reset R357). -/
theorem windowUpdate_mod (win : Memory Byte) (q q' : Nat) (d : List Byte) (h : q % wsize = q' % wsize) :
    windowUpdate win q d = windowUpdate win q' d := by
  induction d generalizing win q q' with
  | nil => rfl
  | cons b rest ih =>
    simp only [windowUpdate, h]
    exact ih _ _ _ (by rw [Nat.add_mod, h, ← Nat.add_mod])

theorem wf_freeHash (ctr : Nat) : (freeHash ctr).wf = true := by rw [freeHash]; exact Memory.wf_tabulate _ _
theorem below_freeHash (ctr : Nat) : (freeHash ctr).below hashSize = true := by
  rw [freeHash]; exact Memory.below_tabulate _ _
theorem wf_disturbedWindow (ctr : Nat) : (disturbedWindow ctr).wf = true := by
  rw [disturbedWindow]; exact Memory.wf_tabulate _ _
theorem below_disturbedWindow (ctr : Nat) : (disturbedWindow ctr).below wsize = true := by
  rw [disturbedWindow]; exact Memory.below_tabulate _ _
theorem wf_hashInvalidate {hash : Memory HashEntry} (h : hash.wf = true) : (hashInvalidate hash).wf = true :=
  Memory.wf_mapValues h _
theorem below_hashInvalidate {bound : Nat} {hash : Memory HashEntry} (h : hash.below bound = true) :
    (hashInvalidate hash).below bound = true := Memory.below_mapValues h _

end Sys2Proof.Machine
end

