-- ==== Sys2Proof/Laws/State.lean ====
section
/-! SUPPORT. What each shared update of the state leaves in each field, by rfl. -/

namespace Sys2Proof.Machine

@[simp] theorem respond_phase (r : Word) (s : State) :
    (respond r s).phase = s.phase := rfl
@[simp] theorem respond_level (r : Word) (s : State) :
    (respond r s).level = s.level := rfl
@[simp] theorem respond_format (r : Word) (s : State) :
    (respond r s).format = s.format := rfl
@[simp] theorem respond_cksum (r : Word) (s : State) :
    (respond r s).cksum = s.cksum := rfl
@[simp] theorem respond_totalIn (r : Word) (s : State) :
    (respond r s).totalIn = s.totalIn := rfl
@[simp] theorem respond_acc (r : Word) (s : State) :
    (respond r s).acc = s.acc := rfl
@[simp] theorem respond_cnt (r : Word) (s : State) :
    (respond r s).cnt = s.cnt := rfl
@[simp] theorem respond_hist (r : Word) (s : State) :
    (respond r s).hist = s.hist := rfl
@[simp] theorem respond_fault (r : Word) (s : State) :
    (respond r s).fault = s.fault := rfl
@[simp] theorem respond_lastCause (r : Word) (s : State) :
    (respond r s).lastCause = s.lastCause := rfl
@[simp] theorem respond_faultCmd (r : Word) (s : State) :
    (respond r s).faultCmd = s.faultCmd := rfl
@[simp] theorem respond_window (r : Word) (s : State) :
    (respond r s).window = s.window := rfl
@[simp] theorem respond_hash (r : Word) (s : State) :
    (respond r s).hash = s.hash := rfl
@[simp] theorem respond_inbox (r : Word) (s : State) :
    (respond r s).inbox = s.inbox := rfl
@[simp] theorem respond_response (r : Word) (s : State) :
    (respond r s).response = some (okResponse r) := rfl
@[simp] theorem respond_out (r : Word) (s : State) :
    (respond r s).out = s.out := rfl
@[simp] theorem respond_cursor (r : Word) (s : State) :
    (respond r s).cursor = s.cursor := rfl
@[simp] theorem respond_policy (r : Word) (s : State) :
    (respond r s).policy = s.policy := rfl
@[simp] theorem respond_freeCtr (r : Word) (s : State) :
    (respond r s).freeCtr = s.freeCtr := rfl
@[simp] theorem respond_elementBytes (r : Word) (s : State) :
    (respond r s).elementBytes = s.elementBytes := rfl
@[simp] theorem respond_elementLen (r : Word) (s : State) :
    (respond r s).elementLen = s.elementLen := rfl
@[simp] theorem raiseFault_phase (c : Cause) (cw : Word) (s : State) :
    (raiseFault c cw s).phase = s.phase := rfl
@[simp] theorem raiseFault_level (c : Cause) (cw : Word) (s : State) :
    (raiseFault c cw s).level = s.level := rfl
@[simp] theorem raiseFault_format (c : Cause) (cw : Word) (s : State) :
    (raiseFault c cw s).format = s.format := rfl
@[simp] theorem raiseFault_cksum (c : Cause) (cw : Word) (s : State) :
    (raiseFault c cw s).cksum = s.cksum := rfl
@[simp] theorem raiseFault_totalIn (c : Cause) (cw : Word) (s : State) :
    (raiseFault c cw s).totalIn = s.totalIn := rfl
@[simp] theorem raiseFault_acc (c : Cause) (cw : Word) (s : State) :
    (raiseFault c cw s).acc = s.acc := rfl
@[simp] theorem raiseFault_cnt (c : Cause) (cw : Word) (s : State) :
    (raiseFault c cw s).cnt = s.cnt := rfl
@[simp] theorem raiseFault_hist (c : Cause) (cw : Word) (s : State) :
    (raiseFault c cw s).hist = s.hist := rfl
@[simp] theorem raiseFault_fault (c : Cause) (cw : Word) (s : State) :
    (raiseFault c cw s).fault = setFaultBit c s.fault := rfl
@[simp] theorem raiseFault_lastCause (c : Cause) (cw : Word) (s : State) :
    (raiseFault c cw s).lastCause = c.code := rfl
@[simp] theorem raiseFault_faultCmd (c : Cause) (cw : Word) (s : State) :
    (raiseFault c cw s).faultCmd = cw := rfl
@[simp] theorem raiseFault_window (c : Cause) (cw : Word) (s : State) :
    (raiseFault c cw s).window = s.window := rfl
@[simp] theorem raiseFault_hash (c : Cause) (cw : Word) (s : State) :
    (raiseFault c cw s).hash = s.hash := rfl
@[simp] theorem raiseFault_inbox (c : Cause) (cw : Word) (s : State) :
    (raiseFault c cw s).inbox = s.inbox := rfl
@[simp] theorem raiseFault_response (c : Cause) (cw : Word) (s : State) :
    (raiseFault c cw s).response = some (faultResponse c) := rfl
@[simp] theorem raiseFault_out (c : Cause) (cw : Word) (s : State) :
    (raiseFault c cw s).out = s.out := rfl
@[simp] theorem raiseFault_cursor (c : Cause) (cw : Word) (s : State) :
    (raiseFault c cw s).cursor = s.cursor := rfl
@[simp] theorem raiseFault_policy (c : Cause) (cw : Word) (s : State) :
    (raiseFault c cw s).policy = s.policy := rfl
@[simp] theorem raiseFault_freeCtr (c : Cause) (cw : Word) (s : State) :
    (raiseFault c cw s).freeCtr = s.freeCtr := rfl
@[simp] theorem raiseFault_elementBytes (c : Cause) (cw : Word) (s : State) :
    (raiseFault c cw s).elementBytes = s.elementBytes := rfl
@[simp] theorem raiseFault_elementLen (c : Cause) (cw : Word) (s : State) :
    (raiseFault c cw s).elementLen = s.elementLen := rfl
@[simp] theorem commitPacker_phase (p : Packer) (s : State) :
    (commitPacker p s).phase = s.phase := rfl
@[simp] theorem commitPacker_level (p : Packer) (s : State) :
    (commitPacker p s).level = s.level := rfl
@[simp] theorem commitPacker_format (p : Packer) (s : State) :
    (commitPacker p s).format = s.format := rfl
@[simp] theorem commitPacker_cksum (p : Packer) (s : State) :
    (commitPacker p s).cksum = s.cksum := rfl
@[simp] theorem commitPacker_totalIn (p : Packer) (s : State) :
    (commitPacker p s).totalIn = s.totalIn := rfl
@[simp] theorem commitPacker_acc (p : Packer) (s : State) :
    (commitPacker p s).acc = p.w.setWidth 7 := rfl
@[simp] theorem commitPacker_cnt (p : Packer) (s : State) :
    (commitPacker p s).cnt = BitVec.ofNat 3 p.c := rfl
@[simp] theorem commitPacker_hist (p : Packer) (s : State) :
    (commitPacker p s).hist = s.hist := rfl
@[simp] theorem commitPacker_fault (p : Packer) (s : State) :
    (commitPacker p s).fault = s.fault := rfl
@[simp] theorem commitPacker_lastCause (p : Packer) (s : State) :
    (commitPacker p s).lastCause = s.lastCause := rfl
@[simp] theorem commitPacker_faultCmd (p : Packer) (s : State) :
    (commitPacker p s).faultCmd = s.faultCmd := rfl
@[simp] theorem commitPacker_window (p : Packer) (s : State) :
    (commitPacker p s).window = s.window := rfl
@[simp] theorem commitPacker_hash (p : Packer) (s : State) :
    (commitPacker p s).hash = s.hash := rfl
@[simp] theorem commitPacker_inbox (p : Packer) (s : State) :
    (commitPacker p s).inbox = s.inbox := rfl
@[simp] theorem commitPacker_response (p : Packer) (s : State) :
    (commitPacker p s).response = s.response := rfl
@[simp] theorem commitPacker_out (p : Packer) (s : State) :
    (commitPacker p s).out = s.out.writeAll s.cursor p.emitted := rfl
@[simp] theorem commitPacker_cursor (p : Packer) (s : State) :
    (commitPacker p s).cursor = s.cursor + p.emitted.length := rfl
@[simp] theorem commitPacker_policy (p : Packer) (s : State) :
    (commitPacker p s).policy = s.policy := rfl
@[simp] theorem commitPacker_freeCtr (p : Packer) (s : State) :
    (commitPacker p s).freeCtr = s.freeCtr := rfl
@[simp] theorem commitPacker_elementBytes (p : Packer) (s : State) :
    (commitPacker p s).elementBytes = s.elementBytes := rfl
@[simp] theorem commitPacker_elementLen (p : Packer) (s : State) :
    (commitPacker p s).elementLen = s.elementLen := rfl
@[simp] theorem initEffect_phase (en : BitVec 1) (f : Format) (s : State) :
    (initEffect en f s).phase = Phase.idle := rfl
@[simp] theorem initEffect_level (en : BitVec 1) (f : Format) (s : State) :
    (initEffect en f s).level = en := rfl
@[simp] theorem initEffect_format (en : BitVec 1) (f : Format) (s : State) :
    (initEffect en f s).format = f := rfl
@[simp] theorem initEffect_cksum (en : BitVec 1) (f : Format) (s : State) :
    (initEffect en f s).cksum = checksumSeed f := rfl
@[simp] theorem initEffect_totalIn (en : BitVec 1) (f : Format) (s : State) :
    (initEffect en f s).totalIn = 0 := rfl
@[simp] theorem initEffect_acc (en : BitVec 1) (f : Format) (s : State) :
    (initEffect en f s).acc = 0 := rfl
@[simp] theorem initEffect_cnt (en : BitVec 1) (f : Format) (s : State) :
    (initEffect en f s).cnt = 0 := rfl
@[simp] theorem initEffect_hist (en : BitVec 1) (f : Format) (s : State) :
    (initEffect en f s).hist = 0 := rfl
@[simp] theorem initEffect_fault (en : BitVec 1) (f : Format) (s : State) :
    (initEffect en f s).fault = s.fault := rfl
@[simp] theorem initEffect_lastCause (en : BitVec 1) (f : Format) (s : State) :
    (initEffect en f s).lastCause = s.lastCause := rfl
@[simp] theorem initEffect_faultCmd (en : BitVec 1) (f : Format) (s : State) :
    (initEffect en f s).faultCmd = s.faultCmd := rfl
@[simp] theorem initEffect_window (en : BitVec 1) (f : Format) (s : State) :
    (initEffect en f s).window = s.window := rfl
@[simp] theorem initEffect_hash (en : BitVec 1) (f : Format) (s : State) :
    (initEffect en f s).hash = hashInvalidate s.hash := rfl
@[simp] theorem initEffect_inbox (en : BitVec 1) (f : Format) (s : State) :
    (initEffect en f s).inbox = s.inbox := rfl
@[simp] theorem initEffect_response (en : BitVec 1) (f : Format) (s : State) :
    (initEffect en f s).response = some (okResponse 0) := rfl
@[simp] theorem initEffect_out (en : BitVec 1) (f : Format) (s : State) :
    (initEffect en f s).out = s.out := rfl
@[simp] theorem initEffect_cursor (en : BitVec 1) (f : Format) (s : State) :
    (initEffect en f s).cursor = s.cursor := rfl
@[simp] theorem initEffect_policy (en : BitVec 1) (f : Format) (s : State) :
    (initEffect en f s).policy = s.policy := rfl
@[simp] theorem initEffect_freeCtr (en : BitVec 1) (f : Format) (s : State) :
    (initEffect en f s).freeCtr = s.freeCtr := rfl
@[simp] theorem initEffect_elementBytes (en : BitVec 1) (f : Format) (s : State) :
    (initEffect en f s).elementBytes = 0 := rfl
@[simp] theorem initEffect_elementLen (en : BitVec 1) (f : Format) (s : State) :
    (initEffect en f s).elementLen = 0 := rfl
@[simp] theorem applyReset_phase (s : State) :
    (applyReset s).phase = Phase.uninit := rfl
@[simp] theorem applyReset_level (s : State) :
    (applyReset s).level = 0 := rfl
@[simp] theorem applyReset_format (s : State) :
    (applyReset s).format = Format.raw := rfl
@[simp] theorem applyReset_cksum (s : State) :
    (applyReset s).cksum = 0xFFFFFFFF := rfl
@[simp] theorem applyReset_totalIn (s : State) :
    (applyReset s).totalIn = 0 := rfl
@[simp] theorem applyReset_acc (s : State) :
    (applyReset s).acc = 0 := rfl
@[simp] theorem applyReset_cnt (s : State) :
    (applyReset s).cnt = 0 := rfl
@[simp] theorem applyReset_hist (s : State) :
    (applyReset s).hist = 0 := rfl
@[simp] theorem applyReset_fault (s : State) :
    (applyReset s).fault = 0 := rfl
@[simp] theorem applyReset_lastCause (s : State) :
    (applyReset s).lastCause = 0 := rfl
@[simp] theorem applyReset_faultCmd (s : State) :
    (applyReset s).faultCmd = 0 := rfl
@[simp] theorem applyReset_window (s : State) :
    (applyReset s).window = [] := rfl
@[simp] theorem applyReset_hash (s : State) :
    (applyReset s).hash = [] := rfl
@[simp] theorem applyReset_inbox (s : State) :
    (applyReset s).inbox = s.inbox := rfl
@[simp] theorem applyReset_response (s : State) :
    (applyReset s).response = none := rfl
@[simp] theorem applyReset_out (s : State) :
    (applyReset s).out = s.out := rfl
@[simp] theorem applyReset_cursor (s : State) :
    (applyReset s).cursor = 0 := rfl
@[simp] theorem applyReset_policy (s : State) :
    (applyReset s).policy = s.policy := rfl
@[simp] theorem applyReset_freeCtr (s : State) :
    (applyReset s).freeCtr = s.freeCtr := rfl
@[simp] theorem applyReset_elementBytes (s : State) :
    (applyReset s).elementBytes = 0 := rfl
@[simp] theorem applyReset_elementLen (s : State) :
    (applyReset s).elementLen = 0 := rfl

@[simp] theorem openPacker_emitted (s : State) : (openPacker s).emitted = [] := rfl
@[simp] theorem openPacker_c (s : State) : (openPacker s).c = s.cnt.toNat := rfl
@[simp] theorem openPacker_w (s : State) : (openPacker s).w = s.acc.setWidth 32 := rfl

end Sys2Proof.Machine
end

