-- ==== Sys2Proof/Laws/Packer.lean ====
section
/-! SUPPORT. What PutBits does, once: how many bits it packs and which (42_bit_packer R213, R217), and from that how
many bits each token and block packs (R228). -/

namespace Sys2Proof.Machine

/-! Bits. -/

@[simp] theorem length_lsbBits (n v : Nat) : (lsbBits n v).length = n := by simp [lsbBits]

theorem getElem?_lsbBits (n v i : Nat) : (lsbBits n v)[i]? = if i < n then some (v.testBit i) else none := by
  simp only [lsbBits, List.getElem?_map]
  split
  · rw [List.getElem?_range ‹_›]; rfl
  · rw [List.getElem?_eq_none (by simp; omega)]; rfl

@[simp] theorem lsbBits_zero (v : Nat) : lsbBits 0 v = [] := rfl

/-- The low `m + n` bits are the low `m`, then the next `n`. -/
theorem lsbBits_add (m n v : Nat) : lsbBits (m + n) v = lsbBits m v ++ lsbBits n (v >>> m) := by
  apply List.ext_getElem?
  intro i
  rw [List.getElem?_append, getElem?_lsbBits, getElem?_lsbBits, getElem?_lsbBits, length_lsbBits]
  by_cases h : i < m
  · simp [h, Nat.lt_add_right n h]
  · rw [if_neg h, Nat.testBit_shiftRight]
    have e : m + (i - m) = i := by omega
    rw [e]
    split <;> split <;> first | rfl | omega

/-- Bits above `n` do not count. -/
theorem lsbBits_congr {n v v' : Nat} (h : ∀ i, i < n → v.testBit i = v'.testBit i) : lsbBits n v = lsbBits n v' := by
  simp only [lsbBits]
  exact List.map_congr_left fun i hi => h i (List.mem_range.1 hi)

@[simp] theorem bytesBits_nil : bytesBits [] = [] := rfl

@[simp] theorem bytesBits_append (l l' : List Byte) : bytesBits (l ++ l') = bytesBits l ++ bytesBits l' := by
  simp [bytesBits]

@[simp] theorem length_bytesBits (l : List Byte) : (bytesBits l).length = 8 * l.length := by
  induction l with
  | nil => rfl
  | cons b rest ih => simp only [bytesBits, List.flatMap_cons, List.length_append, length_lsbBits] at ih ⊢
                      rw [ih, List.length_cons]; omega

/-! PutBits. -/

/-- The loop of R213 keeps the packed bits. -/
theorem packedBits_drain (fuel : Nat) (p : Packer) : packedBits (Packer.drain fuel p) = packedBits p := by
  induction fuel generalizing p with
  | zero => rfl
  | succ n ih =>
    simp only [Packer.drain]
    split
    · rename_i h
      rw [ih]
      obtain ⟨m, hm⟩ := Nat.exists_eq_add_of_le h
      simp only [packedBits, bytesBits_append, List.append_assoc]
      rw [hm, lsbBits_add]
      congr 1
      congr 1
      · simp only [bytesBits, List.flatMap_cons, List.flatMap_nil, List.append_nil]
        apply lsbBits_congr
        intro i hi
        rw [BitVec.toNat_setWidth, Nat.testBit_mod_two_pow]
        simp [hi]
      · rw [show 8 + m - 8 = m by omega, BitVec.toNat_ushiftRight]
    · rfl

/-- The loop of R213, gone round `c / 8` times: fewer than 8 bits stay, the others are in whole bytes. -/
theorem drain_count (fuel : Nat) (p : Packer) (h : p.c / 8 = fuel) :
    (Packer.drain fuel p).c = p.c % 8 ∧ (Packer.drain fuel p).emitted.length = p.emitted.length + p.c / 8 := by
  induction fuel generalizing p with
  | zero => simp only [Packer.drain]; omega
  | succ n ih =>
    simp only [Packer.drain]
    rw [if_pos (by omega)]
    have := ih { w := p.w >>> 8, c := p.c - 8, emitted := p.emitted ++ [p.w.setWidth 8] } (by simp only; omega)
    simp only [List.length_append, List.length_cons, List.length_nil] at this
    omega

/-- The loop keeps W's bits at and above C zero. -/
theorem drain_below (fuel : Nat) (p : Packer) (h : p.w.toNat < 2 ^ p.c) :
    (Packer.drain fuel p).w.toNat < 2 ^ (Packer.drain fuel p).c := by
  induction fuel generalizing p with
  | zero => exact h
  | succ n ih =>
    simp only [Packer.drain]
    split
    · apply ih
      simp only [BitVec.toNat_ushiftRight, Nat.shiftRight_eq_div_pow]
      rw [Nat.div_lt_iff_lt_mul (by decide), ← Nat.pow_add]
      rwa [Nat.sub_add_cancel ‹_›]
    · exact h

/-- PutBits packs n bits, whatever they are: the bytes emitted and the bits pending. -/
theorem putBits_count (v n : Nat) (p : Packer) :
    (putBits v n p).c = (p.c + n) % 8 ∧
    (putBits v n p).emitted.length = p.emitted.length + (p.c + n) / 8 := by
  exact drain_count _ { p with w := p.w ||| (BitVec.ofNat 32 v <<< p.c), c := p.c + n } rfl

/-- PutBits packs the low n bits of v, least significant first, after what was packed before (42_bit_packer R213). -/
theorem packedBits_putBits (v n : Nat) (p : Packer) (hw : p.w.toNat < 2 ^ p.c) (hn : p.c + n ≤ 32) :
    packedBits (putBits v n p) = packedBits p ++ lsbBits n v := by
  rw [putBits, packedBits_drain]
  simp only [packedBits, List.append_assoc]
  congr 1
  rw [lsbBits_add]
  congr 1
  · apply lsbBits_congr
    intro i hi
    rw [BitVec.toNat_or, Nat.testBit_or, BitVec.toNat_shiftLeft, Nat.testBit_mod_two_pow, Nat.testBit_shiftLeft]
    simp [Nat.not_le.2 hi]
  · apply lsbBits_congr
    intro i hi
    rw [Nat.testBit_shiftRight, BitVec.toNat_or, Nat.testBit_or, BitVec.toNat_shiftLeft, Nat.testBit_mod_two_pow,
      Nat.testBit_shiftLeft, BitVec.toNat_ofNat, Nat.testBit_mod_two_pow,
      Nat.testBit_lt_two_pow (lt_of_lt_of_le hw (Nat.pow_le_pow_right (by decide) (Nat.le_add_right p.c i)))]
    simp [show p.c + i < 32 by omega, show i < 32 by omega]

/-- PutBits within its precondition leaves the packer settled (42_bit_packer R212, R217). -/
theorem settled_putBits {v n : Nat} {p : Packer} (h : p.settled) (hv : v < 2 ^ n) (hn : n ≤ 16) :
    (putBits v n p).settled := by
  refine ⟨by rw [(putBits_count v n p).1]; omega, ?_⟩
  apply drain_below
  simp only [BitVec.toNat_or, BitVec.toNat_shiftLeft, BitVec.toNat_ofNat]
  have hc := h.1
  have hlt : p.c + n ≤ 32 := by omega
  apply Nat.or_lt_two_pow
  · exact lt_of_lt_of_le h.2 (Nat.pow_le_pow_right (by decide) (Nat.le_add_right _ _))
  · refine lt_of_le_of_lt (Nat.mod_le _ _) ?_
    rw [Nat.shiftLeft_eq, Nat.mod_eq_of_lt (lt_of_lt_of_le hv (Nat.pow_le_pow_right (by decide) (by omega)))]
    rw [Nat.pow_add, Nat.mul_comm]
    exact Nat.mul_lt_mul_of_pos_left hv (by positivity)

/-- Bits packed so far: 8 for each byte emitted, and C. -/
def bitCount (p : Packer) : Nat := 8 * p.emitted.length + p.c

theorem bitCount_putBits (v n : Nat) (p : Packer) : bitCount (putBits v n p) = bitCount p + n := by
  have := putBits_count v n p
  simp only [bitCount]
  omega

theorem bitCount_putHuff (sym : Nat) (p : Packer) : bitCount (putHuff sym p) = bitCount p + huffLen sym :=
  bitCount_putBits _ _ _

/-- Align fills up to the next byte (42_bit_packer R216). -/
theorem align_count (p : Packer) (h : p.c < 8) :
    (align p).c = 0 ∧ (align p).emitted.length = p.emitted.length + ceilDiv p.c 8 := by
  simp only [align, ceilDiv]
  split
  · have := putBits_count 0 (8 - p.c) p
    omega
  · omega

theorem c_lt_putBits (v n : Nat) (p : Packer) : (putBits v n p).c < 8 := by
  rw [(putBits_count v n p).1]; omega

/-- A token packs TokenBits bits (42_bit_packer R220). -/
theorem bitCount_emitToken (t : Token) (p : Packer) : bitCount (emitToken t p) = bitCount p + tokenBits t := by
  cases t with
  | lit b =>
    simp only [emitToken, bitCount_putHuff, tokenBits, huffLen]
    have := b.isLt
    split <;> [rfl; (rw [if_pos (by omega)])]
  | copy len d =>
    simp only [emitToken, putDistance, putLength, bitCount_putBits, bitCount_putHuff, tokenBits,
      Nat.add_sub_cancel_left]
    omega

theorem bitCount_foldl_emitToken (ts : List Token) (p : Packer) :
    bitCount (ts.foldl (fun q t => emitToken t q) p) = bitCount p + (ts.map tokenBits).sum := by
  induction ts generalizing p with
  | nil => rfl
  | cons t rest ih => simp only [List.foldl_cons, ih, bitCount_emitToken, List.map_cons, List.sum_cons]; omega

theorem emitFixed_c_lt (ts : List Token) (p : Packer) : (emitFixed ts p).c < 8 := c_lt_putBits _ _ _

end Sys2Proof.Machine
end

