-- ==== Sys2Proof/Laws/Tables.lean ====
section
/-! SUPPORT. The length and distance tables cover their ranges: base plus extra bits (30_encoding R113 to R116). -/

namespace Sys2Proof.Machine

/-- `largestLe` answers an index at most `k` whose entry is at most x, where entry 0 is, and whose successor's entry is
greater, where there is one up to `k`. -/
theorem largestLe_spec (table : List Nat) (x : Nat) (h0 : table.getD 0 0 ≤ x) (k : Nat) :
    largestLe table x k ≤ k ∧ table.getD (largestLe table x k) 0 ≤ x ∧
    (largestLe table x k < k → x < table.getD (largestLe table x k + 1) 0) := by
  induction k with
  | zero => simpa [largestLe] using h0
  | succ k ih =>
    simp only [largestLe]
    split
    · exact ⟨le_refl _, ‹_›, fun h => absurd h (lt_irrefl _)⟩
    · refine ⟨by omega, ih.2.1, fun _ => ?_⟩
      rcases Nat.lt_or_ge (largestLe table x k) k with h | h
      · exact ih.2.2 h
      · rw [show largestLe table x k = k by omega]; omega

/-- Every length 3..258 has a row: index at most 28, base plus extra bits, and never symbol 284 with extra 31 (R114). -/
theorem lenIndex_spec {len : Nat} (h : 3 ≤ len) (h' : len ≤ maxMatch) :
    lenIndex len ≤ 28 ∧ lenBase (lenIndex len) ≤ len ∧ len - lenBase (lenIndex len) < 2 ^ lenExtra (lenIndex len) ∧
    ¬ (lenIndex len = 27 ∧ len - lenBase (lenIndex len) = 31) := by
  simp only [lenIndex]
  split
  · subst len; decide
  · have h1 := largestLe_spec lenBaseTable len h 27
    generalize largestLe lenBaseTable len 27 = k at h1
    obtain ⟨hk, hb, hn⟩ := h1
    have key : ∀ k ≤ 26, lenBaseTable.getD (k + 1) 0 ≤ lenBase k + 2 ^ lenExtra k := by decide
    have hb' : lenBase k ≤ len := hb
    refine ⟨by omega, hb', ?_, ?_⟩
    · rcases Nat.lt_or_ge k 27 with hk' | hk'
      · have := key k (by omega); have := hn hk'; omega
      · obtain rfl : k = 27 := by omega
        have : len ≤ 257 := by simp only [maxMatch] at *; omega
        have e : lenBase 27 = 227 := rfl
        have e' : lenExtra 27 = 5 := rfl
        rw [e, e']; omega
    · rintro ⟨rfl, h31⟩
      have e : lenBase 27 = 227 := rfl
      simp only [maxMatch] at *
      omega

/-- Every distance 1..32768 has a row: code at most 29, base plus extra bits (R116). -/
theorem distIndex_spec {d : Nat} (h : 1 ≤ d) (h' : d ≤ wsize) :
    distIndex d ≤ 29 ∧ distBase (distIndex d) ≤ d ∧ d - distBase (distIndex d) < 2 ^ distExtra (distIndex d) := by
  have h1 := largestLe_spec distBaseTable d h 29
  change distIndex d ≤ 29 ∧ distBaseTable.getD (distIndex d) 0 ≤ d ∧ _ at h1
  obtain ⟨hk, hb, hn⟩ := h1
  change distIndex d < 29 → d < distBaseTable.getD (distIndex d + 1) 0 at hn
  generalize distIndex d = j at *
  have key : ∀ j ≤ 28, distBaseTable.getD (j + 1) 0 ≤ distBase j + 2 ^ distExtra j := by decide
  have hb' : distBase j ≤ d := hb
  refine ⟨hk, hb', ?_⟩
  rcases Nat.lt_or_ge j 29 with hj | hj
  · have := key j (by omega); have := hn hj; omega
  · obtain rfl : j = 29 := by omega
    have e : distBase 29 = 24577 := rfl
    have e' : distExtra 29 = 13 := rfl
    simp only [wsize] at h'
    rw [e, e']; omega

theorem lenExtra_le (k : Nat) : lenExtra k ≤ 5 := by
  by_cases h : k < 29
  · revert k; decide
  · simp [lenExtra, List.getD, List.getElem?_eq_none (show lenExtraTable.length ≤ k by simpa [lenExtraTable] using h)]

theorem distExtra_le (j : Nat) : distExtra j ≤ 13 := by
  by_cases h : j < 30
  · revert j; decide
  · simp [distExtra, List.getD, List.getElem?_eq_none (show distExtraTable.length ≤ j by simpa [distExtraTable] using h)]

theorem huffLen_le (sym : Nat) : huffLen sym ≤ 9 := by simp only [huffLen]; split_ifs <;> omega

end Sys2Proof.Machine
end

