-- ==== Sys2Proof/Laws/Blocks.lean ====
section
/-! SUPPORT. What each packing operation adds: its bits, in transmission order (42_bit_packer.md), and nothing to what
was packed before. One lemma for each operation; proofs about blocks and elements cite these. -/

namespace Sys2Proof.Machine

/-- From every settled packer `f` packs exactly `bits` after what was packed, and leaves a settled packer. -/
def Appends (f : Packer → Packer) (bits : List Bool) : Prop :=
  ∀ p : Packer, p.settled → (f p).settled ∧ packedBits (f p) = packedBits p ++ bits

theorem Appends.comp {f g : Packer → Packer} {b b' : List Bool} (hf : Appends f b) (hg : Appends g b') :
    Appends (fun p => g (f p)) (b ++ b') := by
  intro p hp
  obtain ⟨h1, h2⟩ := hf p hp
  obtain ⟨h3, h4⟩ := hg _ h1
  exact ⟨h3, by rw [h4, h2, List.append_assoc]⟩

theorem Appends.foldl {α : Type} {f : α → Packer → Packer} {b : α → List Bool} (l : List α)
    (h : ∀ x ∈ l, Appends (f x) (b x)) : Appends (fun p => l.foldl (fun q x => f x q) p) (l.flatMap b) := by
  induction l with
  | nil => intro p hp; exact ⟨hp, by simp⟩
  | cons x rest ih =>
    have := (h x List.mem_cons_self).comp (ih fun y hy => h y (List.mem_cons_of_mem x hy))
    simpa using this

theorem appends_putBits {v n : Nat} (hv : v < 2 ^ n) (hn : n ≤ 16) : Appends (putBits v n) (lsbBits n v) :=
  fun p hp => ⟨settled_putBits hp hv hn, packedBits_putBits v n p hp.2 (by have := hp.1; omega)⟩

/-! Reversal. -/

theorem rev_lt (n v : Nat) : rev n v < 2 ^ n := by
  induction n generalizing v with
  | zero => simp [rev]
  | succ n ih =>
    have := ih (v / 2)
    have h2 : v % 2 < 2 := Nat.mod_lt _ (by decide)
    simp only [rev, Nat.pow_succ]
    have : v % 2 * 2 ^ n ≤ 2 ^ n := by
      rcases Nat.lt_succ_iff.1 h2 |>.eq_or_lt with h | h
      · rw [h]; omega
      · rw [show v % 2 = 0 by omega]; omega
    omega

theorem lsbBits_succ (n v : Nat) : lsbBits (n + 1) v = decide (v % 2 = 1) :: lsbBits n (v / 2) := by
  rw [Nat.add_comm, lsbBits_add]
  simp [lsbBits, Nat.testBit_zero, Nat.shiftRight_eq_div_pow]

/-- rev_n writes the low n bits the other way round (00_scope R11). -/
theorem lsbBits_rev (n v : Nat) : lsbBits n (rev n v) = msbBits n v := by
  induction n generalizing v with
  | zero => rfl
  | succ n ih =>
    rw [msbBits, lsbBits_succ n v, List.reverse_cons, ← msbBits, ← ih, lsbBits_add]
    congr 1
    · apply lsbBits_congr
      intro i hi
      simp only [rev]
      rw [Nat.mul_comm, Nat.testBit_two_pow_mul_add _ (rev_lt _ _), if_pos hi]
    · have h2 : v % 2 < 2 := Nat.mod_lt _ (by decide)
      simp only [rev, lsbBits, List.range_one, List.map_cons, List.map_nil, List.cons.injEq, and_true]
      rw [Nat.testBit_shiftRight, Nat.mul_comm, Nat.testBit_two_pow_mul_add _ (rev_lt _ _)]
      rcases Nat.mod_two_eq_zero_or_one v with h | h <;> simp [h]

theorem appends_rev {n : Nat} (v : Nat) (hn : n ≤ 16) : Appends (putBits (rev n v) n) (msbBits n v) := by
  rw [← lsbBits_rev]
  exact appends_putBits (rev_lt n v) hn

/-- A length symbol's code, then its extra bits (42_bit_packer R219). -/
theorem appends_putLength {sym extra : Nat} (h : extra < 2 ^ lenExtra (sym - 257)) :
    Appends (putLength sym extra)
      (msbBits (huffLen sym) (huffCode sym) ++ lsbBits (lenExtra (sym - 257)) extra) :=
  (appends_rev (n := huffLen sym) (huffCode sym) (by have := huffLen_le sym; omega)).comp
    (appends_putBits h (by have := lenExtra_le (sym - 257); omega))

/-- A distance code, then its extra bits (42_bit_packer R219). -/
theorem appends_putDistance {j extra : Nat} (h : extra < 2 ^ distExtra j) :
    Appends (putDistance j extra) (msbBits 5 j ++ lsbBits (distExtra j) extra) :=
  (appends_rev j (by decide)).comp (appends_putBits h (by have := distExtra_le j; omega))

/-! Align and stored blocks. -/

theorem lsbBits_of_zero (n : Nat) : lsbBits n 0 = List.replicate n false := by
  apply List.ext_getElem?
  intro i
  rw [getElem?_lsbBits, List.getElem?_replicate]
  simp

/-- Align packs zero bits up to the next byte and leaves none pending (42_bit_packer R216). -/
theorem packedBits_align {p : Packer} (h : p.settled) :
    (align p).c = 0 ∧ (align p).w = 0 ∧
    packedBits (align p) = packedBits p ++ List.replicate ((8 - p.c % 8) % 8) false := by
  have hc := h.1
  have h0 : (align p).c = 0 := (align_count p hc).1
  have hs : (align p).settled := by
    simp only [align]
    split
    · exact settled_putBits h (by positivity) (by omega)
    · exact h
  refine ⟨h0, ?_, ?_⟩
  · have := hs.2
    rw [h0] at this
    exact BitVec.eq_of_toNat_eq (by simpa using this)
  · simp only [align]
    split
    · rw [packedBits_putBits _ _ _ h.2 (by omega), lsbBits_of_zero,
        show (8 - p.c % 8) % 8 = 8 - p.c by omega]
    · simp [show p.c = 0 by omega]

theorem settled_align {p : Packer} (h : p.settled) : (align p).settled := by
  obtain ⟨h1, h2, -⟩ := packedBits_align h
  exact ⟨by omega, by rw [h1, h2]; decide⟩

/-- The data of a stored block, byte by byte, each at a byte boundary. -/
theorem foldl_putBits_bytes (e : List Byte) {p : Packer} (h : p.settled) (hc : p.c = 0) :
    (e.foldl (fun q b => putBits b.toNat 8 q) p).c = 0 ∧ (e.foldl (fun q b => putBits b.toNat 8 q) p).settled ∧
    packedBits (e.foldl (fun q b => putBits b.toNat 8 q) p) = packedBits p ++ bytesBits e := by
  induction e generalizing p with
  | nil => exact ⟨hc, h, by simp⟩
  | cons b rest ih =>
    have hs := settled_putBits h b.isLt (by decide : 8 ≤ 16)
    obtain ⟨h1, h2, h3⟩ := ih hs (by rw [(putBits_count _ _ _).1, hc])
    refine ⟨h1, h2, ?_⟩
    rw [List.foldl_cons, h3, packedBits_putBits _ _ _ h.2 (by omega)]
    simp [bytesBits]

/-- A stored block (42_bit_packer R224): header, padding, LEN and NLEN least significant bit first, the bytes. -/
theorem packedBits_emitStoredBlock (e : List Byte) {p : Packer} (h : p.settled) :
    (emitStoredBlock e p).c = 0 ∧ (emitStoredBlock e p).settled ∧
    packedBits (emitStoredBlock e p) = packedBits p ++ [false, false, false] ++
      List.replicate ((8 - (p.c + 3) % 8) % 8) false ++ lsbBits 16 (BitVec.ofNat 16 e.length).toNat ++
      lsbBits 16 (~~~(BitVec.ofNat 16 e.length)).toNat ++ bytesBits e := by
  have s1 := settled_putBits h (show blockHeader 0 btypeStored < 2 ^ 3 by decide) (by decide)
  have c1 := (putBits_count (blockHeader 0 btypeStored) 3 p).1
  obtain ⟨a1, a2, a3⟩ := packedBits_align s1
  have s2 := settled_align s1
  have s3 := settled_putBits s2 (BitVec.ofNat 16 e.length).isLt (by decide)
  have c3 := (putBits_count (BitVec.ofNat 16 e.length).toNat 16 (align (putBits (blockHeader 0 btypeStored) 3 p))).1
  have s4 := settled_putBits s3 (~~~(BitVec.ofNat 16 e.length)).isLt (by decide)
  have c4 := (putBits_count (~~~(BitVec.ofNat 16 e.length)).toNat 16
    (putBits (BitVec.ofNat 16 e.length).toNat 16 (align (putBits (blockHeader 0 btypeStored) 3 p)))).1
  obtain ⟨h1, h2, h3⟩ := foldl_putBits_bytes e s4 (by omega)
  refine ⟨h1, h2, ?_⟩
  rw [emitStoredBlock, h3, packedBits_putBits _ _ _ s3.2 (by have := s3.1; omega),
    packedBits_putBits _ _ _ s2.2 (by have := s2.1; omega), a3, packedBits_putBits _ _ _ h.2 (by have := h.1; omega), c1,
    Nat.mod_mod]
  simp [blockHeader, lsbBits, List.range_succ]

/-! Settledness of blocks, for any tokens. -/

theorem settled_putHuff (sym : Nat) {p : Packer} (h : p.settled) : (putHuff sym p).settled :=
  (appends_rev (n := huffLen sym) (huffCode sym) (by have := huffLen_le sym; omega) p h).1

/-! Tokens. -/

/-- A token whose length and distance are in range packs TokenBits bits that do not depend on the packer. -/
theorem appends_emitToken (t : Token)
    (h : ∀ len dist, t = .copy len dist → 3 ≤ len ∧ len ≤ maxMatch ∧ 1 ≤ dist ∧ dist ≤ wsize) :
    ∃ bits, Appends (emitToken t) bits := by
  cases t with
  | lit b => exact ⟨_, appends_rev _ (by have := huffLen_le b.toNat; omega)⟩
  | copy len dist =>
    obtain ⟨h1, h2, h3, h4⟩ := h len dist rfl
    refine ⟨_, (appends_putLength (sym := 257 + lenIndex len) ?_).comp
      (appends_putDistance (j := distIndex dist) (distIndex_spec h3 h4).2.2)⟩
    rw [Nat.add_sub_cancel_left]
    exact (lenIndex_spec h1 h2).2.2.1

/-! The number of bits. -/

theorem emitStoredBlock_count (e : List Byte) (p : Packer) :
    (emitStoredBlock e p).c = 0 ∧
    (emitStoredBlock e p).emitted.length = p.emitted.length + ceilDiv (p.c + 3) 8 + 4 + e.length := by
  have fold : ∀ (l : List Byte) (q : Packer), q.c = 0 →
      (l.foldl (fun q b => putBits b.toNat 8 q) q).c = 0 ∧
      (l.foldl (fun q b => putBits b.toNat 8 q) q).emitted.length = q.emitted.length + l.length := by
    intro l
    induction l with
    | nil => intro q hq; exact ⟨hq, rfl⟩
    | cons b rest ih =>
      intro q hq
      have hb := putBits_count b.toNat 8 q
      have := ih (putBits b.toNat 8 q) (by omega)
      simp only [List.foldl_cons, List.length_cons]
      omega
  have h1 := putBits_count (blockHeader 0 btypeStored) 3 p
  have h2 := align_count _ (c_lt_putBits (blockHeader 0 btypeStored) 3 p)
  have h3 := putBits_count (BitVec.ofNat 16 e.length).toNat 16 (align (putBits (blockHeader 0 btypeStored) 3 p))
  have h4 := putBits_count (~~~(BitVec.ofNat 16 e.length)).toNat 16
    (putBits (BitVec.ofNat 16 e.length).toNat 16 (align (putBits (blockHeader 0 btypeStored) 3 p)))
  have h5 := fold e _ (show (putBits (~~~(BitVec.ofNat 16 e.length)).toNat 16
    (putBits (BitVec.ofNat 16 e.length).toNat 16 (align (putBits (blockHeader 0 btypeStored) 3 p)))).c = 0 by omega)
  refine ⟨h5.1, ?_⟩
  rw [emitStoredBlock, h5.2, h4.2, h3.2, h2.2, h1.2]
  simp only [ceilDiv] at *
  omega

/-! Stored pieces (42_bit_packer R226). -/

/-- The bytes and the bit count of a run of stored blocks, where each piece starts at the C the one before leaves. -/
theorem foldl_emitStoredBlock_count (l : List (List Byte)) (p : Packer) (hp : p.c = 0) :
    (l.foldl (fun q e => emitStoredBlock e q) p).c = 0 ∧
    (l.foldl (fun q e => emitStoredBlock e q) p).emitted.length =
      p.emitted.length + 5 * l.length + (l.map List.length).sum := by
  induction l generalizing p with
  | nil => exact ⟨hp, by simp⟩
  | cons e rest ih =>
    have h := emitStoredBlock_count e p
    have := ih _ h.1
    simp only [List.foldl_cons, List.length_cons, List.map_cons, List.sum_cons]
    refine ⟨this.1, ?_⟩
    rw [this.2, h.2, hp, show ceilDiv (0 + 3) 8 = 1 from rfl]
    omega

theorem ceilDiv_succ {n b : Nat} (hb : 0 < b) (hn : 0 < n) : ceilDiv n b = 1 + ceilDiv (n - b) b := by
  simp only [ceilDiv]
  rcases Nat.lt_or_ge n b with h | h
  · rw [show n - b = 0 by omega, Nat.zero_add, Nat.div_eq_of_lt (show b - 1 < b by omega)]
    rw [show n + (b - 1) = (n - 1) + b by omega, Nat.add_div_right _ hb, Nat.div_eq_of_lt (by omega)]
  · rw [show n + (b - 1) = (n - b + (b - 1)) + b by omega, Nat.add_div_right _ hb]
    omega

/-- Running several settled blocks. -/
theorem settled_emitStored (d : List Byte) {p : Packer} (h : p.settled) : (emitStored d p).settled := by
  rw [emitStored]
  generalize storedPieces d.length d = l
  induction l generalizing p with
  | nil => exact h
  | cons e rest ih => exact ih (packedBits_emitStoredBlock e h).2.1

end Sys2Proof.Machine
end

