-- ==== Sys2Proof/Laws/Runs.lean ====
section
/-! SUPPORT. The packer against the state: what was emitted before does not matter to what is packed, so a run of
several operations in one packer is the run of each in a packer of its own; and what one run leaves in the state. -/

namespace Sys2Proof.Machine

/-- `f` only adds to the bytes emitted, and reads none of them. -/
def Local (f : Packer → Packer) : Prop :=
  ∀ (w : Word) (c : Nat) (e : List Byte), f ⟨w, c, e⟩ = { f ⟨w, c, []⟩ with emitted := e ++ (f ⟨w, c, []⟩).emitted }

theorem local_drain (fuel : Nat) : Local (Packer.drain fuel) := by
  induction fuel with
  | zero => intro w c e; simp [Packer.drain]
  | succ n ih =>
    intro w c e
    simp only [Packer.drain]
    split
    · rw [ih, ih (e := [] ++ _)]
      simp
    · simp

theorem local_putBits (v n : Nat) : Local (putBits v n) := fun _ _ e => local_drain _ _ _ e

theorem Local.comp {f g : Packer → Packer} (hf : Local f) (hg : Local g) : Local fun p => g (f p) := by
  intro w c e
  show g (f ⟨w, c, e⟩) = _
  have h := hg (f ⟨w, c, []⟩).w (f ⟨w, c, []⟩).c (f ⟨w, c, []⟩).emitted
  change g (f ⟨w, c, []⟩) = _ at h
  rw [hf w c e, hg]
  show _ = { g (f ⟨w, c, []⟩) with emitted := e ++ (g (f ⟨w, c, []⟩)).emitted }
  rw [h]
  simp

theorem local_id : Local id := fun _ _ _ => by simp

theorem Local.foldl {α : Type} {f : α → Packer → Packer} (h : ∀ x, Local (f x)) (l : List α) :
    Local fun p => l.foldl (fun q x => f x q) p := by
  induction l with
  | nil => exact local_id
  | cons x rest ih => exact (h x).comp ih

theorem local_putHuff (sym : Nat) : Local (putHuff sym) := local_putBits _ _
theorem local_putLength (sym extra : Nat) : Local (putLength sym extra) := (local_putHuff sym).comp (local_putBits _ _)
theorem local_putDistance (j extra : Nat) : Local (putDistance j extra) := (local_putBits _ _).comp (local_putBits _ _)

theorem local_emitToken (t : Token) : Local (emitToken t) := by
  cases t with
  | lit b => exact local_putHuff _
  | copy len dist => exact (local_putLength _ _).comp (local_putDistance _ _)

theorem local_emitFixed (ts : List Token) : Local (emitFixed ts) :=
  ((local_putBits _ _).comp (Local.foldl local_emitToken ts)).comp (local_putHuff _)

theorem local_align : Local align := by
  intro w c e
  simp only [align]
  split
  · exact local_putBits _ _ w c e
  · simp

theorem local_emitStoredBlock (d : List Byte) : Local (emitStoredBlock d) :=
  ((((local_putBits _ _).comp local_align).comp (local_putBits _ _)).comp (local_putBits _ _)).comp
    (Local.foldl (fun b : Byte => local_putBits b.toNat 8) d)

theorem local_emitStored (d : List Byte) : Local (emitStored d) := Local.foldl local_emitStoredBlock _

theorem local_emitAll (l : List Byte) : Local (Packer.emitAll l) := fun w c e => by simp [Packer.emitAll]

/-! A run. -/

theorem toNat_openPacker_w (s : State) : (openPacker s).w.toNat = s.acc.toNat := by
  simp only [openPacker, BitVec.toNat_setWidth]
  exact Nat.mod_eq_of_lt (by have := s.acc.isLt; omega)

theorem settled_openPacker {s : State} (h : s.acc.toNat < 2 ^ s.cnt.toNat) : (openPacker s).settled :=
  ⟨s.cnt.isLt, by rw [toNat_openPacker_w]; exact h⟩

theorem packedBits_openPacker (s : State) : packedBits (openPacker s) = pendingBits s := by
  rw [packedBits, toNat_openPacker_w]
  rfl

/-- Writing a settled packer back loses no bit. -/
theorem openPacker_commitPacker {p : Packer} (h : p.settled) (s : State) :
    openPacker (commitPacker p s) = { p with emitted := [] } := by
  obtain ⟨hc, hw⟩ := h
  have h7 : p.w.toNat < 2 ^ 7 := lt_of_lt_of_le hw (Nat.pow_le_pow_right (by decide) (by omega))
  simp only [openPacker, commitPacker, Packer.mk.injEq, and_true]
  refine ⟨BitVec.eq_of_toNat_eq ?_, ?_⟩
  · rw [BitVec.toNat_setWidth, BitVec.toNat_setWidth, Nat.mod_eq_of_lt h7, Nat.mod_eq_of_lt (by omega)]
  · rw [BitVec.toNat_ofNat, Nat.mod_eq_of_lt (by omega)]

theorem settled_commitPacker {p : Packer} (h : p.settled) (s : State) :
    (commitPacker p s).acc.toNat < 2 ^ (commitPacker p s).cnt.toNat ∧
    bytesBits p.emitted ++ pendingBits (commitPacker p s) = packedBits p := by
  obtain ⟨hc, hw⟩ := h
  have h7 : p.w.toNat < 2 ^ 7 := lt_of_lt_of_le hw (Nat.pow_le_pow_right (by decide) (by omega))
  simp only [commitPacker, pendingBits, packedBits, BitVec.toNat_setWidth, BitVec.toNat_ofNat,
    Nat.mod_eq_of_lt h7, Nat.mod_eq_of_lt (show p.c < 2 ^ 3 by omega)]
  exact ⟨hw, trivial⟩

theorem writeAll_append {α : Type} (m : Memory α) (o : Nat) (l l' : List α) :
    m.writeAll o (l ++ l') = (m.writeAll o l).writeAll (o + l.length) l' := by
  induction l generalizing m o with
  | nil => rfl
  | cons x rest ih => simp only [List.cons_append, Memory.writeAll, ih, List.length_cons]; congr 1; omega

/-- Two runs, one after the other, are one run of both. -/
theorem runPacker_runPacker {f g : Packer → Packer} {s : State} (hg : Local g) (h : (f (openPacker s)).settled) :
    runPacker g (runPacker f s) = runPacker (fun p => g (f p)) s := by
  simp only [runPacker]
  rw [openPacker_commitPacker h]
  have hg' := hg (f (openPacker s)).w (f (openPacker s)).c (f (openPacker s)).emitted
  change g (f (openPacker s)) = _ at hg'
  rw [hg']
  simp only [commitPacker, writeAll_append, List.length_append, Nat.add_assoc]

/-- What one run does to the state: the bits go out after the pending ones, whole bytes to OUT at the cursor, the rest
stay pending; nothing else changes. -/
theorem runPacker_spec {f : Packer → Packer} {bits : List Bool} (hf : Appends f bits) {s : State}
    (h : s.acc.toNat < 2 ^ s.cnt.toNat) :
    ∃ bytes, runPacker f s = { s with
        acc := (runPacker f s).acc, cnt := (runPacker f s).cnt, out := s.out.writeAll s.cursor bytes,
        cursor := s.cursor + bytes.length } ∧
      bytesBits bytes ++ pendingBits (runPacker f s) = pendingBits s ++ bits ∧
      (runPacker f s).acc.toNat < 2 ^ (runPacker f s).cnt.toNat := by
  obtain ⟨h1, h2⟩ := hf _ (settled_openPacker h)
  obtain ⟨h3, h4⟩ := settled_commitPacker h1 s
  exact ⟨(f (openPacker s)).emitted, rfl, by rw [← packedBits_openPacker s, ← h2]; exact h4, h3⟩

/-! What the elements that stand for stream bytes leave. -/

@[simp] theorem runLiteral_acc (b : Nat) (s : State) :
    (runLiteral b s).acc = (runPacker (putHuff b) s).acc := rfl
@[simp] theorem runLiteral_cnt (b : Nat) (s : State) :
    (runLiteral b s).cnt = (runPacker (putHuff b) s).cnt := rfl
@[simp] theorem runLiteral_out (b : Nat) (s : State) :
    (runLiteral b s).out = (runPacker (putHuff b) s).out := rfl
@[simp] theorem runLiteral_cursor (b : Nat) (s : State) :
    (runLiteral b s).cursor = (runPacker (putHuff b) s).cursor := rfl
@[simp] theorem runLiteral_hist (b : Nat) (s : State) :
    (runLiteral b s).hist = s.hist := rfl
@[simp] theorem runLiteral_elementBytes (b : Nat) (s : State) :
    (runLiteral b s).elementBytes = s.elementBytes + 1 := rfl
@[simp] theorem runLiteral_elementLen (b : Nat) (s : State) :
    (runLiteral b s).elementLen = s.elementLen := rfl
@[simp] theorem runLength_acc (sym extra : Nat) (s : State) :
    (runLength sym extra s).acc = (runPacker (putLength sym extra) s).acc := rfl
@[simp] theorem runLength_cnt (sym extra : Nat) (s : State) :
    (runLength sym extra s).cnt = (runPacker (putLength sym extra) s).cnt := rfl
@[simp] theorem runLength_out (sym extra : Nat) (s : State) :
    (runLength sym extra s).out = (runPacker (putLength sym extra) s).out := rfl
@[simp] theorem runLength_cursor (sym extra : Nat) (s : State) :
    (runLength sym extra s).cursor = (runPacker (putLength sym extra) s).cursor := rfl
@[simp] theorem runLength_hist (sym extra : Nat) (s : State) :
    (runLength sym extra s).hist = s.hist := rfl
@[simp] theorem runLength_elementBytes (sym extra : Nat) (s : State) :
    (runLength sym extra s).elementBytes = s.elementBytes := rfl
@[simp] theorem runLength_elementLen (sym extra : Nat) (s : State) :
    (runLength sym extra s).elementLen = lenBase (sym - 257) + extra := rfl
@[simp] theorem runDistance_acc (j extra : Nat) (s : State) :
    (runDistance j extra s).acc = (runPacker (putDistance j extra) s).acc := rfl
@[simp] theorem runDistance_cnt (j extra : Nat) (s : State) :
    (runDistance j extra s).cnt = (runPacker (putDistance j extra) s).cnt := rfl
@[simp] theorem runDistance_out (j extra : Nat) (s : State) :
    (runDistance j extra s).out = (runPacker (putDistance j extra) s).out := rfl
@[simp] theorem runDistance_cursor (j extra : Nat) (s : State) :
    (runDistance j extra s).cursor = (runPacker (putDistance j extra) s).cursor := rfl
@[simp] theorem runDistance_hist (j extra : Nat) (s : State) :
    (runDistance j extra s).hist = s.hist := rfl
@[simp] theorem runDistance_elementBytes (j extra : Nat) (s : State) :
    (runDistance j extra s).elementBytes = s.elementBytes + s.elementLen := rfl
@[simp] theorem runDistance_elementLen (j extra : Nat) (s : State) :
    (runDistance j extra s).elementLen = 0 := rfl
@[simp] theorem runStored_acc (data : List Byte) (s : State) :
    (runStored data s).acc = (runPacker (emitStoredBlock data) s).acc := rfl
@[simp] theorem runStored_cnt (data : List Byte) (s : State) :
    (runStored data s).cnt = (runPacker (emitStoredBlock data) s).cnt := rfl
@[simp] theorem runStored_out (data : List Byte) (s : State) :
    (runStored data s).out = (runPacker (emitStoredBlock data) s).out := rfl
@[simp] theorem runStored_cursor (data : List Byte) (s : State) :
    (runStored data s).cursor = (runPacker (emitStoredBlock data) s).cursor := rfl
@[simp] theorem runStored_hist (data : List Byte) (s : State) :
    (runStored data s).hist = s.hist := rfl
@[simp] theorem runStored_elementBytes (data : List Byte) (s : State) :
    (runStored data s).elementBytes = s.elementBytes + data.length := rfl
@[simp] theorem runStored_elementLen (data : List Byte) (s : State) :
    (runStored data s).elementLen = s.elementLen := rfl

end Sys2Proof.Machine
end

