-- ==== Sys2Proof/Laws/Words.lean ====
section
/-! SUPPORT. The fields of a command word are what it was put together from, and a word is its fields put together
(30_encoding R92, R94). -/

namespace Sys2Proof.Machine

open BitVec (extractLsb'_append_eq_left extractLsb'_append_eq_right extractLsb'_append_eq_of_le
  extractLsb'_append_eq_of_add_le extractLsb'_eq_self extractLsb'_append_extractLsb'_eq_extractLsb')

variable (en more low1 : BitVec 1) (fmt : BitVec 2) (low3 : BitVec 3) (lo reg : BitVec 4)
  (r20 : BitVec 20) (r25 : BitVec 25) (r27 : BitVec 27) (r28 : BitVec 28) (cw : Word)

/-! TBLINIT, FINISH, the reserved opcodes. -/

@[simp] theorem cwOp_wordTblinit : cwOp (wordTblinit r28) = 1#4 := extractLsb'_append_eq_right (a := r28) (b := 1#4)
@[simp] theorem cwAbove4_wordTblinit : cwAbove4 (wordTblinit r28) = r28 :=
  extractLsb'_append_eq_left (a := r28) (b := 1#4)
@[simp] theorem cwOp_wordFinish : cwOp (wordFinish r28) = 4#4 := extractLsb'_append_eq_right (a := r28) (b := 4#4)
@[simp] theorem cwAbove4_wordFinish : cwAbove4 (wordFinish r28) = r28 :=
  extractLsb'_append_eq_left (a := r28) (b := 4#4)
@[simp] theorem cwOp_wordReserved0 : cwOp (wordReserved0 r28) = 0#4 :=
  extractLsb'_append_eq_right (a := r28) (b := 0#4)
@[simp] theorem cwAbove4_wordReserved0 : cwAbove4 (wordReserved0 r28) = r28 :=
  extractLsb'_append_eq_left (a := r28) (b := 0#4)
@[simp] theorem cwOp_wordReserved67 : cwOp (wordReserved67 low1 r28) = 0x3#3 ++ low1 :=
  extractLsb'_append_eq_right (a := r28) (b := 0x3#3 ++ low1)
@[simp] theorem cwAbove4_wordReserved67 : cwAbove4 (wordReserved67 low1 r28) = r28 :=
  extractLsb'_append_eq_left (a := r28) (b := 0x3#3 ++ low1)
@[simp] theorem cwOp_wordReserved8F : cwOp (wordReserved8F low3 r28) = 0x1#1 ++ low3 :=
  extractLsb'_append_eq_right (a := r28) (b := 0x1#1 ++ low3)
@[simp] theorem cwAbove4_wordReserved8F : cwAbove4 (wordReserved8F low3 r28) = r28 :=
  extractLsb'_append_eq_left (a := r28) (b := 0x1#1 ++ low3)
@[simp] theorem low3_wordReserved8F : (wordReserved8F low3 r28).extractLsb' 0 3 = low3 :=
  (extractLsb'_append_eq_of_add_le (xhi := r28) (xlo := 0x1#1 ++ low3) (start := 0) (len := 3) (by decide)).trans
    (extractLsb'_append_eq_right (a := 0x1#1) (b := low3))

/-! INIT. -/

@[simp] theorem cwOp_wordInit : cwOp (wordInit en fmt r25) = 2#4 :=
  (extractLsb'_append_eq_of_add_le (xhi := r25) (xlo := fmt ++ (en ++ 2#4)) (start := 0) (len := 4) (by decide)).trans
    ((extractLsb'_append_eq_of_add_le (xhi := fmt) (xlo := en ++ 2#4) (start := 0) (len := 4) (by decide)).trans
      (extractLsb'_append_eq_right (a := en) (b := 2#4)))
@[simp] theorem cwEn_wordInit : cwEn (wordInit en fmt r25) = en :=
  (extractLsb'_append_eq_of_add_le (xhi := r25) (xlo := fmt ++ (en ++ 2#4)) (start := 4) (len := 1) (by decide)).trans
    ((extractLsb'_append_eq_of_add_le (xhi := fmt) (xlo := en ++ 2#4) (start := 4) (len := 1) (by decide)).trans
      (extractLsb'_append_eq_left (a := en) (b := 2#4)))
@[simp] theorem cwFmt_wordInit : cwFmt (wordInit en fmt r25) = fmt :=
  (extractLsb'_append_eq_of_add_le (xhi := r25) (xlo := fmt ++ (en ++ 2#4)) (start := 5) (len := 2) (by decide)).trans
    (extractLsb'_append_eq_left (a := fmt) (b := en ++ 2#4))
@[simp] theorem cwAbove7_wordInit : cwAbove7 (wordInit en fmt r25) = r25 :=
  extractLsb'_append_eq_left (a := r25) (b := fmt ++ (en ++ 2#4))

/-! ENCODE. -/

@[simp] theorem cwOp_wordEncode : cwOp (wordEncode more r27) = 3#4 :=
  (extractLsb'_append_eq_of_add_le (xhi := r27) (xlo := more ++ 3#4) (start := 0) (len := 4) (by decide)).trans
    (extractLsb'_append_eq_right (a := more) (b := 3#4))
@[simp] theorem cwMore_wordEncode : cwMore (wordEncode more r27) = more :=
  (extractLsb'_append_eq_of_add_le (xhi := r27) (xlo := more ++ 3#4) (start := 4) (len := 1) (by decide)).trans
    (extractLsb'_append_eq_left (a := more) (b := 3#4))
@[simp] theorem cwAbove5_wordEncode : cwAbove5 (wordEncode more r27) = r27 :=
  extractLsb'_append_eq_left (a := r27) (b := more ++ 3#4)

/-! RDREG. -/

@[simp] theorem cwOp_wordRdreg : cwOp (wordRdreg lo reg r20) = 5#4 :=
  (extractLsb'_append_eq_of_add_le (xhi := r20) (xlo := reg ++ (lo ++ 5#4)) (start := 0) (len := 4) (by decide)).trans
    ((extractLsb'_append_eq_of_add_le (xhi := reg) (xlo := lo ++ 5#4) (start := 0) (len := 4) (by decide)).trans
      (extractLsb'_append_eq_right (a := lo) (b := 5#4)))
@[simp] theorem cwMid_wordRdreg : cwMid (wordRdreg lo reg r20) = lo :=
  (extractLsb'_append_eq_of_add_le (xhi := r20) (xlo := reg ++ (lo ++ 5#4)) (start := 4) (len := 4) (by decide)).trans
    ((extractLsb'_append_eq_of_add_le (xhi := reg) (xlo := lo ++ 5#4) (start := 4) (len := 4) (by decide)).trans
      (extractLsb'_append_eq_left (a := lo) (b := 5#4)))
@[simp] theorem cwReg_wordRdreg : cwReg (wordRdreg lo reg r20) = reg :=
  (extractLsb'_append_eq_of_add_le (xhi := r20) (xlo := reg ++ (lo ++ 5#4)) (start := 8) (len := 4) (by decide)).trans
    (extractLsb'_append_eq_left (a := reg) (b := lo ++ 5#4))
@[simp] theorem cwAbove12_wordRdreg : cwAbove12 (wordRdreg lo reg r20) = r20 :=
  extractLsb'_append_eq_left (a := r20) (b := reg ++ (lo ++ 5#4))

/-! A word is its fields. -/

theorem append_cwOp : (cwAbove4 cw ++ cwOp cw : BitVec (28 + 4)) = cw :=
  (extractLsb'_append_extractLsb'_eq_extractLsb' (x := cw) (start₁ := 0) (len₁ := 4) (len₂ := 28) rfl).trans
    extractLsb'_eq_self

theorem above5_append_more : (cwAbove5 cw ++ (cwMore cw ++ cwOp cw) : BitVec (27 + (1 + 4))) = cw := by
  have h : (cwMore cw ++ cwOp cw : BitVec (1 + 4)) = cw.extractLsb' 0 (1 + 4) :=
    extractLsb'_append_extractLsb'_eq_extractLsb' (x := cw) (start₁ := 0) (len₁ := 4) (len₂ := 1) rfl
  rw [h]
  exact (extractLsb'_append_extractLsb'_eq_extractLsb' (x := cw) (start₁ := 0) (len₁ := 5) (len₂ := 27) rfl).trans
    extractLsb'_eq_self

theorem above7_append_fields : (cwAbove7 cw ++ (cwFmt cw ++ (cwEn cw ++ cwOp cw)) : BitVec (25 + (2 + (1 + 4)))) = cw := by
  have h : (cwEn cw ++ cwOp cw : BitVec (1 + 4)) = cw.extractLsb' 0 (1 + 4) :=
    extractLsb'_append_extractLsb'_eq_extractLsb' (x := cw) (start₁ := 0) (len₁ := 4) (len₂ := 1) rfl
  have h' : (cwFmt cw ++ cw.extractLsb' 0 (1 + 4) : BitVec (2 + (1 + 4))) = cw.extractLsb' 0 (2 + (1 + 4)) :=
    extractLsb'_append_extractLsb'_eq_extractLsb' (x := cw) (start₁ := 0) (len₁ := 5) (len₂ := 2) rfl
  rw [h, h']
  exact (extractLsb'_append_extractLsb'_eq_extractLsb' (x := cw) (start₁ := 0) (len₁ := 7) (len₂ := 25) rfl).trans
    extractLsb'_eq_self

theorem above12_append_fields :
    (cwAbove12 cw ++ (cwReg cw ++ (cwMid cw ++ cwOp cw)) : BitVec (20 + (4 + (4 + 4)))) = cw := by
  have h : (cwMid cw ++ cwOp cw : BitVec (4 + 4)) = cw.extractLsb' 0 (4 + 4) :=
    extractLsb'_append_extractLsb'_eq_extractLsb' (x := cw) (start₁ := 0) (len₁ := 4) (len₂ := 4) rfl
  have h' : (cwReg cw ++ cw.extractLsb' 0 (4 + 4) : BitVec (4 + (4 + 4))) = cw.extractLsb' 0 (4 + (4 + 4)) :=
    extractLsb'_append_extractLsb'_eq_extractLsb' (x := cw) (start₁ := 0) (len₁ := 8) (len₂ := 4) rfl
  rw [h, h']
  exact (extractLsb'_append_extractLsb'_eq_extractLsb' (x := cw) (start₁ := 0) (len₁ := 12) (len₂ := 20) rfl).trans
    extractLsb'_eq_self

/-- Every opcode is one of the sixteen (30_encoding R93). -/
theorem cwOp_cases : cwOp cw = 0 ∨ cwOp cw = 1 ∨ cwOp cw = 2 ∨ cwOp cw = 3 ∨ cwOp cw = 4 ∨ cwOp cw = 5 ∨
    cwOp cw = 6 ∨ cwOp cw = 7 ∨ 8 ≤ (cwOp cw).toNat := by
  generalize cwOp cw = o
  revert o
  decide

end Sys2Proof.Machine
end

