-- ==== Sys2Proof/Laws/Commands.lean ====
section
/-! SUPPORT. Everything each command can do: the fault it takes, with the condition under which it takes it, or its
effect. Proofs about commands cite these and do not unfold the meanings. -/

namespace Sys2Proof.Machine

theorem noStream_false {s : State} (h : s.phase = .idle ∨ s.phase = .active) : s.phase.noStream = false := by
  rcases h with h | h <;> rw [h] <;> rfl

theorem noStream_true {s : State} (h : s.phase = .uninit ∨ s.phase = .closed) : s.phase.noStream = true := by
  rcases h with h | h <;> rw [h] <;> rfl

theorem noStream_eq_false {s : State} (h : s.phase.noStream = false) : s.phase = .idle ∨ s.phase = .active := by
  cases hp : s.phase <;> simp_all [Phase.noStream]

theorem execTblinit_cases (rsvd : BitVec 28) (s : State) :
    (rsvd ≠ 0 ∧ execTblinit rsvd s = .next (raiseFault .illegal (wordTblinit rsvd) s)) ∨
    (rsvd = 0 ∧ execTblinit rsvd s = .next (respond 0 s)) := by
  simp only [execTblinit]
  split <;> simp_all

theorem execInit_cases (en : BitVec 1) (fmt : BitVec 2) (rsvd : BitVec 25) (s : State) :
    (rsvd ≠ 0 ∧ execInit en fmt rsvd s = .next (raiseFault .illegal (wordInit en fmt rsvd) s)) ∨
    (rsvd = 0 ∧ fmt = 3 ∧ execInit en fmt rsvd s = .next (raiseFault .badFormat (wordInit en fmt rsvd) s)) ∨
    (rsvd = 0 ∧ ∃ format, Format.ofFmt fmt = some format ∧ execInit en fmt rsvd s = .next (initEffect en format s)) := by
  simp only [execInit]
  split
  · exact .inl ⟨‹_›, rfl⟩
  · rename_i h
    have : fmt = 0 ∨ fmt = 1 ∨ fmt = 2 ∨ fmt = 3 := by revert fmt; decide
    rcases this with rfl | rfl | rfl | rfl
    · exact .inr (.inr ⟨by simpa using h, .raw, rfl, rfl⟩)
    · exact .inr (.inr ⟨by simpa using h, .zlib, rfl, rfl⟩)
    · exact .inr (.inr ⟨by simpa using h, .gzip, rfl, rfl⟩)
    · exact .inr (.inl ⟨by simpa using h, rfl, rfl⟩)

theorem execEncode_cases (more : BitVec 1) (rsvd : BitVec 27) (cap : Word) (data : List Byte) (s : State) :
    (rsvd ≠ 0 ∧ execEncode more rsvd cap data s = .next (raiseFault .illegal (wordEncode more rsvd) s)) ∨
    (rsvd = 0 ∧ s.phase.noStream = true ∧
      execEncode more rsvd cap data s = .next (raiseFault .usage (wordEncode more rsvd) s)) ∨
    (rsvd = 0 ∧ s.phase.noStream = false ∧ cap.toNat < worstEnc s data.length ∧
      execEncode more rsvd cap data s = .next (raiseFault .outCapacity (wordEncode more rsvd) s)) ∨
    (rsvd = 0 ∧ s.phase.noStream = false ∧ worstEnc s data.length ≤ cap.toNat ∧
      execEncode more rsvd cap data s = .next (encodeEffect data s)) := by
  simp only [execEncode]
  split
  · exact .inl ⟨‹_›, rfl⟩
  · split
    · exact .inr (.inl ⟨by simp_all, ‹_›, rfl⟩)
    · split
      · exact .inr (.inr (.inl ⟨by simp_all, by simp_all, ‹_›, rfl⟩))
      · exact .inr (.inr (.inr ⟨by simp_all, by simp_all, by omega, rfl⟩))

theorem execFinish_cases (rsvd : BitVec 28) (cap : Word) (s : State) :
    (rsvd ≠ 0 ∧ execFinish rsvd cap s = .next (raiseFault .illegal (wordFinish rsvd) s)) ∨
    (rsvd = 0 ∧ s.phase.noStream = true ∧ execFinish rsvd cap s = .next (raiseFault .usage (wordFinish rsvd) s)) ∨
    (rsvd = 0 ∧ s.phase.noStream = false ∧ cap.toNat < worstFin s ∧
      execFinish rsvd cap s = .next (raiseFault .outCapacity (wordFinish rsvd) s)) ∨
    (rsvd = 0 ∧ s.phase.noStream = false ∧ worstFin s ≤ cap.toNat ∧
      execFinish rsvd cap s = .next (finishEffect s)) := by
  simp only [execFinish]
  split
  · exact .inl ⟨‹_›, rfl⟩
  · split
    · exact .inr (.inl ⟨by simp_all, ‹_›, rfl⟩)
    · split
      · exact .inr (.inr (.inl ⟨by simp_all, by simp_all, ‹_›, rfl⟩))
      · exact .inr (.inr (.inr ⟨by simp_all, by simp_all, by omega, rfl⟩))

theorem execRdreg_cases (rsvdLow reg : BitVec 4) (rsvdHigh : BitVec 20) (s : State) :
    ((rsvdLow ≠ 0 ∨ rsvdHigh ≠ 0 ∨ view reg s = none) ∧
      execRdreg rsvdLow reg rsvdHigh s = .next (raiseFault .illegal (wordRdreg rsvdLow reg rsvdHigh) s)) ∨
    (rsvdLow = 0 ∧ rsvdHigh = 0 ∧ ∃ v, view reg s = some v ∧
      execRdreg rsvdLow reg rsvdHigh s = .next (respond v s)) := by
  simp only [execRdreg]
  split
  · exact .inl ⟨by tauto, rfl⟩
  · cases hv : view reg s with
    | none => exact .inl ⟨by tauto, rfl⟩
    | some v => exact .inr ⟨by simp_all, by simp_all, v, rfl, rfl⟩

/-! The updates of ENCODE and FINISH, field by field. -/

theorem encodeUpdate_nil (s : State) :
    encodeUpdate [] s =
      { commitPacker (emitHeaderIfIdle s (openPacker s)) { s with cursor := 0 } with phase := .active } := rfl

theorem encodeUpdate_of_ne_nil {data : List Byte} (h : data ≠ []) (s : State) :
    encodeUpdate data s =
      (let blocks := encodeBlocks data s (emitHeaderIfIdle s (openPacker s))
      { commitPacker blocks.1 { s with cursor := 0 } with
        phase   := .active
        cksum   := checksumUpdate s.format s.cksum data
        window  := windowUpdate s.window s.totalIn.toNat data
        totalIn := s.totalIn + BitVec.ofNat 32 data.length
        hist    := histAfter s.hist data.length
        hash    := blocks.2.1
        freeCtr := blocks.2.2 }) := by
  cases data with
  | nil => exact absurd rfl h
  | cons b rest => rfl

section fields
variable (data : List Byte) (s : State)

@[simp] theorem encodeUpdate_phase : (encodeUpdate data s).phase = .active := by cases data <;> rfl
@[simp] theorem encodeUpdate_level : (encodeUpdate data s).level = s.level := by cases data <;> rfl
@[simp] theorem encodeUpdate_format : (encodeUpdate data s).format = s.format := by cases data <;> rfl
@[simp] theorem encodeUpdate_cksum :
    (encodeUpdate data s).cksum = checksumUpdate s.format s.cksum data := by cases data <;> rfl
@[simp] theorem encodeUpdate_totalIn : (encodeUpdate data s).totalIn = s.totalIn + BitVec.ofNat 32 data.length := by
  cases data with
  | nil => exact (BitVec.add_zero _).symm
  | cons b rest => rfl
@[simp] theorem encodeUpdate_window :
    (encodeUpdate data s).window = windowUpdate s.window s.totalIn.toNat data := by cases data <;> rfl
@[simp] theorem encodeUpdate_fault : (encodeUpdate data s).fault = s.fault := by cases data <;> rfl
@[simp] theorem encodeUpdate_lastCause : (encodeUpdate data s).lastCause = s.lastCause := by cases data <;> rfl
@[simp] theorem encodeUpdate_faultCmd : (encodeUpdate data s).faultCmd = s.faultCmd := by cases data <;> rfl
@[simp] theorem encodeUpdate_inbox : (encodeUpdate data s).inbox = s.inbox := by cases data <;> rfl
@[simp] theorem encodeUpdate_response : (encodeUpdate data s).response = s.response := by cases data <;> rfl
@[simp] theorem encodeUpdate_policy : (encodeUpdate data s).policy = s.policy := by cases data <;> rfl
@[simp] theorem finishUpdate_phase : (finishUpdate s).phase = .closed := rfl
@[simp] theorem finishUpdate_level : (finishUpdate s).level = s.level := rfl
@[simp] theorem finishUpdate_format : (finishUpdate s).format = s.format := rfl
@[simp] theorem finishUpdate_cksum : (finishUpdate s).cksum = s.cksum := rfl
@[simp] theorem finishUpdate_totalIn : (finishUpdate s).totalIn = s.totalIn := rfl
@[simp] theorem finishUpdate_hist : (finishUpdate s).hist = s.hist := rfl
@[simp] theorem finishUpdate_window : (finishUpdate s).window = s.window := rfl
@[simp] theorem finishUpdate_hash : (finishUpdate s).hash = s.hash := rfl
@[simp] theorem finishUpdate_fault : (finishUpdate s).fault = s.fault := rfl
@[simp] theorem finishUpdate_lastCause : (finishUpdate s).lastCause = s.lastCause := rfl
@[simp] theorem finishUpdate_faultCmd : (finishUpdate s).faultCmd = s.faultCmd := rfl
@[simp] theorem finishUpdate_inbox : (finishUpdate s).inbox = s.inbox := rfl
@[simp] theorem finishUpdate_response : (finishUpdate s).response = s.response := rfl
@[simp] theorem finishUpdate_policy : (finishUpdate s).policy = s.policy := rfl
@[simp] theorem finishUpdate_freeCtr : (finishUpdate s).freeCtr = s.freeCtr := rfl
@[simp] theorem finishUpdate_elementBytes : (finishUpdate s).elementBytes = s.elementBytes := rfl
@[simp] theorem finishUpdate_elementLen : (finishUpdate s).elementLen = s.elementLen := rfl
@[simp] theorem encodeUpdate_elementBytes : (encodeUpdate data s).elementBytes = s.elementBytes := by cases data <;> rfl
@[simp] theorem encodeUpdate_elementLen : (encodeUpdate data s).elementLen = s.elementLen := by cases data <;> rfl

theorem encodeUpdate_hist (h : data ≠ []) : (encodeUpdate data s).hist = histAfter s.hist data.length := by
  rw [encodeUpdate_of_ne_nil h]

end fields

@[simp] theorem toNat_histAfter (hist : BitVec 16) (n : Nat) :
    (histAfter hist n).toNat = min 32768 (hist.toNat + n) := by
  simp only [histAfter, wsize, BitVec.toNat_ofNat]
  exact Nat.mod_eq_of_lt (by omega)

/-! The Framer. -/

@[simp] theorem emitHeaderIfIdle_w (s : State) (p : Packer) : (emitHeaderIfIdle s p).w = p.w := by
  simp only [emitHeaderIfIdle]; split <;> rfl
@[simp] theorem emitHeaderIfIdle_c (s : State) (p : Packer) : (emitHeaderIfIdle s p).c = p.c := by
  simp only [emitHeaderIfIdle]; split <;> rfl
theorem length_emitHeaderIfIdle (s : State) (p : Packer) :
    (emitHeaderIfIdle s p).emitted.length = p.emitted.length + hdrIfIdle s := by
  simp only [emitHeaderIfIdle, hdrIfIdle]
  split <;> first | rfl | (cases s.format <;> simp [Packer.emitAll, headerBytes, hdrLen])
/-- EmitHeader, where it runs, emits the header bytes of the statements. -/
theorem emitHeaderIfIdle_eq (s : State) (p : Packer) : emitHeaderIfIdle s p = p.emitAll (writtenHeader s) := by
  simp only [emitHeaderIfIdle, writtenHeader]
  cases s.phase <;> simp [Packer.emitAll]
  cases s.format <;> rfl
theorem length_writtenHeader (s : State) : (writtenHeader s).length = hdrIfIdle s := by
  simp only [writtenHeader, hdrIfIdle]
  cases s.phase <;> cases s.format <;> rfl
theorem length_headerBytes (format : Format) : (headerBytes format).length = hdrLen format := by cases format <;> rfl
theorem length_trailerBytes (format : Format) (cksum totalIn : Word) :
    (trailerBytes format cksum totalIn).length = trlLen format := by cases format <;> rfl
theorem settled_emitHeaderIfIdle {s : State} {p : Packer} (h : p.settled) : (emitHeaderIfIdle s p).settled := by
  simpa only [Packer.settled, emitHeaderIfIdle_w, emitHeaderIfIdle_c] using h

end Sys2Proof.Machine
end

