-- ==== Sys2Proof/Laws/Decode.lean ====
section
/-! SUPPORT. The decoder's shared checks, each read backwards: what holds where it accepts. -/

namespace Sys2Proof

open Sys2Proof.Machine

theorem bare_ok {r : Request} {i j : Instr} (h : bare r i = .ok j) : i = j ∧ r.operands = [] ∧ r.input = [] := by
  unfold bare at h
  split at h <;> [(split at h <;> simp_all); simp_all]

theorem plain_ok {e : Element} {i j : Instr} (h : plain e i = .ok j) : i = j ∧ e.extra = ⟨0, 0⟩ ∧ e.data = [] := by
  unfold plain at h
  split at h <;> [(split at h <;> simp_all); simp_all]

theorem withLenExtra_ok {e : Element} {sym : Nat} {i j : Instr} (h : withLenExtra e sym i = .ok j) :
    i = j ∧ e.data = [] ∧ e.extra.width = lenExtra (sym - 257) ∧ lenExtraOk sym e.extra.value = true := by
  unfold withLenExtra at h
  split at h <;> [(split at h <;> simp_all); simp_all]

theorem lenExtraOk_lt {sym extra : Nat} (h : lenExtraOk sym extra = true) :
    extra < 2 ^ lenExtra (sym - 257) ∧ extra < 32 := by
  simp only [lenExtraOk, Bool.and_eq_true, decide_eq_true_eq] at h
  exact ⟨h.1, lt_of_lt_of_le h.1 (Nat.pow_le_pow_right (by decide) (lenExtra_le _))⟩

theorem distExtraOk_lt {j extra : Nat} (h : distExtraOk j extra = true) : extra < 2 ^ distExtra j ∧ extra < 8192 := by
  simp only [distExtraOk, decide_eq_true_eq] at h
  exact ⟨h, lt_of_lt_of_le h (Nat.pow_le_pow_right (by decide) (distExtra_le _))⟩

/-- Every request record that decodes is a command. -/
theorem isCommand_of_decodeRequest {r : Request} {i : Instr} (h : decodeRequest r = .ok i) : i.isCommand = true := by
  simp only [decodeRequest, bare] at h
  split at h <;> (try split at h) <;> (try split at h) <;> simp at h <;> subst h <;> rfl

end Sys2Proof
end

