-- ==== Sys2Proof/Laws/MatchFinder.lean ====
section
/-! SUPPORT. The match finder: what the comparison loop and a candidate answer (41_match_finder R183, R186, R187), and
that Tokenize keeps HASH canonical. -/

namespace Sys2Proof.Machine

/-- The comparison loop goes on only over equal bytes, and at most `fuel` further. -/
theorem matchExtend_spec (d : List Byte) (p0 : Word) (win : Memory Byte) (i dist fuel len : Nat)
    (hlen : ∀ k : Nat, k < len → byteSource d p0 win (((i + k : Nat) : Int) - (dist : Int)) = chunkByte d (i + k)) :
    matchExtend d p0 win i dist fuel len ≤ len + fuel ∧
    ∀ k : Nat, k < matchExtend d p0 win i dist fuel len →
      byteSource d p0 win (((i + k : Nat) : Int) - (dist : Int)) = chunkByte d (i + k) := by
  induction fuel generalizing len with
  | zero => exact ⟨le_refl _, hlen⟩
  | succ n ih =>
    simp only [matchExtend]
    split
    · have h := ih (len + 1) fun k hk => by
        rcases Nat.lt_succ_iff_lt_or_eq.1 hk with h | rfl
        · exact hlen k h
        · assumption
      exact ⟨by omega, h.2⟩
    · exact ⟨by omega, hlen⟩

/-- The comparison loop ends at its bound or at the first byte that differs. -/
theorem matchExtend_stops (d : List Byte) (p0 : Word) (win : Memory Byte) (i dist fuel len : Nat) :
    matchExtend d p0 win i dist fuel len = len + fuel ∨
    byteSource d p0 win (((i + matchExtend d p0 win i dist fuel len : Nat) : Int) - (dist : Int)) ≠
      chunkByte d (i + matchExtend d p0 win i dist fuel len) := by
  induction fuel generalizing len with
  | zero => exact .inl rfl
  | succ n ih =>
    simp only [matchExtend]
    split
    · exact (ih (len + 1)).imp_left fun h => by omega
    · exact .inr ‹_›

/-- A candidate that is used is at least 4 bytes long, stays within the chunk and the history, and is a copy. -/
theorem matchCandidate_spec {d : List Byte} {p0 : Word} {h0 : Nat} {win : Memory Byte} {i : Nat} {e : HashEntry}
    {len dist : Nat} (hi : i ≤ d.length) (h : matchCandidate d p0 h0 win i e = some (len, dist)) :
    e.v = true ∧ minMatch ≤ len ∧ len ≤ maxMatch ∧ 1 ≤ dist ∧ dist ≤ min wsize (h0 + i) ∧ i + len ≤ d.length ∧
    ∀ k : Nat, k < len → byteSource d p0 win (((i + k : Nat) : Int) - (dist : Int)) = chunkByte d (i + k) := by
  simp only [matchCandidate] at h
  split at h <;> [skip; cases h]
  split at h <;> [skip; cases h]
  split at h <;> [skip; cases h]
  rename_i h1 h2 h3
  simp only [Option.some.injEq, Prod.mk.injEq] at h
  obtain ⟨h4, rfl⟩ := h
  have hs := matchExtend_spec d p0 win i (p0 + BitVec.ofNat 32 i - e.p).toNat (min maxMatch (d.length - i)) 0
    fun k hk => absurd hk (Nat.not_lt_zero k)
  rw [h4] at hs h3
  exact ⟨h1, h3, by omega, h2.1, h2.2, by omega, hs.2⟩

/-- With 4 bytes left, the token that a candidate gives is the one R187 says: its copy as long as the bytes stay equal, or the
literal where there is none. -/
theorem referenceToken_matchCandidate {d : List Byte} {s : State} {i : Nat} (e : HashEntry) (hi : i + 4 ≤ d.length) :
    referenceToken d s i e
      (match matchCandidate d s.totalIn s.hist.toNat s.window i e with
        | some (len, dist) => .copy len dist
        | none => .lit (chunkByte d i)) := by
  generalize hc : matchCandidate d s.totalIn s.hist.toNat s.window i e = c
  have hstop := matchExtend_stops d s.totalIn s.window i (s.totalIn + BitVec.ofNat 32 i - e.p).toNat
    (min maxMatch (d.length - i)) 0
  rcases c with - | ⟨len, dist⟩
  · refine ⟨fun ⟨h1, h2, h3, h4, h5⟩ => ?_, fun _ => rfl⟩
    have hd : 1 ≤ (s.totalIn + BitVec.ofNat 32 i - e.p).toNat ∧
        (s.totalIn + BitVec.ofNat 32 i - e.p).toNat ≤ min wsize (s.hist.toNat + i) := ⟨h3, h4⟩
    simp only [matchCandidate, h2, hd, and_self, if_true, ite_eq_right_iff, reduceCtorEq, imp_false, not_le,
      minMatch] at hc
    rcases hstop with h | h
    · simp only [maxMatch] at h hc
      omega
    · exact absurd (h5 _ hc) h
  · have h := matchCandidate_spec (by omega) hc
    simp only [matchCandidate] at hc
    split at hc <;> [skip; cases hc]
    split at hc <;> [skip; cases hc]
    split at hc <;> [skip; cases hc]
    simp only [Option.some.injEq, Prod.mk.injEq] at hc
    obtain ⟨hl, rfl⟩ := hc
    rw [hl] at hstop
    have h4 : 4 ≤ len := h.2.1
    have h258 : len ≤ 258 := h.2.2.1
    refine ⟨fun _ => ⟨len, rfl, h4, h258, h.2.2.2.2.2.1, h.2.2.2.2.2.2, ?_⟩,
      fun hn => absurd ⟨hi, h.1, h.2.2.2.1, h.2.2.2.2.1, fun k hk => h.2.2.2.2.2.2 k (by omega)⟩ hn⟩
    rcases hstop with h' | h'
    · simp only [maxMatch] at h'
      omega
    · exact .inr (.inr h')

/-- Of two token lists joined, a token stands in the first, or in the second behind what the first covers. -/
theorem tokenAt_append (ts us : List Token) (i : Nat) (tok : Token) :
    tokenAt (ts ++ us) i tok ↔
      tokenAt ts i tok ∨ ∃ j, tokenAt us j tok ∧ i = (ts.map tokenSpan).sum + j := by
  constructor
  · rintro ⟨b, a, h, rfl⟩
    rcases List.append_eq_append_iff.1 h with ⟨c, rfl, hc⟩ | ⟨c, hb, hc⟩
    · exact .inr ⟨_, ⟨c, a, hc, rfl⟩, by simp⟩
    · cases c with
      | nil =>
        simp only [List.append_nil, List.nil_append] at hb hc
        subst hb
        exact .inr ⟨0, ⟨[], a, by simp [hc], rfl⟩, by simp⟩
      | cons x c =>
        simp only [List.cons_append, List.cons.injEq] at hc
        obtain ⟨rfl, rfl⟩ := hc
        exact .inl ⟨b, c, hb, rfl⟩
  · rintro (⟨b, a, rfl, rfl⟩ | ⟨j, ⟨b, a, rfl, rfl⟩, rfl⟩)
    · exact ⟨b, a ++ us, by simp, rfl⟩
    · exact ⟨ts ++ b, a, by simp, by simp⟩

theorem hashOf_lt (k : Word) : hashOf k < hashSize := by
  simp only [hashOf, BitVec.toNat_ushiftRight, hashShift, hashSize, Nat.shiftRight_eq_div_pow]
  have := (k * hashMul).isLt
  omega

/-- Tokenize keeps HASH canonical and within its 8192 entries. -/
theorem tokenizeFrom_hash (d : List Byte) (p0 : Word) (h0 : Nat) (win : Memory Byte) (fuel i : Nat)
    {hash : Memory HashEntry} (hw : hash.wf = true) (hb : hash.below hashSize = true) :
    (tokenizeFrom d p0 h0 win fuel i hash).2.wf = true ∧
    (tokenizeFrom d p0 h0 win fuel i hash).2.below hashSize = true := by
  induction fuel generalizing i hash with
  | zero => exact ⟨hw, hb⟩
  | succ n ih =>
    simp only [tokenizeFrom]
    have w := Memory.wf_write hw (hashOf (hashKey d i)) (⟨true, p0 + BitVec.ofNat 32 i⟩ : HashEntry)
    have b := Memory.below_write hb (hashOf_lt (hashKey d i)) (⟨true, p0 + BitVec.ofNat 32 i⟩ : HashEntry)
    split
    · split
      · split
        · exact ih _ w b
        · exact ih _ w b
      · exact ih _ hw hb
    · exact ⟨hw, hb⟩

end Sys2Proof.Machine
end

