-- ==== Sys2Proof/Laws/PerInstr.lean ====
section
/-! SUPPORT. The family `RowPattern`, about every instruction as syntax: its encoding carries the fixed bits of its row
of spec/opcode_table.json. -/

namespace Sys2Proof.Laws.RowPattern

open Sys2Proof.Machine

/-- The fixed bits of a row: how many bits the row's code has, which of them the row fixes, and their values. Of a
command row they are the bits that select the command, the reserved ones apart, since a word that sets a reserved bit is
still that command (30_encoding R97). -/
def fixedBitsOf : Instr → Nat × Nat × Nat
  | .tblinit _ => (32, 0x0000000F, 0x1)
  | .init _ _ _ => (32, 0x0000000F, 0x2)
  | .encode _ _ _ _ => (32, 0x0000000F, 0x3)
  | .finish _ _ => (32, 0x0000000F, 0x4)
  | .rdreg _ _ _ => (32, 0x0000000F, 0x5)
  | .reservedOp0 _ => (32, 0x0000000F, 0x0)
  | .reservedOp67 _ _ => (32, 0x0000000E, 0x6)
  | .reservedOp8F _ _ => (32, 0x00000008, 0x8)
  | .blkStoredHdr _ => (3, 0b111, 0b000)
  | .blkFixedHdr => (3, 0b111, 0b010)
  | .blkFinalHdr => (3, 0b111, 0b110)
  | .lit000F _ => (8, 0b11110000, 0b00110000)
  | .lit104F _ => (8, 0b11000000, 0b01000000)
  | .lit508F _ => (8, 0b11000000, 0b10000000)
  | .lit909F _ => (9, 0b111110000, 0b110010000)
  | .litA0BF _ => (9, 0b111100000, 0b110100000)
  | .litC0FF _ => (9, 0b111000000, 0b111000000)
  | .eob => (7, 0b1111111, 0b0000000)
  | .len257271 _ _ => (7, 0b1110000, 0b0000000)
  | .len272279 _ _ => (7, 0b1111000, 0b0010000)
  | .len280285 _ _ => (8, 0b11111000, 0b11000000)
  | .dist _ _ => (5, 0b00000, 0b00000)

/-- The encoding of an instruction carries its row's fixed bits. -/
def Statement (i : Instr) : Prop :=
  match Sys2Proof.encode i with
  | .request r => (fixedBitsOf i).1 = 32 ∧ r.cw.toNat &&& (fixedBitsOf i).2.1 = (fixedBitsOf i).2.2
  | .element e => e.code.width = (fixedBitsOf i).1 ∧ e.code.value < 2 ^ e.code.width ∧
      e.code.value &&& (fixedBitsOf i).2.1 = (fixedBitsOf i).2.2

/-- The bits of a word under a mask of its low four bits are those of its opcode. -/
theorem and_low (cw : Word) (m : Nat) (hm : m < 16) : cw.toNat &&& m = (cwOp cw).toNat &&& m := by
  apply Nat.eq_of_testBit_eq
  intro k
  simp only [Nat.testBit_and, BitVec.testBit_toNat, cwOp, BitVec.getLsbD_extractLsb']
  by_cases h : k < 4
  · simp [h]
  · rw [Nat.testBit_lt_two_pow (lt_of_lt_of_le hm (Nat.pow_le_pow_right (by decide : 0 < 2) (by omega : 4 ≤ k)))]
    simp

theorem tblinit (rsvd : BitVec 28) : Statement (.tblinit rsvd) :=
  ⟨rfl, (and_low _ 0xF (by decide)).trans (by show _ = 0x1; rw [cwOp_wordTblinit]; decide)⟩
theorem init (en : BitVec 1) (fmt : BitVec 2) (rsvd : BitVec 25) : Statement (.init en fmt rsvd) :=
  ⟨rfl, (and_low _ 0xF (by decide)).trans (by show _ = 0x2; rw [cwOp_wordInit]; decide)⟩
theorem encode (more : BitVec 1) (rsvd : BitVec 27) (cap : Word) (data : List Byte) :
    Statement (.encode more rsvd cap data) :=
  ⟨rfl, (and_low _ 0xF (by decide)).trans (by show _ = 0x3; rw [cwOp_wordEncode]; decide)⟩
theorem finish (rsvd : BitVec 28) (cap : Word) : Statement (.finish rsvd cap) :=
  ⟨rfl, (and_low _ 0xF (by decide)).trans (by show _ = 0x4; rw [cwOp_wordFinish]; decide)⟩
theorem rdreg (rsvdLow reg : BitVec 4) (rsvdHigh : BitVec 20) : Statement (.rdreg rsvdLow reg rsvdHigh) :=
  ⟨rfl, (and_low _ 0xF (by decide)).trans (by show _ = 0x5; rw [cwOp_wordRdreg]; decide)⟩
theorem reservedOp0 (rest : BitVec 28) : Statement (.reservedOp0 rest) :=
  ⟨rfl, (and_low _ 0xF (by decide)).trans (by show _ = 0x0; rw [cwOp_wordReserved0]; decide)⟩
theorem reservedOp67 (low : BitVec 1) (rest : BitVec 28) : Statement (.reservedOp67 low rest) :=
  ⟨rfl, (and_low _ 0xE (by decide)).trans (by show _ = 0x6; rw [cwOp_wordReserved67]; clear rest; revert low; decide)⟩
theorem reservedOp8F (low : BitVec 3) (rest : BitVec 28) : Statement (.reservedOp8F low rest) :=
  ⟨rfl, (and_low _ 0x8 (by decide)).trans (by show _ = 0x8; rw [cwOp_wordReserved8F]; clear rest; revert low; decide)⟩
theorem blkStoredHdr (data : List Byte) : Statement (.blkStoredHdr data) :=
  ⟨rfl, show 0 < 2 ^ 3 by decide, show 0 &&& 7 = 0 by decide⟩
theorem blkFixedHdr : Statement .blkFixedHdr := ⟨rfl, by decide, rfl⟩
theorem blkFinalHdr : Statement .blkFinalHdr := ⟨rfl, by decide, rfl⟩
theorem lit000F (l : BitVec 4) : Statement (.lit000F l) := ⟨rfl, by revert l; decide, by revert l; decide⟩
theorem lit104F (l : BitVec 6) : Statement (.lit104F l) := ⟨rfl, by revert l; decide, by revert l; decide⟩
theorem lit508F (l : BitVec 6) : Statement (.lit508F l) := ⟨rfl, by revert l; decide, by revert l; decide⟩
theorem lit909F (l : BitVec 4) : Statement (.lit909F l) := ⟨rfl, by revert l; decide, by revert l; decide⟩
theorem litA0BF (l : BitVec 5) : Statement (.litA0BF l) := ⟨rfl, by revert l; decide, by revert l; decide⟩
theorem litC0FF (l : BitVec 6) : Statement (.litC0FF l) := ⟨rfl, by revert l; decide, by revert l; decide⟩
theorem eob : Statement .eob := ⟨rfl, by decide, rfl⟩
theorem len257271 (s : BitVec 4) (extra : BitVec 5) : Statement (.len257271 s extra) :=
  ⟨rfl, by show s.toNat < 2 ^ 7; omega, by show s.toNat &&& 0b1110000 = 0; revert s; decide⟩
theorem len272279 (s : BitVec 3) (extra : BitVec 5) : Statement (.len272279 s extra) :=
  ⟨rfl, by show 0b0010000 + s.toNat < 2 ^ 7; omega, by
    show (0b0010000 + s.toNat) &&& 0b1111000 = 0b0010000; revert s; decide⟩
theorem len280285 (s : BitVec 3) (extra : BitVec 5) : Statement (.len280285 s extra) :=
  ⟨rfl, by show 0b11000000 + s.toNat < 2 ^ 8; omega, by
    show (0b11000000 + s.toNat) &&& 0b11111000 = 0b11000000; revert s; decide⟩
theorem dist (d : BitVec 5) (extra : BitVec 13) : Statement (.dist d extra) :=
  ⟨rfl, d.isLt, Nat.and_zero _⟩

end Sys2Proof.Laws.RowPattern
end

