-- ==== Sys2Proof/Laws/Step.lean ====
section
/-! SUPPORT. Everything a step can do, and what a disturbing host leaves (70_reset R351). Proofs about steps cite these. -/

namespace Sys2Proof.Machine

/-- A step that answers a next state waited, ran an instruction, ran one the host disturbs, or was reset. -/
theorem step_cases {s t : State} (h : step s = .next t) :
    (s.inbox = [] ∧ t = s) ∨
    ∃ a rest, s.inbox = a :: rest ∧
      ((∃ x i, a = .issue x ∧ decode x = .ok i ∧ exec i (supplyOut i { s with inbox := rest }) = .next t) ∨
       (∃ d r, a = .issueDisturbed d r ∧ runDisturbed d r { s with inbox := rest } = .next t) ∨
       (a = .reset ∧ t = applyReset { s with inbox := rest }) ∨
       (∃ r, a = .resetDuring r ∧ t = applyResetDuring r { s with inbox := rest })) := by
  simp only [step, takeArrival] at h
  split at h
  · cases h; exact .inl ⟨‹_›, rfl⟩
  · rename_i a rest hin
    refine .inr ⟨a, rest, hin, ?_⟩
    cases a with
    | issue x =>
      simp only [arrive, runEncoding] at h
      split at h
      · exact .inl ⟨x, _, rfl, ‹_›, h⟩
      · cases h
    | issueDisturbed d r => exact .inr (.inl ⟨d, r, rfl, h⟩)
    | reset => cases h; exact .inr (.inr (.inl ⟨rfl, rfl⟩))
    | resetDuring r => cases h; exact .inr (.inr (.inr ⟨r, rfl, rfl⟩))

theorem mapNext_eq_next {f : State → State} {o : Host.Outcome State Fault Refusal} {t : State}
    (h : mapNext f o = .next t) : ∃ u, o = .next u ∧ t = f u := by
  cases o with
  | next u => cases h; exact ⟨u, rfl, rfl⟩
  | fault r => cases h
  | refused r => cases h

/-- A disturbed request that answers a next state: the host broke a duty, and its command ran on the bytes it read, its OUT
unspecified below CAP afterwards, or the host broke none, and the command ran as issued. -/
theorem runDisturbed_cases {d : Disturbance} {r : Request} {s t : State} (h : runDisturbed d r s = .next t) :
    ∃ i, decodeRequest r = .ok i ∧
      ((breaksDuties d i = true ∧ ∃ u, exec (asRead d s.freeCtr i) (supplyOut i s) = .next u ∧
        t = disturb ((capacityOf i).getD 0) u) ∨
      (breaksDuties d i = false ∧ exec i (supplyOut i s) = .next t)) := by
  simp only [runDisturbed] at h
  split at h
  · split at h
    · obtain ⟨u, hu, rfl⟩ := mapNext_eq_next h
      exact ⟨_, ‹_›, .inl ⟨‹_›, u, hu, rfl⟩⟩
    · rename_i hd hb
      exact ⟨_, hd, .inr ⟨by simpa using hb, h⟩⟩
  · cases h

/-- Only ENCODE and FINISH have buffers, so only towards them a duty can be broken. -/
theorem breaksDuties_cases {d : Disturbance} {i : Instr} (h : breaksDuties d i = true) :
    (∃ more rsvd cap data, i = .encode more rsvd cap data) ∨ ∃ rsvd cap, i = .finish rsvd cap := by
  cases i with
  | encode more rsvd cap data => exact .inl ⟨_, _, _, _, rfl⟩
  | finish rsvd cap => exact .inr ⟨_, _, rfl⟩
  | _ => simp [breaksDuties, inputOf, capacityOf] at h

/-! What a disturbing host leaves. -/

@[simp] theorem length_disturbedData (ctr n : Nat) : (disturbedData ctr n).length = n := by simp [disturbedData]

section fields
variable (cap : Nat) (t : State)

@[simp] theorem disturb_phase : (disturb cap t).phase = t.phase := by simp only [disturb]; split <;> rfl
@[simp] theorem disturb_level : (disturb cap t).level = t.level := by simp only [disturb]; split <;> rfl
@[simp] theorem disturb_format : (disturb cap t).format = t.format := by simp only [disturb]; split <;> rfl
@[simp] theorem disturb_totalIn : (disturb cap t).totalIn = t.totalIn := by simp only [disturb]; split <;> rfl
@[simp] theorem disturb_acc : (disturb cap t).acc = t.acc := by simp only [disturb]; split <;> rfl
@[simp] theorem disturb_cnt : (disturb cap t).cnt = t.cnt := by simp only [disturb]; split <;> rfl
@[simp] theorem disturb_hist : (disturb cap t).hist = t.hist := by simp only [disturb]; split <;> rfl
@[simp] theorem disturb_fault : (disturb cap t).fault = t.fault := by simp only [disturb]; split <;> rfl
@[simp] theorem disturb_lastCause : (disturb cap t).lastCause = t.lastCause := by simp only [disturb]; split <;> rfl
@[simp] theorem disturb_faultCmd : (disturb cap t).faultCmd = t.faultCmd := by simp only [disturb]; split <;> rfl
@[simp] theorem disturb_inbox : (disturb cap t).inbox = t.inbox := by simp only [disturb]; split <;> rfl
@[simp] theorem disturb_response : (disturb cap t).response = t.response := by simp only [disturb]; split <;> rfl
@[simp] theorem disturb_out : (disturb cap t).out = t.out.forgetBelow cap := by simp only [disturb]; split <;> rfl
@[simp] theorem disturb_cursor : (disturb cap t).cursor = t.cursor := by simp only [disturb]; split <;> rfl
@[simp] theorem disturb_policy : (disturb cap t).policy = t.policy := by simp only [disturb]; split <;> rfl
@[simp] theorem disturb_elementBytes : (disturb cap t).elementBytes = t.elementBytes := by simp only [disturb]; split <;> rfl
@[simp] theorem disturb_elementLen : (disturb cap t).elementLen = t.elementLen := by simp only [disturb]; split <;> rfl

end fields

/-! What the host supplies. -/

section fields
variable (i : Instr) (s : State)

@[simp] theorem supplyOut_phase : (supplyOut i s).phase = s.phase := by simp only [supplyOut]; split <;> rfl
@[simp] theorem supplyOut_level : (supplyOut i s).level = s.level := by simp only [supplyOut]; split <;> rfl
@[simp] theorem supplyOut_format : (supplyOut i s).format = s.format := by simp only [supplyOut]; split <;> rfl
@[simp] theorem supplyOut_cksum : (supplyOut i s).cksum = s.cksum := by simp only [supplyOut]; split <;> rfl
@[simp] theorem supplyOut_totalIn : (supplyOut i s).totalIn = s.totalIn := by simp only [supplyOut]; split <;> rfl
@[simp] theorem supplyOut_acc : (supplyOut i s).acc = s.acc := by simp only [supplyOut]; split <;> rfl
@[simp] theorem supplyOut_cnt : (supplyOut i s).cnt = s.cnt := by simp only [supplyOut]; split <;> rfl
@[simp] theorem supplyOut_hist : (supplyOut i s).hist = s.hist := by simp only [supplyOut]; split <;> rfl
@[simp] theorem supplyOut_fault : (supplyOut i s).fault = s.fault := by simp only [supplyOut]; split <;> rfl
@[simp] theorem supplyOut_lastCause : (supplyOut i s).lastCause = s.lastCause := by simp only [supplyOut]; split <;> rfl
@[simp] theorem supplyOut_faultCmd : (supplyOut i s).faultCmd = s.faultCmd := by simp only [supplyOut]; split <;> rfl
@[simp] theorem supplyOut_window : (supplyOut i s).window = s.window := by simp only [supplyOut]; split <;> rfl
@[simp] theorem supplyOut_hash : (supplyOut i s).hash = s.hash := by simp only [supplyOut]; split <;> rfl
@[simp] theorem supplyOut_inbox : (supplyOut i s).inbox = s.inbox := by simp only [supplyOut]; split <;> rfl
@[simp] theorem supplyOut_response : (supplyOut i s).response = s.response := by simp only [supplyOut]; split <;> rfl
@[simp] theorem supplyOut_cursor : (supplyOut i s).cursor = s.cursor := by simp only [supplyOut]; split <;> rfl
@[simp] theorem supplyOut_policy : (supplyOut i s).policy = s.policy := by simp only [supplyOut]; split <;> rfl
@[simp] theorem supplyOut_freeCtr : (supplyOut i s).freeCtr = s.freeCtr := by simp only [supplyOut]; split <;> rfl
@[simp] theorem supplyOut_elementBytes : (supplyOut i s).elementBytes = s.elementBytes := by simp only [supplyOut]; split <;> rfl
@[simp] theorem supplyOut_elementLen : (supplyOut i s).elementLen = s.elementLen := by simp only [supplyOut]; split <;> rfl
theorem supplyOut_out : (supplyOut i s).out = if (capacityOf i).isSome then [] else s.out := by
  simp only [supplyOut]; split <;> simp_all

end fields

end Sys2Proof.Machine
end

