-- ==== Sys2Proof/Tests/Slice0.lean ====
section
/-! SUPPORT. Our own tests. Every expected value is the spec's: a vector V<n> or program P<n> of 95_test_vectors.md, or a
word written out from opcode_table.json. Then one witness for each statement with hypotheses. -/

namespace Sys2Proof.Tests

open Sys2Proof Sys2Proof.Machine

/-! Helpers. -/

/-- The outcome is a next state of which `p` holds. -/
def nextIs (o : Host.Outcome State Fault Refusal) (p : State → Bool) : Bool :=
  match o with
  | .next t => p t
  | .fault _ => false
  | .refused _ => false

/-- The outcome is the refusal `notEmitted`. -/
def isNotEmitted (o : Host.Outcome State Fault Refusal) : Bool :=
  match o with
  | .next _ => false
  | .fault _ => false
  | .refused r => decide (r = .notEmitted)

theorem exists_of_nextIs {o : Host.Outcome State Fault Refusal} {p : State → Bool} (h : nextIs o p = true) :
    ∃ t, o = .next t ∧ p t = true := by
  cases o with
  | next t => exact ⟨t, rfl, h⟩
  | fault r => exact absurd h (by simp [nextIs])
  | refused r => exact absurd h (by simp [nextIs])

/-- OUT lists exactly these bytes, from offset 0 on. -/
def outIs (t : State) (l : List Byte) : Bool := decide (t.out = l.zipIdx.map fun c => (c.2, c.1))

/-- The response is OK with this RESULT. -/
def answers (t : State) (result : Word) : Bool := decide (t.response = some ⟨true, 0, result⟩)

/-- The command faulted: CAUSE, FAULTCMD, the FAULT register. -/
def faulted (t : State) (cause fault : BitVec 4) (cw : Word) : Bool :=
  decide (t.response = some ⟨false, cause, 0⟩ ∧ t.lastCause = cause ∧ t.fault = fault ∧ t.faultCmd = cw)

/-- A state right after INIT. -/
def idle (level : BitVec 1) (format : Format) : State :=
  { State.reset with phase := .idle, level := level, format := format, cksum := checksumSeed format }

/-- A state in the middle of a stream, at raw, with `cnt` pending zero bits. -/
def active (level : BitVec 1) (cnt : BitVec 3) : State := { idle level .raw with phase := .active, cnt := cnt }

/-- A state after FINISH. -/
def closed : State := { idle 1 .raw with phase := .closed }

/-- "a" ten times. -/
def tenAs : List Byte := List.replicate 10 0x61

/-- The bytes of "abcdefgh". -/
def abcdefgh : List Byte := [0x61, 0x62, 0x63, 0x64, 0x65, 0x66, 0x67, 0x68]

/-! WellFormed refuses an ill-formed term for each check, and accepts the boundary. -/

theorem test_wellFormed_encode_length : ∀ data : List Byte, data.length = 2 ^ 32 →
    (Instr.encode 0 0 0 data).wellFormed = false := by
  intro data h
  simp [Instr.wellFormed, h]
theorem test_wellFormed_stored_length :
    (Instr.blkStoredHdr (List.replicate 65536 0)).wellFormed = false ∧
    (Instr.blkStoredHdr (List.replicate 65535 0)).wellFormed = true := by
  simp only [Instr.wellFormed, List.length_replicate]
  decide
theorem test_wellFormed_len_eob : (Instr.len257271 0 0).wellFormed = false := by decide
theorem test_wellFormed_len_extra :
    (Instr.len257271 9 2).wellFormed = false ∧ (Instr.len257271 9 1).wellFormed = true := by decide
theorem test_wellFormed_len272_extra :
    (Instr.len272279 0 4).wellFormed = false ∧ (Instr.len272279 7 15).wellFormed = true := by decide
theorem test_wellFormed_284_31 :
    (Instr.len280285 4 31).wellFormed = false ∧ (Instr.len280285 4 30).wellFormed = true := by decide
theorem test_wellFormed_286_287 :
    (Instr.len280285 6 0).wellFormed = false ∧ (Instr.len280285 7 0).wellFormed = false := by decide
theorem test_wellFormed_285_extra : (Instr.len280285 5 1).wellFormed = false := by decide
theorem test_wellFormed_dist_30_31 :
    (Instr.dist 30 0).wellFormed = false ∧ (Instr.dist 31 0).wellFormed = false := by decide
theorem test_wellFormed_dist_extra :
    (Instr.dist 4 2).wellFormed = false ∧ (Instr.dist 29 8191).wellFormed = true := by decide

/-! Decoding: a word of every constructor, written out from its row of opcode_table.json. -/

theorem test_decode_tblinit : decodeTableWord 32 0x00000001 = some (.tblinit 0) := by decide
theorem test_decode_init : decodeTableWord 32 0x00000032 = some (.init 1 1 0) := by decide
theorem test_decode_encode :
    decode (.request ⟨0x00000013, [2, 16], [0x61, 0x62]⟩) = .ok (.encode 1 0 16 [0x61, 0x62]) := by decide
theorem test_decode_finish : decode (.request ⟨0x00000004, [0x10], []⟩) = .ok (.finish 0 16) := by decide
theorem test_decode_rdreg : decodeTableWord 32 0x00000605 = some (.rdreg 0 6 0) := by decide
theorem test_decode_reservedOp0 : decodeTableWord 32 0x12345670 = some (.reservedOp0 0x1234567) := by decide
theorem test_decode_reservedOp67 : decodeTableWord 32 0x00000006 = some (.reservedOp67 0 0) := by decide
theorem test_decode_reservedOp8F : decodeTableWord 32 0x000000FE = some (.reservedOp8F 6 0xF) := by decide
theorem test_decode_blkStoredHdr :
    decode (.element ⟨.header, ⟨3, 0b000⟩, ⟨0, 0⟩, [0x61]⟩) = .ok (.blkStoredHdr [0x61]) := by decide
theorem test_decode_blkFixedHdr : decodeTableWord 3 0b010 = some .blkFixedHdr := by decide
theorem test_decode_blkFinalHdr : decodeTableWord 3 0b110 = some .blkFinalHdr := by decide
theorem test_decode_lit000F : decodeTableWord 8 0b00111111 = some (.lit000F 0xF) := by decide
theorem test_decode_lit104F : decodeTableWord 8 0b01100000 = some (.lit104F 0b100000) := by decide
theorem test_decode_lit508F : decodeTableWord 8 0b10010001 = some (.lit508F 0x11) := by decide
theorem test_decode_lit909F : decodeTableWord 9 0b110010000 = some (.lit909F 0) := by decide
theorem test_decode_litA0BF : decodeTableWord 9 0b110110101 = some (.litA0BF 0b10101) := by decide
theorem test_decode_litC0FF : decodeTableWord 9 0b111111111 = some (.litC0FF 0x3F) := by decide
theorem test_decode_eob : decodeTableWord 7 0b0000000 = some .eob := by decide
theorem test_decode_len257271 :
    decode (.element ⟨.symbol, ⟨7, 0b0001001⟩, ⟨1, 1⟩, []⟩) = .ok (.len257271 9 1) := by decide
theorem test_decode_len272279 :
    decode (.element ⟨.symbol, ⟨7, 0b0010111⟩, ⟨4, 3⟩, []⟩) = .ok (.len272279 7 3) := by decide
theorem test_decode_len280285 : decodeTableWord 8 0b11000101 = some (.len280285 5 0) := by decide
theorem test_decode_dist :
    decode (.element ⟨.distance, ⟨5, 0b11101⟩, ⟨13, 8191⟩, []⟩) = .ok (.dist 29 8191) := by decide
/-- R118: symbols 286 and 287, distance codes 30 and 31, a final stored block, dynamic Huffman. -/
theorem test_decode_rejects :
    decodeTableWord 8 0b11000110 = none ∧ decodeTableWord 8 0b11000111 = none ∧ decodeTableWord 5 30 = none ∧
    decodeTableWord 5 31 = none ∧ decodeTableWord 3 0b100 = none ∧ decodeTableWord 3 0b001 = none := by decide
/-- R91: FINISH without its CAP, ENCODE with a byte too few, RDREG with an operand word. -/
theorem test_decode_rejects_records :
    decode (.request ⟨4, [], []⟩) = .rejected .operandCount ∧
    decode (.request ⟨3, [2, 9], [0x61]⟩) = .rejected .inputLength ∧
    decode (.request ⟨5, [0], []⟩) = .rejected .operandCount := by decide

/-! The step fetches what withFetchWord places. -/

theorem test_step_withFetchWord :
    nextIs (step (State.reset.withFetchWord 32 0x00000052)) (fun t => decide (t.phase = .idle ∧ t.format = .gzip)) =
      true := by decide

/-! Commands: V1 to V12, V20 to V22, V31 to V33, V60 to V74, P1. -/

/-- V6. -/
theorem test_tblinit : nextIs (exec (.tblinit 0) closed) (fun t => answers t 0 && decide (t.phase = .closed)) = true := by
  decide
/-- V62. -/
theorem test_tblinit_bit4 : nextIs (exec (.tblinit 1) (idle 1 .raw)) (fun t => faulted t 1 1 0x00000011) = true := by decide
/-- V4, the zlib row: STATUS 0x0D. -/
theorem test_init_zlib :
    nextIs (exec (.init 1 1 0) State.reset) (fun t => decide (viewStatus t = 0x0000000D ∧ t.cksum = 1)) = true := by decide
/-- V69: ILLEGAL outranks BAD_FORMAT. -/
theorem test_init_illegal_first : nextIs (exec (.init 1 3 1) State.reset) (fun t => faulted t 1 1 0x000000F2) = true := by
  decide
/-- V20. -/
theorem test_encode_a :
    nextIs (exec (.encode 1 0 16 [0x61]) (idle 1 .raw))
      (fun t => answers t 2 && outIs t [0x4A, 0x04] && decide (t.acc = 0 ∧ t.cnt = 2 ∧ t.phase = .active)) = true := by
  decide +kernel
/-- V22: an overlapping copy. -/
theorem test_encode_tenAs :
    nextIs (exec (.encode 0 0 16 tenAs) (idle 1 .raw))
      (fun t => answers t 3 && outIs t [0x4A, 0x84, 0x03] && decide (t.cnt = 6)) = true := by
  decide +kernel
/-- P1, step 7: the FINISH of a zlib stream with one pending zero bit. -/
theorem test_finish_zlib :
    nextIs (exec (.finish 0 16) { idle 1 .zlib with phase := .active, cnt := 1, cksum := 0x1DE00499 })
      (fun t => answers t 6 && outIs t [0x06, 0x00, 0x1D, 0xE0, 0x04, 0x99] && decide (t.phase = .closed)) = true := by
  decide +kernel
/-- V73: the bound of a gzip FINISH in IDLE is 21. -/
theorem test_finish_capacity :
    nextIs (exec (.finish 0 20) (idle 1 .gzip)) (fun t => faulted t 4 8 0x00000004) = true ∧
    nextIs (exec (.finish 0 21) (idle 1 .gzip)) (fun t => answers t 20) = true := by
  decide +kernel
/-- P1, step 4: two pending bits. -/
theorem test_rdreg_bits : nextIs (exec (.rdreg 0 6 0) (active 1 2)) (fun t => answers t 0x00000200) = true := by decide
/-- V67. -/
theorem test_rdreg_8 : nextIs (exec (.rdreg 0 8 0) State.reset) (fun t => faulted t 1 1 0x00000805) = true := by decide
/-- V60. -/
theorem test_reservedOp0 : nextIs (exec (.reservedOp0 0) State.reset) (fun t => faulted t 1 1 0) = true := by decide
/-- V61. -/
theorem test_reservedOp67 : nextIs (exec (.reservedOp67 0 0) (idle 1 .raw)) (fun t => faulted t 1 1 6) = true := by decide
/-- R98, R312: FAULT keeps its other bits. -/
theorem test_reservedOp8F :
    nextIs (exec (.reservedOp8F 7 0) { closed with fault := 0x4, lastCause := 3 }) (fun t => faulted t 1 5 0xF) = true := by
  decide

/-! Output elements: the codes of V29 and V36, packed from an empty accumulator or after pending bits. -/

/-- V21's block: 000 and padding, LEN, NLEN, the byte. -/
theorem test_blkStoredHdr :
    nextIs (exec (.blkStoredHdr [0x61]) State.reset) (fun t => outIs t [0x00, 0x01, 0x00, 0xFE, 0xFF, 0x61]) = true := by
  decide +kernel
/-- PutBits(0b010, 3). -/
theorem test_blkFixedHdr : nextIs (exec .blkFixedHdr State.reset) (fun t => decide (t.acc = 0b010 ∧ t.cnt = 3)) = true := by
  decide +kernel
/-- PutBits(0b011, 3): BFINAL lies lowest. -/
theorem test_blkFinalHdr : nextIs (exec .blkFinalHdr State.reset) (fun t => decide (t.acc = 0b011 ∧ t.cnt = 3)) = true := by
  decide +kernel
/-- Symbol 0 is 00110000. -/
theorem test_lit000F : nextIs (exec (.lit000F 0) State.reset) (fun t => outIs t [0x0C] && decide (t.cnt = 0)) = true := by
  decide +kernel
/-- Byte 0x10 is 01000000. -/
theorem test_lit104F : nextIs (exec (.lit104F 0) State.reset) (fun t => outIs t [0x02]) = true := by decide +kernel
/-- 42_bit_packer R214: PutHuff(0x61) is PutBits(0x89, 8). -/
theorem test_lit508F : nextIs (exec (.lit508F 0x11) State.reset) (fun t => outIs t [0x89]) = true := by decide +kernel
/-- V29: symbol 144 is 110010000. -/
theorem test_lit909F : nextIs (exec (.lit909F 0) State.reset) (fun t => outIs t [0x13] && decide (t.cnt = 1)) = true := by
  decide +kernel
/-- Byte 0xA0 is 110100000. -/
theorem test_litA0BF : nextIs (exec (.litA0BF 0) State.reset) (fun t => outIs t [0x0B] && decide (t.acc = 0)) = true := by
  decide +kernel
/-- V29: symbol 255 is nine ones. -/
theorem test_litC0FF :
    nextIs (exec (.litC0FF 0x3F) State.reset) (fun t => outIs t [0xFF] && decide (t.acc = 1 ∧ t.cnt = 1)) = true := by
  decide +kernel
/-- 42_bit_packer R214: PutHuff(256) packs 7 zero bits. -/
theorem test_eob : nextIs (exec .eob (active 1 2)) (fun t => outIs t [0x00] && decide (t.acc = 0 ∧ t.cnt = 1)) = true := by
  decide +kernel
/-- 42_bit_packer R219: symbol 263 is PutBits(0x70, 7). -/
theorem test_len257271 : nextIs (exec (.len257271 7 0) State.reset) (fun t => decide (t.acc = 0x70 ∧ t.cnt = 7)) = true := by
  decide +kernel
/-- Symbol 272 is 0010000, then 2 extra bits, least significant first (30_encoding R113, k = 15). -/
theorem test_len272279 :
    nextIs (exec (.len272279 0 0b001) State.reset) (fun t => outIs t [0x84] && decide (t.acc = 0 ∧ t.cnt = 1)) = true := by
  decide +kernel
/-- 42_bit_packer R214: PutHuff(285) is PutBits(0xA3, 8). -/
theorem test_len280285 : nextIs (exec (.len280285 5 0) State.reset) (fun t => outIs t [0xA3]) = true := by decide +kernel
/-- 42_bit_packer R219: distance 32768 is PutBits(0x17, 5), PutBits(8191, 13), after a stream that long (R118). -/
theorem test_dist :
    nextIs (exec (.dist 29 8191) { State.reset with hist := 32768 }) (fun t => outIs t [0xF7, 0xFF] && decide (t.acc = 3 ∧ t.cnt = 2)) = true := by
  decide +kernel
/-- R118: what is never emitted is refused. -/
theorem test_notEmitted :
    isNotEmitted (exec (.len280285 6 0) State.reset) && isNotEmitted (exec (.dist 30 0) State.reset) &&
      isNotEmitted (exec (.len257271 0 0) State.reset) && isNotEmitted (exec (.len272279 0 8) State.reset) = true := by
  decide
/-- R118: a distance greater than the bytes emitted so far; a literal run before it is one such byte. -/
theorem test_dist_beyond :
    isNotEmitted (exec (.dist 0 0) State.reset) &&
      nextIs (execAll [.lit508F 0x11, .len257271 1 0, .dist 0 0] State.reset) (fun t => decide (t.elementBytes = 4)) = true := by
  decide +kernel
theorem test_notEmitted_stored (s : State) :
    exec (.blkStoredHdr (List.replicate 65536 0)) s = .refused .notEmitted := by
  simp only [exec, execBlkStoredHdr, List.length_replicate]
  rfl

/-! The match finder, the checksums, reset. -/

/-- V24. -/
theorem test_hash :
    hashOf 0x61616161 = 1190 ∧ hashOf 0x64636261 = 3169 ∧ hashOf 0x68676161 = 6859 ∧ hashOf 0x61626261 = 6859 := by
  decide
/-- V23. -/
theorem test_tokens_abc4 :
    (chooseTokens (abcdefgh.take 4 ++ abcdefgh.take 4) (idle 1 .raw)).1 =
      [.lit 0x61, .lit 0x62, .lit 0x63, .lit 0x64, .copy 4 4] := by decide +kernel
/-- V23: the last three bytes are not looked up. -/
theorem test_tokens_abcabc :
    (chooseTokens (abcdefgh.take 3 ++ abcdefgh.take 3) (idle 1 .raw)).1 =
      [.lit 0x61, .lit 0x62, .lit 0x63, .lit 0x61, .lit 0x62, .lit 0x63] := by decide +kernel
/-- V36. -/
theorem test_tokenBits :
    tokenBits (.copy 130 1000) = 25 ∧ tokenBits (.copy 258 32768) = 26 ∧ tokenBits (.copy 257 1) = 18 := by decide +kernel
/-- V5, R340: reset from a state in the middle of a stream, with a fault latched. -/
theorem test_reset :
    nextIs (step { active 1 2 with fault := 4, lastCause := 3, faultCmd := 3, totalIn := 9, inbox := [.reset] })
      (fun t => decide (t = State.reset)) = true := by decide

/-! Witnesses: for each statement with hypotheses, states and operands that meet them all. -/

theorem witness_DecodeOfEncodeIsTheInstruction :
    (Instr.encode 1 5 9 [0x61]).wellFormed = true ∧ (Instr.len280285 4 30).wellFormed = true := by decide
theorem witness_EncodeOfDecodeIsTheEncoding :
    decode (.request ⟨0x00000053, [1, 9], [0x61]⟩) = .ok (.encode 1 2 9 [0x61]) ∧
    decode (.element ⟨.distance, ⟨5, 4⟩, ⟨1, 1⟩, []⟩) = .ok (.dist 4 1) := by decide
theorem witness_OpcodeAloneSettlesTheRecord :
    (∃ i, decodeRequest ⟨3, [1, 0], [0x61]⟩ = .ok i) ∧ (∃ i, decodeRequest ⟨4, [0], []⟩ = .ok i) ∧
    (∃ i, decodeRequest ⟨0xF, [], []⟩ = .ok i) := ⟨⟨_, rfl⟩, ⟨_, rfl⟩, ⟨_, rfl⟩⟩
theorem witness_AssembledWordsDecode :
    ([] : List Byte).length = (0 : Word).toNat ∧ [(0x61 : Byte)].length = (1 : Word).toNat := by decide
theorem witness_TokenRowsCarryTheFixedCodes :
    (3 ≤ 3 ∧ 3 ≤ 258) ∧ (3 ≤ 258 ∧ 258 ≤ 258) ∧ (1 ≤ 1 ∧ 1 ≤ 32768) ∧ (1 ≤ 32768 ∧ 32768 ≤ 32768) := by decide
theorem witness_FixedCodesArePrefixFree :
    287 ≤ 287 ∧ huffLen 287 ≤ huffLen 287 ∧ huffCode 287 / 2 ^ (huffLen 287 - huffLen 287) = huffCode 287 := by decide
theorem witness_PutHuffPacksTheCodeMsbFirst : 287 ≤ 287 ∧ (⟨0x7F, 7, [0x61]⟩ : Packer).settled := by
  refine ⟨by decide, by decide, by decide⟩

/-- A state in the middle of a stream meets the invariant. -/
theorem inv_active (level : BitVec 1) (cnt : BitVec 3) : Inv (active level cnt) where
  outWf := rfl
  windowWf := rfl
  windowBelow := rfl
  hashWf := rfl
  hashBelow := rfl
  histLe := by simp [active, idle, State.reset]
  histTotal := .inr rfl
  accSettled := by simp [active, idle, State.reset]
  uninit := by simp [active]
  idle := by simp [active]
  closed := by simp [active]
  causeLe := by simp [active, idle, State.reset]
  noFault := fun _ => ⟨rfl, rfl⟩
  lastLatched := by simp [active, idle, State.reset]
  noElement := ⟨rfl, rfl⟩
  fromHost := rfl

theorem witness_StepKeepsTheInvariant : ∃ s t : State, Inv s ∧ step s = .next t ∧ t.phase = .closed := by
  have h : nextIs (step { active 1 2 with inbox := [.issue (.request ⟨4, [3], []⟩)] })
      (fun t => decide (t.phase = .closed)) = true := by decide +kernel
  obtain ⟨t, ht, hp⟩ := exists_of_nextIs h
  have hi := inv_active 1 2
  exact ⟨{ active 1 2 with inbox := [.issue (.request ⟨4, [3], []⟩)] }, t, ⟨hi.outWf, hi.windowWf, hi.windowBelow, hi.hashWf, hi.hashBelow, hi.histLe, hi.histTotal, hi.accSettled,
    by simp [active], by simp [active], by simp [active], hi.causeLe, hi.noFault, hi.lastLatched,
    hi.noElement, rfl⟩, ht, by simpa using hp⟩

theorem witness_AdlerSumsStayReduced : ∃ s t : State, AdlerReduced s ∧ s.format = .zlib ∧
    (∀ d r rest, s.inbox ≠ .issueDisturbed d r :: rest) ∧ step s = .next t := by
  have h : nextIs (step { idle 1 .zlib with inbox := [.issue (.request ⟨3, [1, 99], [0xFF]⟩)] }) (fun _ => true) = true := by
    decide +kernel
  obtain ⟨t, ht, -⟩ := exists_of_nextIs h
  exact ⟨_, t, by unfold AdlerReduced; decide, rfl, by simp, ht⟩

theorem witness_ResetAppliesFromAnyState : ({ active 1 2 with inbox := [.reset] } : State).inbox = .reset :: [] := rfl
theorem witness_ResetDuringACommand :
    decodeRequest ⟨3, [1, 9], [0x61]⟩ = .ok (.encode 0 0 9 [0x61]) ∧ decodeRequest ⟨4, [9], []⟩ = .ok (.finish 0 9) ∧
    decodeRequest ⟨1, [], []⟩ = .ok (.tblinit 0) ∧ decodeRequest ⟨0x72, [], []⟩ = .ok (.init 1 3 0) ∧
    decodeRequest ⟨0x705, [], []⟩ = .ok (.rdreg 0 7 0) ∧ decodeRequest ⟨0xF, [], []⟩ = .ok (.reservedOp8F 7 0) ∧
    ({ active 1 2 with inbox := [.resetDuring ⟨1, [], []⟩] } : State).inbox = .resetDuring ⟨1, [], []⟩ :: [] := by decide
theorem witness_WaitingHoldsTheState : State.reset.inbox = [] := rfl
theorem witness_StepRunsTheDecodedInstruction :
    ({ State.reset with inbox := [.issue (.request ⟨1, [], []⟩)] } : State).inbox = .issue (.request ⟨1, [], []⟩) :: [] ∧
    decode (.request ⟨1, [], []⟩) = .ok (.tblinit 0) := by decide
theorem witness_MalformedArrivalsStopByName :
    ({ State.reset with inbox := [.issue (.request ⟨1, [7], []⟩)] } : State).inbox =
      .issue (.request ⟨1, [7], []⟩) :: [] ∧
    decode (.request ⟨1, [7], []⟩) = .rejected .operandCount := by decide
theorem witness_ReservedOpcodesFaultIllegal :
    (0xABC0#32).extractLsb' 0 4 = 0x0#4 ∧ 0x6#4 ≤ (0x6#32).extractLsb' 0 4 ∧ 0x6#4 ≤ (0xF#32).extractLsb' 0 4 := by decide
theorem witness_ReservedBitsFaultIllegal :
    (decodeRequest ⟨0x00000011, [], []⟩ = .ok (.tblinit 1) ∧ 0x11#32 &&& 0xFFFFFFFF#32 ≠ 0x00000001#32) ∧
    (decodeRequest ⟨0x00000082, [], []⟩ = .ok (.init 0 0 1) ∧ 0x82#32 &&& 0xFFFFFF8F#32 ≠ 0x00000002#32) ∧
    (decodeRequest ⟨0x00000023, [0, 0], []⟩ = .ok (.encode 0 1 0 []) ∧ 0x23#32 &&& 0xFFFFFFEF#32 ≠ 0x00000003#32) ∧
    (decodeRequest ⟨0x80000004, [0], []⟩ = .ok (.finish 0x8000000 0) ∧ 0x80000004#32 &&& 0xFFFFFFFF#32 ≠ 0x00000004#32) ∧
    (decodeRequest ⟨0x00001005, [], []⟩ = .ok (.rdreg 0 0 1) ∧ 0x1005#32 &&& 0xFFFFF0FF#32 ≠ 0x00000005#32) := by decide
theorem witness_TblinitHasNoEffect : (1 : BitVec 28) ≠ 0 := by decide
theorem witness_EncodeAndFinishWithoutAStreamFaultUsage :
    (State.reset.phase = .uninit ∨ State.reset.phase = .closed) ∧ (closed.phase = .uninit ∨ closed.phase = .closed) := by
  decide
theorem witness_TooSmallCapacityFaultsOutCapacity :
    (idle 1 .gzip).phase = .idle ∧ (15 : Word).toNat < worstEnc (idle 1 .gzip) [(0x61 : Byte)].length ∧
    (20 : Word).toNat < worstFin (idle 1 .gzip) ∧ (active 1 2).phase = .active ∧
    (6 : Word).toNat < worstEnc (active 1 2) [(0x61 : Byte)].length ∧ (2 : Word).toNat < worstFin (active 1 2) := by decide
theorem witness_FaultPriority :
    (1 : BitVec 25) ≠ 0 ∧ (1 : BitVec 27) ≠ 0 ∧ (1 : BitVec 28) ≠ 0 ∧ closed.phase = .closed ∧
    (0 : Word).toNat < worstEnc closed [(0x61 : Byte)].length ∧ (0 : Word).toNat < worstFin closed := by decide
theorem witness_CommandsAnswerAndFaultsChangeNothingElse : (Instr.reservedOp8F 0 0).isCommand = true := rfl
theorem witness_FaultBitsAreSticky : ∃ s t : State, step s = .next t ∧ (∀ rest, s.inbox ≠ .reset :: rest) ∧
    (∀ r rest, s.inbox ≠ .resetDuring r :: rest) ∧ s.fault = 4 := by
  have h : nextIs (step { State.reset with fault := 4, inbox := [.issue (.request ⟨0, [], []⟩)] }) (fun _ => true) = true := by
    decide
  obtain ⟨t, ht, -⟩ := exists_of_nextIs h
  exact ⟨_, t, ht, by simp, by simp, rfl⟩
theorem witness_OnlyFaultsAndResetWriteLastCause :
    (∃ s t : State, step s = .next t ∧ t.lastCause ≠ s.lastCause) ∧
    (∃ s t : State, step s = .next t ∧ t.faultCmd ≠ s.faultCmd ∧ s.inbox = .reset :: []) := by
  have h : nextIs (step { State.reset with inbox := [.issue (.request ⟨0, [], []⟩)] }) (fun t => decide (t.lastCause = 1)) =
    true := by decide
  have h' : nextIs (step { State.reset with faultCmd := 3, inbox := [.reset] }) (fun t => decide (t.faultCmd = 0)) = true := by
    decide
  obtain ⟨t, ht, hp⟩ := exists_of_nextIs h
  obtain ⟨t', ht', hp'⟩ := exists_of_nextIs h'
  simp only [decide_eq_true_eq] at hp hp'
  exact ⟨⟨_, t, ht, by rw [hp]; decide⟩, _, t', ht', by rw [hp']; decide, rfl⟩
theorem witness_FaultsDependOnlyOnWordStateFormatLenCap :
    (active 1 2).phase = (active 0 5).phase ∧ (active 1 2).format = (active 0 5).format ∧
    [(0x61 : Byte)].length = [(0xFF : Byte)].length ∧ (Instr.finish 0 3).isCommand = true := by decide
theorem witness_OnlyRdregReadsTheFaultRegisters :
    (∀ a b c, Instr.tblinit 0 ≠ .rdreg a b c) ∧ ∃ t, exec (.tblinit 0) State.reset = .next t := ⟨by simp, _, rfl⟩
theorem witness_InitStartsAStream :
    ((0 : BitVec 2) = 0 ∧ Format.raw = .raw) ∧ ((1 : BitVec 2) = 1 ∧ Format.zlib = .zlib) ∧
    ((2 : BitVec 2) = 2 ∧ Format.gzip = .gzip) := by decide
theorem witness_EncodeCompletes :
    (idle 1 .gzip).phase = .idle ∧ worstEnc (idle 1 .gzip) [(0x61 : Byte)].length ≤ (17 : Word).toNat ∧
    (active 0 2).phase = .active ∧ worstEnc (active 0 2) ([] : List Byte).length ≤ (0 : Word).toNat := by decide
theorem witness_EncodeOfNothingEmitsAtMostTheHeader :
    (active 1 2).phase = .active ∧ (idle 1 .gzip).phase = .idle ∧ worstEnc (idle 1 .gzip) 0 ≤ (10 : Word).toNat := by decide
theorem witness_MoreHasNoEffect :
    (∃ t, exec (.encode 0 0 7 [0x61]) (active 1 2) = .next t) ∧ ∃ t, exec (.encode 0 0 0 [0x61]) (active 1 2) = .next t :=
  ⟨⟨_, rfl⟩, _, rfl⟩
theorem witness_ResultStaysWithinTheWorstCase :
    (∃ t, exec (.encode 0 0 7 [0x61]) (active 1 2) = .next t ∧ t.response = some ⟨true, 0, 2⟩) ∧
    ∃ t, exec (.finish 0 3) (active 1 7) = .next t ∧ t.response = some ⟨true, 0, 3⟩ := by
  have h : nextIs (exec (.encode 0 0 7 [0x61]) (active 1 2)) (fun t => answers t 2) = true := by decide +kernel
  have h' : nextIs (exec (.finish 0 3) (active 1 7)) (fun t => answers t 3) = true := by decide +kernel
  obtain ⟨t, ht, hp⟩ := exists_of_nextIs h
  obtain ⟨t', ht', hp'⟩ := exists_of_nextIs h'
  exact ⟨⟨t, ht, by simpa [answers] using hp⟩, t', ht', by simpa [answers] using hp'⟩
theorem witness_LevelZeroStoresTheChunk :
    (active 0 6).phase = .active ∧ (active 0 6).level = 0 ∧ [(0x61 : Byte)] ≠ [] ∧
    worstEnc (active 0 6) [(0x61 : Byte)].length ≤ (7 : Word).toNat ∧
    (idle 0 .gzip).phase = .idle ∧ (idle 0 .gzip).level = 0 ∧ List.replicate 65536 (0 : Byte) ≠ [] ∧
    worstEnc (idle 0 .gzip) (List.replicate 65536 (0 : Byte)).length ≤ (65557 : Word).toNat := by
  simp only [List.length_replicate, ne_eq, List.replicate_eq_nil_iff]
  decide

/-- The 31 bytes 0x90 to 0xAE: no match, and 31 literals of 9 bits cost more than a stored block. -/
def dear : List Byte := (List.range 31).map fun k => BitVec.ofNat 8 (0x90 + k)

theorem witness_LevelOneStoresTheChunkWhereCheaper :
    (idle 1 .zlib).phase = .idle ∧ (idle 1 .zlib).level = 1 ∧ dear ≠ [] ∧
    worstEnc (idle 1 .zlib) dear.length ≤ (39 : Word).toNat ∧
    storedBits dear.length (idle 1 .zlib).cnt.toNat < fixedBits (chooseTokens dear (idle 1 .zlib)).1 ∧
    (active 1 5).phase = .active ∧ worstEnc (active 1 5) dear.length ≤ (37 : Word).toNat ∧
    storedBits dear.length (active 1 5).cnt.toNat < fixedBits (chooseTokens dear (active 1 5)).1 := by decide +kernel
theorem witness_StoredBlocksSplitTheChunk : [(0x61 : Byte)] ≠ [] := by decide
theorem witness_BlocksPackTheirBitCounts : (⟨0, 7, []⟩ : Packer).c < 8 ∧ 1 ≤ [(0x61 : Byte)].length := by decide
theorem witness_EncodeTakesTheCheaperBlock :
    (active 1 2).phase = .active ∧ [(0xFF : Byte)] ≠ [] ∧ worstEnc (active 1 2) [(0xFF : Byte)].length ≤ (7 : Word).toNat := by
  decide
theorem witness_FinishClosesTheStream :
    (idle 1 .gzip).phase = .idle ∧ worstFin (idle 1 .gzip) ≤ (21 : Word).toNat ∧
    (idle 1 .gzip).acc.toNat < 2 ^ (idle 1 .gzip).cnt.toNat ∧ (active 1 7).phase = .active ∧
    worstFin (active 1 7) ≤ (3 : Word).toNat ∧ (active 1 7).acc.toNat < 2 ^ (active 1 7).cnt.toNat := by decide
theorem witness_EmptyStreams : 21 ≤ (21 : Word).toNat := by decide
theorem witness_RdregReturnsTheViews : (7 : BitVec 4).toNat < 8 ∧ 8 ≤ (8 : BitVec 4).toNat := by decide
theorem witness_StateTransitions :
    (Instr.finish 0 3).isCommand = true ∧ State.reset.phase = .uninit ∧ closed.phase = .closed := by decide
theorem witness_PolicyDecidesTokensOnly :
    (∃ t, exec (.encode 0 0 7 [0x61]) (active 1 2) = .next t) ∧
    ((∃ t, exec (.encode 0 0 7 [0x61]) (active 0 2) = .next t) ∧ (active 0 2).level = 0) ∧
    (∀ more rsvd cap data, Instr.finish 0 3 ≠ .encode more rsvd cap data) ∧
    ∃ t, exec (.finish 0 3) (active 1 2) = .next t :=
  ⟨⟨_, rfl⟩, ⟨⟨_, rfl⟩, rfl⟩, by simp, _, rfl⟩
theorem witness_TokensMeetTheContract :
    (idle 1 .raw).policy = .reference ∧ Token.copy 9 1 ∈ (chooseTokens tenAs (idle 1 .raw)).1 ∧
    tokenAt (chooseTokens tenAs (idle 1 .raw)).1 0 (.lit 0x61) ∧
    tokenAt (chooseTokens tenAs (idle 1 .raw)).1 1 (.copy 9 1) ∧
    usesCandidate tenAs (idle 1 .raw) 1 ⟨true, 0⟩ ∧ ¬ usesCandidate tenAs (idle 1 .raw) 0 ⟨false, 0⟩ := by
  have h : (chooseTokens tenAs (idle 1 .raw)).1 = [.lit 0x61, .copy 9 1] := by decide +kernel
  rw [h]
  refine ⟨rfl, by simp, ⟨[], [.copy 9 1], rfl, rfl⟩, ⟨[.lit 0x61], [], rfl, rfl⟩, ?_, ?_⟩
  · unfold usesCandidate sameByte
    decide +kernel
  · unfold usesCandidate
    simp

/-- A state whose WINDOW holds two bytes of a stream, across the wrap of TOTAL_IN. -/
def held : State := { active 1 2 with hist := 2, totalIn := 1, window := [(0, 0x62), (32767, 0x61)] }

theorem windowHolds_held : windowHolds held [0x62, 0x61] := by
  refine ⟨by decide, fun k h1 h2 => ?_⟩
  have h2' : k ≤ 2 := h2
  obtain rfl | rfl : k = 1 ∨ k = 2 := by omega
  · decide
  · decide

theorem witness_TokensDecodeToTheChunk : windowHolds held [0x62, 0x61] := windowHolds_held
theorem witness_WindowHoldsTheStream :
    windowHolds held [0x62, 0x61] ∧
    ∃ t, exec (.encode 0 0 7 [0x63]) held = .next t ∧ t.response = some ⟨true, 0, 2⟩ := by
  have h : nextIs (exec (.encode 0 0 7 [0x63]) held) (fun t => answers t 2) = true := by decide +kernel
  obtain ⟨t, ht, hp⟩ := exists_of_nextIs h
  exact ⟨windowHolds_held, t, ht, by simpa [answers] using hp⟩
theorem witness_EncodeWritesItsChunkIntoWindow :
    held.phase = .active ∧ [(0x63 : Byte)] ≠ [] ∧ worstEnc held [(0x63 : Byte)].length ≤ (7 : Word).toNat ∧
    0 < [(0x63 : Byte)].length ∧ [(0x63 : Byte)].length ≤ 0 + 32768 ∧ (held.totalIn.toNat + 0) % 32768 ≠ 0 := by decide
theorem witness_EncodeKeysOnlyItsChunk :
    held.phase = .active ∧ held.level = 1 ∧ held.policy = .reference ∧ 4 ≤ tenAs.length ∧
    worstEnc held tenAs.length ≤ (16 : Word).toNat := by decide
theorem witness_UnspecifiedWindowBytesAreNotRead : held.policy = .reference ∧
    (∀ k : Nat, 1 ≤ k → k ≤ held.hist.toNat →
      winRead [(0, 0x62), (1, 0x7A), (32767, 0x61)] (((held.totalIn.toNat : Int) - (k : Int)) % 32768).toNat =
        winRead held.window (((held.totalIn.toNat : Int) - (k : Int)) % 32768).toNat) ∧
    ∃ t, exec (.encode 0 0 7 [0x63]) held = .next t := by
  refine ⟨rfl, fun k h1 h2 => ?_, _, rfl⟩
  have h2' : k ≤ 2 := h2
  obtain rfl | rfl : k = 1 ∨ k = 2 := by omega
  · decide
  · decide
theorem witness_ChunkBoundariesDoNotMatter : ∃ (s t u v : State) (r r' r'' : Word),
    exec (.encode 0 0 9 [0x61]) s = .next t ∧ t.response = some ⟨true, 0, r⟩ ∧
    exec (.encode 0 0 9 [0x62]) t = .next u ∧ u.response = some ⟨true, 0, r'⟩ ∧
    exec (.encode 0 0 9 ([0x61] ++ [0x62])) s = .next v ∧ v.response = some ⟨true, 0, r''⟩ := by
  refine ⟨active 0 0, _, _, _, 6, 6, 7, rfl, ?_, rfl, ?_, rfl, ?_⟩ <;> decide +kernel
theorem witness_ElementsPackTheirBits :
    (Instr.dist 29 8191).wellFormed = true ∧
    encode (.dist 29 8191) = .element ⟨.distance, ⟨5, 29⟩, ⟨13, 8191⟩, []⟩ ∧
    (∀ data, Instr.dist 29 8191 ≠ .blkStoredHdr data) ∧ (active 1 7).acc.toNat < 2 ^ (active 1 7).cnt.toNat ∧
    (∀ d extra, Instr.dist 29 8191 = .dist d extra →
      distBase d.toNat + extra.toNat ≤ ({ active 1 7 with hist := 32768 } : State).hist.toNat + (active 1 7).elementBytes) :=
  ⟨by decide, by decide, by simp, by decide, fun d extra h => by cases h; decide⟩
theorem witness_StoredElementPacksItsBlock :
    ([] : List Byte).length ≤ 65535 ∧ (List.replicate 65535 (0 : Byte)).length ≤ 65535 ∧
    (active 1 7).acc.toNat < 2 ^ (active 1 7).cnt.toNat := by
  simp only [List.length_replicate]
  decide
theorem witness_NeverEmittedElementsAreRefused :
    (Instr.dist 30 0).isCommand = false ∧ (Instr.dist 30 0).wellFormed = false ∧
    State.reset.hist.toNat + State.reset.elementBytes < distBase (0 : BitVec 5).toNat + (0 : BitVec 13).toNat := by decide
theorem witness_FixedBlockIsItsTableRows :
    (active 1 6).phase = .active ∧ (active 1 6).level = 1 ∧ tenAs ≠ [] ∧ worstEnc (active 1 6) tenAs.length ≤ (16 : Word).toNat ∧
    (active 1 6).acc.toNat < 2 ^ (active 1 6).cnt.toNat ∧
    fixedBits (chooseTokens tenAs (active 1 6)).1 ≤ storedBits tenAs.length (active 1 6).cnt.toNat ∧
    (idle 1 .gzip).phase = .idle ∧ worstEnc (idle 1 .gzip) tenAs.length ≤ (26 : Word).toNat ∧
    (idle 1 .gzip).acc.toNat < 2 ^ (idle 1 .gzip).cnt.toNat ∧
    fixedBits (chooseTokens tenAs (idle 1 .gzip)).1 ≤ storedBits tenAs.length (idle 1 .gzip).cnt.toNat := by decide +kernel
theorem witness_DisturbedEncodeStillCompletes :
    ({ active 1 2 with inbox := [.issueDisturbed .both ⟨3, [1, 7], [0x61]⟩] } : State).inbox =
      .issueDisturbed .both ⟨3, [1, 7], [0x61]⟩ :: [] ∧
    ({ active 1 2 with inbox := [.issueDisturbed .outOnly ⟨3, [0, 0], []⟩] } : State).inbox =
      .issueDisturbed .outOnly ⟨3, [0, 0], []⟩ :: [] ∧
    decodeRequest ⟨3, [0, 0], []⟩ = .ok (.encode 0 0 0 []) ∧ worstEnc (active 1 2) 0 ≤ (0 : Word).toNat ∧
    decodeRequest ⟨3, [1, 7], [0x61]⟩ = .ok (.encode 0 0 7 [0x61]) ∧
    worstEnc (active 1 2) [(0x61 : Byte)].length ≤ (7 : Word).toNat := by decide
theorem witness_DisturbedFinishStillCompletes :
    ({ active 1 2 with inbox := [.issueDisturbed .inOnly ⟨4, [3], []⟩] } : State).inbox =
      .issueDisturbed .inOnly ⟨4, [3], []⟩ :: [] ∧
    decodeRequest ⟨4, [3], []⟩ = .ok (.finish 0 3) ∧ (active 1 2).phase = .active ∧
    worstFin (active 1 2) ≤ (3 : Word).toNat ∧ (active 1 2).acc.toNat < 2 ^ (active 1 2).cnt.toNat := by decide

end Sys2Proof.Tests
end

/-! MATCH_POLICY (00_scope R10) is read by the choice of tokens alone, so an instruction that makes no tokens commutes
with setting the strap. -/

namespace Sys2Proof.Machine

/-- Only ENCODE reads the strap: what any other instruction answers, it answers under every policy. -/
theorem exec_policy {i : Instr} (hi : ∀ more rsvd cap data, i ≠ .encode more rsvd cap data) (s : State)
    (policy : MatchPolicy) :
    exec i { s with policy := policy } = mapNext (fun t => { t with policy := policy }) (exec i s) := by
  cases i with
  | encode more rsvd cap data => exact absurd rfl (hi more rsvd cap data)
  | tblinit rsvd =>
    simp only [exec, execTblinit]
    split <;> rfl
  | init en fmt rsvd =>
    simp only [exec, execInit]
    split
    · rfl
    · split <;> rfl
  | finish rsvd cap =>
    have hworst : worstFin { s with policy := policy } = worstFin s := rfl
    simp only [exec, execFinish, hworst]
    split
    · rfl
    · split
      · rfl
      · split <;> rfl
  | rdreg rsvdLow reg rsvdHigh =>
    have hview : view reg { s with policy := policy } = view reg s := rfl
    simp only [exec, execRdreg, hview]
    split
    · rfl
    · split <;> rfl
  | blkStoredHdr | len257271 | len272279 | len280285 | dist =>
    have hbytes : streamBytes { s with policy := policy } = streamBytes s := rfl
    simp only [exec, execBlkStoredHdr, execLen257271, execLen272279, execLen280285, execDist, hbytes]
    split <;> rfl
  | reservedOp0 | reservedOp67 | reservedOp8F | blkFixedHdr | blkFinalHdr | lit000F | lit104F | lit508F | lit909F
  | litA0BF | litC0FF | eob => rfl

/-- ENCODE's fault checks (40_commands R145) do not read the strap: it takes one and the same fault under every policy, or
has its effect under every policy. -/
theorem execEncode_policy_cases (more : BitVec 1) (rsvd : BitVec 27) (cap : Word) (data : List Byte) (s : State) :
    (∃ c, ∀ policy, execEncode more rsvd cap data { s with policy := policy } =
      .next (raiseFault c (wordEncode more rsvd) { s with policy := policy })) ∨
    ∀ policy, execEncode more rsvd cap data { s with policy := policy } =
      .next (encodeEffect data { s with policy := policy }) := by
  rcases execEncode_cases more rsvd cap data s with
    ⟨hr, -⟩ | ⟨hr, hp, -⟩ | ⟨hr, hp, hc, -⟩ | ⟨hr, hp, hc, -⟩
  · exact .inl ⟨.illegal, fun _ => if_pos hr⟩
  · exact .inl ⟨.usage, fun _ => (if_neg (not_not.2 hr)).trans (if_pos hp)⟩
  · exact .inl ⟨.outCapacity, fun _ =>
      (if_neg (not_not.2 hr)).trans ((if_neg (ne_true_of_eq_false hp)).trans (if_pos hc))⟩
  · exact .inr fun _ =>
      (if_neg (not_not.2 hr)).trans ((if_neg (ne_true_of_eq_false hp)).trans (if_neg (not_lt.2 hc)))

/-- Of what ENCODE leaves, the strap reaches RESULT, ACC, CNT, OUT with its cursor, HASH and the free-value counter alone. -/
theorem encodeEffect_policy (data : List Byte) (s : State) (policy : MatchPolicy) :
    ∃ result acc cnt out cursor hash freeCtr,
      encodeEffect data { s with policy := policy } =
        { encodeEffect data s with
          policy := policy, response := some (okResponse result), acc := acc, cnt := cnt, out := out, cursor := cursor,
          hash := hash, freeCtr := freeCtr } := by
  by_cases hd : data = []
  · subst hd
    exact ⟨_, _, _, _, _, _, _, rfl⟩
  · simp only [encodeEffect, encodeUpdate_of_ne_nil hd]
    exact ⟨_, _, _, _, _, _, _, rfl⟩

/-- At LEVEL 0 the chunk is stored, HASH stays, and no free value is used (40_commands R146). -/
theorem encodeBlocks_of_level_zero {s : State} (h : s.level = 0) (data : List Byte) (p : Packer) :
    encodeBlocks data s p = (emitStored data p, s.hash, s.freeCtr) := if_pos h

/-- Where ENCODE makes no tokens it leaves the same state under every policy. -/
theorem encodeUpdate_policy_of_no_tokens {data : List Byte} {s : State} (h : s.level = 0 ∨ data = [])
    (policy : MatchPolicy) :
    encodeUpdate data { s with policy := policy } = { encodeUpdate data s with policy := policy } := by
  by_cases hd : data = []
  · subst hd; rfl
  · have hl : s.level = 0 := h.resolve_right hd
    have hl' : { s with policy := policy }.level = 0 := hl
    rw [encodeUpdate_of_ne_nil hd, encodeUpdate_of_ne_nil hd, encodeBlocks_of_level_zero hl,
      encodeBlocks_of_level_zero hl']
    rfl

theorem encodeEffect_policy_of_no_tokens {data : List Byte} {s : State} (h : s.level = 0 ∨ data = [])
    (policy : MatchPolicy) :
    encodeEffect data { s with policy := policy } = { encodeEffect data s with policy := policy } := by
  rw [encodeEffect, encodeUpdate_policy_of_no_tokens h policy]
  rfl

end Sys2Proof.Machine

namespace Sys2Proof.Proofs

open Sys2Proof Sys2Proof.Machine

/-- Settles O45: ENCODE's faults and its registers do not read the strap, and only `chooseTokens` does, which runs neither at
LEVEL 0, nor on an empty chunk, nor where ENCODE faults; every other instruction commutes with setting it. -/
theorem policyDecidesTokensOnly : Obligations.PolicyDecidesTokensOnly := by
  refine ⟨fun more rsvd cap data s t policy ht => ?_, fun i s t policy hi ht => ?_⟩
  · rcases execEncode_policy_cases more rsvd cap data s with ⟨c, hfault⟩ | heffect
    · cases (hfault s.policy).symm.trans ht
      refine ⟨_, _, faultResponse c, hfault policy, rfl, ?_⟩
      exact ⟨rfl, rfl, rfl, rfl, rfl, rfl, rfl, rfl, rfl, rfl, rfl, rfl, rfl, rfl, rfl, fun _ => rfl⟩
    · cases (heffect s.policy).symm.trans ht
      obtain ⟨result, acc, cnt, out, cursor, hash, freeCtr, hregs⟩ := encodeEffect_policy data s policy
      have hsame : s.level = 0 ∨ data = [] ∨ (okResponse result).ok = false →
          encodeEffect data { s with policy := policy } = { encodeEffect data s with policy := policy } := fun h =>
        encodeEffect_policy_of_no_tokens (h.imp_right fun h => h.resolve_right Bool.noConfusion) policy
      refine ⟨_, _, okResponse result, heffect policy, rfl, ?_⟩
      rw [hregs] at hsame ⊢
      exact ⟨rfl, rfl, rfl, rfl, rfl, rfl, rfl, rfl, rfl, rfl, rfl, rfl, rfl, rfl, rfl, hsame⟩
  · rw [exec_policy hi, ht]
    rfl

end Sys2Proof.Proofs

/-! Everything an instruction can do, said once: the next state it answers is one of six kinds. Proofs about steps split
along these kinds. -/

namespace Sys2Proof.Machine

/-- `Effect i s t`: running `i` on `s` leaves `t` (40_commands, 60_exceptions R302, log 4). -/
inductive Effect (i : Instr) (s : State) : State → Prop
  /-- A command faults. -/
  | fault (hi : i.isCommand = true) (c : Cause) : Effect i s (raiseFault c i.commandWord s)
  /-- TBLINIT and RDREG answer and do nothing else. -/
  | answer (hi : i.isCommand = true) (hc : capacityOf i = none) (result : Word) : Effect i s (respond result s)
  | init (hi : i.isCommand = true) (hc : capacityOf i = none) (en : BitVec 1) (format : Format) :
      Effect i s (initEffect en format s)
  | encode (more : BitVec 1) (cap : Word) (data : List Byte) (hi : i = .encode more 0 cap data)
      (hs : s.phase.noStream = false) : Effect i s (encodeEffect data s)
  | finish (cap : Word) (hi : i = .finish 0 cap) (hs : s.phase.noStream = false) : Effect i s (finishEffect s)
  /-- An output element runs the packer and is counted. -/
  | element (hi : i.isCommand = false) (f : Packer → Packer) (bytes len : Nat) :
      Effect i s { runPacker f s with elementBytes := bytes, elementLen := len }

/-- What a command answers. -/
theorem effect_of_exec_command {i : Instr} {s t : State} (hi : i.isCommand = true) (h : exec i s = .next t) :
    Effect i s t := by
  cases i with
  | tblinit rsvd =>
    rcases execTblinit_cases rsvd s with ⟨-, e⟩ | ⟨-, e⟩ <;> cases e.symm.trans h
    · exact .fault hi .illegal
    · exact .answer hi rfl 0
  | init en fmt rsvd =>
    rcases execInit_cases en fmt rsvd s with ⟨-, e⟩ | ⟨-, -, e⟩ | ⟨-, format, -, e⟩ <;> cases e.symm.trans h
    · exact .fault hi .illegal
    · exact .fault hi .badFormat
    · exact .init hi rfl en format
  | encode more rsvd cap data =>
    rcases execEncode_cases more rsvd cap data s with ⟨-, e⟩ | ⟨-, -, e⟩ | ⟨-, -, -, e⟩ | ⟨rfl, hs, -, e⟩ <;>
      cases e.symm.trans h
    · exact .fault hi .illegal
    · exact .fault hi .usage
    · exact .fault hi .outCapacity
    · exact .encode more cap data rfl hs
  | finish rsvd cap =>
    rcases execFinish_cases rsvd cap s with ⟨-, e⟩ | ⟨-, -, e⟩ | ⟨-, -, -, e⟩ | ⟨rfl, hs, -, e⟩ <;>
      cases e.symm.trans h
    · exact .fault hi .illegal
    · exact .fault hi .usage
    · exact .fault hi .outCapacity
    · exact .finish cap rfl hs
  | rdreg rsvdLow reg rsvdHigh =>
    rcases execRdreg_cases rsvdLow reg rsvdHigh s with ⟨-, e⟩ | ⟨-, -, v, -, e⟩ <;> cases e.symm.trans h
    · exact .fault hi .illegal
    · exact .answer hi rfl v
  | reservedOp0 | reservedOp67 | reservedOp8F => cases h; exact .fault hi .illegal
  | _ => cases hi

/-- What an output element answers. -/
theorem effect_of_exec_element {i : Instr} {s t : State} (hi : i.isCommand = false) (h : exec i s = .next t) :
    Effect i s t := by
  cases i with
  | blkStoredHdr data =>
    simp only [exec, execBlkStoredHdr] at h
    split at h <;> cases h
    exact .element hi (emitStoredBlock data) (s.elementBytes + data.length) s.elementLen
  | blkFixedHdr | blkFinalHdr | eob => cases h; exact .element hi _ s.elementBytes s.elementLen
  | lit000F | lit104F | lit508F | lit909F | litA0BF | litC0FF =>
    cases h; exact .element hi _ (s.elementBytes + 1) s.elementLen
  | len257271 sym extra | len272279 sym extra | len280285 sym extra =>
    simp only [exec, execLen257271, execLen272279, execLen280285] at h
    split at h <;> cases h
    exact .element hi _ s.elementBytes _
  | dist d extra =>
    simp only [exec, execDist] at h
    split at h <;> cases h
    exact .element hi (putDistance d.toNat extra.toNat) (s.elementBytes + s.elementLen) 0
  | _ => cases hi

/-- Whatever an instruction answers is one of the six kinds. -/
theorem effect_of_exec {i : Instr} {s t : State} (h : exec i s = .next t) : Effect i s t := by
  cases hi : i.isCommand with
  | true => exact effect_of_exec_command hi h
  | false => exact effect_of_exec_element hi h

end Sys2Proof.Machine

/-! What ENCODE packs stays settled, and HASH canonical, under both policies. -/

namespace Sys2Proof.Machine

/-- Every copy of a token list has a length and a distance that the tables of 30_encoding R113 and R115 cover. -/
def CopiesInRange (ts : List Token) : Prop :=
  ∀ len dist, .copy len dist ∈ ts → 3 ≤ len ∧ len ≤ maxMatch ∧ 1 ≤ dist ∧ dist ≤ wsize

theorem copiesInRange_nil : CopiesInRange [] := by simp [CopiesInRange]

theorem copiesInRange_lit {b : Byte} {ts : List Token} (h : CopiesInRange ts) : CopiesInRange (.lit b :: ts) := by
  simpa [CopiesInRange] using h

theorem copiesInRange_copy {len dist : Nat} {ts : List Token}
    (hc : 3 ≤ len ∧ len ≤ maxMatch ∧ 1 ≤ dist ∧ dist ≤ wsize) (h : CopiesInRange ts) :
    CopiesInRange (.copy len dist :: ts) := by
  intro len' dist' hmem
  rcases List.mem_cons.1 hmem with e | hmem
  · cases e; exact hc
  · exact h len' dist' hmem

/-- The reference policy copies 4 to 258 bytes from 1 to 32768 bytes back (41_match_finder R183, R186, R187). -/
theorem copiesInRange_tokenizeFrom (d : List Byte) (p0 : Word) (h0 : Nat) (win : Memory Byte) (fuel i : Nat)
    (hash : Memory HashEntry) : CopiesInRange (tokenizeFrom d p0 h0 win fuel i hash).1 := by
  induction fuel generalizing i hash with
  | zero => exact copiesInRange_nil
  | succ n ih =>
    simp only [tokenizeFrom]
    split
    · split
      · split
        · next hi _ _ len dist hc =>
          obtain ⟨-, hmin, hmax, hd, hd', -, -⟩ := matchCandidate_spec (Nat.le_of_lt hi) hc
          exact copiesInRange_copy ⟨Nat.le_of_succ_le hmin, hmax, hd, hd'.trans (Nat.min_le_left _ _)⟩ (ih _ _)
        · exact copiesInRange_lit (ih _ _)
      · exact copiesInRange_lit (ih _ _)
    · exact copiesInRange_nil

/-- The contract bounds every copy (41_match_finder R189). -/
theorem copiesInRange_of_validFrom {d : List Byte} {p0 : Word} {h0 : Nat} {win : Memory Byte} {i : Nat}
    {ts : List Token} (h : validFrom d p0 h0 win i ts = true) : CopiesInRange ts := by
  induction ts generalizing i with
  | nil => exact copiesInRange_nil
  | cons tok ts ih =>
    cases tok with
    | lit b =>
      simp only [validFrom, Bool.and_eq_true] at h
      exact copiesInRange_lit (ih h.2)
    | copy len dist =>
      simp only [validFrom, Bool.and_eq_true, decide_eq_true_eq] at h
      obtain ⟨⟨⟨hmin, hmax, hd, hd', -⟩, -⟩, hrest⟩ := h
      exact copiesInRange_copy ⟨hmin, hmax, hd, hd'.trans (Nat.min_le_left _ _)⟩ (ih hrest)

/-- Under both policies. -/
theorem copiesInRange_chooseTokens (data : List Byte) (s : State) : CopiesInRange (chooseTokens data s).1 := by
  have href : CopiesInRange (tokenize data s.totalIn s.hist.toNat s.window s.hash).1 :=
    copiesInRange_tokenizeFrom _ _ _ _ _ _ _
  simp only [chooseTokens]
  split
  · exact href
  · dsimp only
    split
    · next hvalid => exact copiesInRange_of_validFrom hvalid
    · exact href

/-- HASH after the choice of tokens is canonical and within its 8192 entries. -/
theorem chooseTokens_hash_canonical {s : State} (hw : s.hash.wf = true) (hb : s.hash.below hashSize = true)
    (data : List Byte) :
    (chooseTokens data s).2.1.wf = true ∧ (chooseTokens data s).2.1.below hashSize = true := by
  simp only [chooseTokens]
  split
  · exact tokenizeFrom_hash _ _ _ _ _ _ hw hb
  · exact ⟨wf_freeHash _, below_freeHash _⟩

theorem settled_foldl_emitToken {ts : List Token} (h : CopiesInRange ts) {p : Packer} (hp : p.settled) :
    (ts.foldl (fun q t => emitToken t q) p).settled := by
  induction ts generalizing p with
  | nil => exact hp
  | cons t ts ih =>
    obtain ⟨bits, happ⟩ := appends_emitToken t fun len dist e => h len dist (e ▸ List.mem_cons_self)
    exact ih (fun len dist hmem => h len dist (List.mem_cons_of_mem t hmem)) (happ p hp).1

theorem settled_emitFixed {ts : List Token} (h : CopiesInRange ts) {p : Packer} (hp : p.settled) :
    (emitFixed ts p).settled :=
  settled_putHuff _ (settled_foldl_emitToken h (settled_putBits hp (by decide) (by decide)))

/-- What ENCODE emits after the header, at every LEVEL and whichever block is cheaper. -/
theorem settled_encodeBlocks (data : List Byte) (s : State) {p : Packer} (hp : p.settled) :
    (encodeBlocks data s p).1.settled := by
  simp only [encodeBlocks]
  split
  · exact settled_emitStored data hp
  · split
    · exact settled_emitFixed (copiesInRange_chooseTokens data s) hp
    · exact settled_emitStored data hp

theorem encodeBlocks_hash_canonical {s : State} (hw : s.hash.wf = true) (hb : s.hash.below hashSize = true)
    (data : List Byte) (p : Packer) :
    (encodeBlocks data s p).2.1.wf = true ∧ (encodeBlocks data s p).2.1.below hashSize = true := by
  simp only [encodeBlocks]
  split
  · exact ⟨hw, hb⟩
  · split
    · exact chooseTokens_hash_canonical hw hb data
    · exact chooseTokens_hash_canonical hw hb data

end Sys2Proof.Machine

/-! What each kind of effect does to the invariant of the machine. -/

namespace Sys2Proof.Machine

/-! ENCODE and FINISH. -/

theorem encodeUpdate_accSettled {s : State} (h : s.acc.toNat < 2 ^ s.cnt.toNat) (data : List Byte) :
    (encodeUpdate data s).acc.toNat < 2 ^ (encodeUpdate data s).cnt.toNat := by
  have hheader := settled_emitHeaderIfIdle (s := s) (settled_openPacker h)
  by_cases hd : data = []
  · rw [hd, encodeUpdate_nil]
    exact (settled_commitPacker hheader s).1
  · rw [encodeUpdate_of_ne_nil hd]
    exact (settled_commitPacker (settled_encodeBlocks data s hheader) s).1

theorem encodeUpdate_out_wf {s : State} (h : s.out.wf = true) (data : List Byte) :
    (encodeUpdate data s).out.wf = true := by
  by_cases hd : data = []
  · rw [hd, encodeUpdate_nil]
    exact Memory.wf_writeAll h _ _
  · rw [encodeUpdate_of_ne_nil hd]
    exact Memory.wf_writeAll h _ _

theorem encodeUpdate_hash_canonical {s : State} (hw : s.hash.wf = true) (hb : s.hash.below hashSize = true)
    (data : List Byte) :
    (encodeUpdate data s).hash.wf = true ∧ (encodeUpdate data s).hash.below hashSize = true := by
  by_cases hd : data = []
  · rw [hd, encodeUpdate_nil]
    exact ⟨hw, hb⟩
  · rw [encodeUpdate_of_ne_nil hd]
    exact encodeBlocks_hash_canonical hw hb data _

/-- HIST counts the chunk up to 32768 (10_state R31), also where the chunk is empty. -/
theorem toNat_encodeUpdate_hist {s : State} (h : s.hist.toNat ≤ wsize) (data : List Byte) :
    (encodeUpdate data s).hist.toNat = min wsize (s.hist.toNat + data.length) := by
  by_cases hd : data = []
  · rw [hd, encodeUpdate_nil]
    exact (Nat.min_eq_right h).symm
  · rw [encodeUpdate_hist data s hd, toNat_histAfter]

/-- HIST and TOTAL_IN count the same bytes until HIST is full. -/
theorem encodeUpdate_histTotal {s : State} (h : s.hist.toNat ≤ wsize)
    (ht : s.hist.toNat = wsize ∨ s.hist.toNat = s.totalIn.toNat) (data : List Byte) :
    (encodeUpdate data s).hist.toNat = wsize ∨
      (encodeUpdate data s).hist.toNat = (encodeUpdate data s).totalIn.toNat := by
  rw [toNat_encodeUpdate_hist h, encodeUpdate_totalIn, BitVec.toNat_add, BitVec.toNat_ofNat]
  simp only [wsize] at h ht ⊢
  omega

/-- FINISH leaves no bit pending (44_framer R276). -/
theorem finishUpdate_acc_cnt {s : State} (h : s.acc.toNat < 2 ^ s.cnt.toNat) :
    (finishUpdate s).acc = 0 ∧ (finishUpdate s).cnt = 0 := by
  have hheader := settled_emitHeaderIfIdle (s := s) (settled_openPacker h)
  have hfinal : (emitFinalBlock (emitHeaderIfIdle s (openPacker s))).settled :=
    settled_putHuff _ (settled_putBits hheader (by decide) (by decide))
  obtain ⟨hc, hw, -⟩ := packedBits_align hfinal
  refine ⟨?_, ?_⟩
  · show (align (emitFinalBlock (emitHeaderIfIdle s (openPacker s)))).w.setWidth 7 = 0
    rw [hw]; rfl
  · show BitVec.ofNat 3 (align (emitFinalBlock (emitHeaderIfIdle s (openPacker s)))).c = 0
    rw [hc]; rfl

/-! The invariant. -/

/-- The invariant asks of the port and of OUT only that nothing but a host's arrivals waits and that OUT is canonical, and
nothing of the response, the strap and the free-value counter. -/
theorem Inv.with_ports {s : State} (h : Inv s) {inbox : List Arrival} (hin : inbox.all Arrival.fromHost = true)
    {out : Memory Byte} (hout : out.wf = true) (response : Option Response) (policy : MatchPolicy) (freeCtr : Nat) :
    Inv { s with inbox := inbox, out := out, response := response, policy := policy, freeCtr := freeCtr } :=
  { h with
    outWf := hout
    fromHost := hin
    uninit := fun hp =>
      have ⟨hl, hf, hs⟩ := h.uninit hp
      ⟨hl, hf, { hs with }⟩
    idle := fun hp => { h.idle hp with } }

theorem Inv.after_supplyOut {s : State} (h : Inv s) (i : Instr) : Inv (supplyOut i s) := by
  simp only [supplyOut]
  split
  · exact h.with_ports h.fromHost Memory.wf_nil s.response s.policy s.freeCtr
  · exact h

/-- A fault sets its own bit and its own code, 1 to 4 (60_exceptions R300, R302). -/
theorem setFaultBit_latches (c : Cause) (fault : BitVec 4) :
    c.code ≠ 0 ∧ 1 ≤ c.code.toNat ∧ c.code.toNat ≤ 4 ∧
      (setFaultBit c fault).getLsbD (c.code.toNat - 1) = true ∧ fault &&& setFaultBit c fault = fault := by
  cases c <;> revert fault <;> decide

theorem Inv.after_raiseFault {s : State} (h : Inv s) (c : Cause) (cw : Word) : Inv (raiseFault c cw s) :=
  have ⟨hne, _, hle, hbit, _⟩ := setFaultBit_latches c s.fault
  { h with
    causeLe := hle
    noFault := fun h0 => absurd h0 hne
    lastLatched := fun _ => hbit
    uninit := fun hp =>
      have ⟨hl, hf, hs⟩ := h.uninit hp
      ⟨hl, hf, { hs with }⟩
    idle := fun hp => { h.idle hp with } }

theorem Inv.after_respond {s : State} (h : Inv s) (result : Word) : Inv (respond result s) :=
  h.with_ports h.fromHost h.outWf _ s.policy s.freeCtr

theorem freshStream_initEffect (en : BitVec 1) (format : Format) (s : State) :
    FreshStream (initEffect en format s) :=
  ⟨rfl, rfl, rfl, rfl, rfl, hashInvalid_hashInvalidate s.hash⟩

theorem Inv.after_initEffect {s : State} (h : Inv s) (en : BitVec 1) (format : Format) : Inv (initEffect en format s) :=
  { h with
    hashWf := wf_hashInvalidate h.hashWf
    hashBelow := below_hashInvalidate h.hashBelow
    histLe := Nat.zero_le _
    histTotal := .inr rfl
    accSettled := Nat.one_pos
    uninit := nofun
    idle := fun _ => freshStream_initEffect en format s
    closed := nofun
    noElement := ⟨rfl, rfl⟩ }

theorem Inv.after_encodeEffect {s : State} (h : Inv s) (data : List Byte) : Inv (encodeEffect data s) := by
  have hhist := toNat_encodeUpdate_hist h.histLe data
  have hupdate : Inv (encodeUpdate data s) :=
    { outWf := encodeUpdate_out_wf h.outWf data
      windowWf := by simpa using windowUpdate_wf h.windowWf _ data
      windowBelow := by simpa using windowUpdate_below h.windowBelow _ data
      hashWf := (encodeUpdate_hash_canonical h.hashWf h.hashBelow data).1
      hashBelow := (encodeUpdate_hash_canonical h.hashWf h.hashBelow data).2
      histLe := hhist ▸ Nat.min_le_left _ _
      histTotal := encodeUpdate_histTotal h.histLe h.histTotal data
      accSettled := encodeUpdate_accSettled h.accSettled data
      uninit := by simp
      idle := by simp
      closed := by simp
      causeLe := by simpa using h.causeLe
      noFault := by simpa using h.noFault
      lastLatched := by simpa using h.lastLatched
      noElement := by simpa using h.noElement
      fromHost := by simpa using h.fromHost }
  exact hupdate.after_respond _

theorem Inv.after_finishEffect {s : State} (h : Inv s) : Inv (finishEffect s) := by
  obtain ⟨hacc, hcnt⟩ := finishUpdate_acc_cnt h.accSettled
  have hupdate : Inv (finishUpdate s) :=
    { h with
      outWf := Memory.wf_writeAll h.outWf _ _
      accSettled := by rw [hacc, hcnt]; decide
      uninit := nofun
      idle := nofun
      closed := fun _ => ⟨hacc, hcnt⟩ }
  exact hupdate.after_respond _

/-- Every command keeps the invariant; an output element, which the invariant shuts out of the port, need not. -/
theorem Inv.of_exec {i : Instr} {s t : State} (h : Inv s) (hi : i.isCommand = true) (he : exec i s = .next t) : Inv t := by
  cases effect_of_exec he with
  | fault _ c => exact h.after_raiseFault c _
  | answer _ _ result => exact h.after_respond result
  | init _ _ en format => exact h.after_initEffect en format
  | encode more cap data _ _ => exact h.after_encodeEffect data
  | finish cap _ _ => exact h.after_finishEffect
  | element hi' => exact absurd hi (ne_true_of_eq_false hi')

/-! Reset and a disturbing host. -/

theorem inv_reset : Inv State.reset where
  outWf := rfl
  windowWf := rfl
  windowBelow := rfl
  hashWf := rfl
  hashBelow := rfl
  histLe := by decide
  histTotal := .inr rfl
  accSettled := by decide
  uninit := fun _ => ⟨rfl, rfl, ⟨rfl, rfl, rfl, rfl, rfl, fun _ => rfl⟩⟩
  idle := nofun
  closed := nofun
  causeLe := by decide
  noFault := fun _ => ⟨rfl, rfl⟩
  lastLatched := fun h => absurd rfl h
  noElement := ⟨rfl, rfl⟩
  fromHost := rfl

theorem Inv.after_applyReset {s : State} (h : Inv s) : Inv (applyReset s) :=
  inv_reset.with_ports h.fromHost h.outWf none s.policy s.freeCtr

theorem Inv.after_applyResetDuring {s : State} (h : Inv s) (r : Request) : Inv (applyResetDuring r s) := by
  simp only [applyResetDuring]
  split
  · exact (h.after_supplyOut _).after_applyReset
  · exact h.after_applyReset

/-- A disturbed command that faulted has lost only what OUT held below CAP (70_reset R351, 60_exceptions R302). -/
theorem Inv.disturb_raiseFault {s : State} (h : Inv s) (c : Cause) (cw : Word) (cap : Nat) :
    Inv (disturb cap (raiseFault c cw s)) :=
  have hf := h.after_raiseFault c cw
  hf.with_ports hf.fromHost (Memory.wf_forgetBelow hf.outWf cap) _ s.policy s.freeCtr

/-- What a disturbed command leaves unspecified, CKSUM, WINDOW and HASH, the invariant fixes only while nothing of a stream has
been packed. -/
theorem Inv.disturb_of_started {t : State} (h : Inv t) (hp : t.phase = .active ∨ t.phase = .closed) (cap : Nat) :
    Inv (disturb cap t) := by
  have huninit : t.phase ≠ .uninit := by rcases hp with hp | hp <;> simp [hp]
  have hidle : t.phase ≠ .idle := by rcases hp with hp | hp <;> simp [hp]
  simp only [disturb]
  split
  · exact
      { h with
        outWf := Memory.wf_forgetBelow h.outWf cap
        windowWf := wf_disturbedWindow _
        windowBelow := below_disturbedWindow _
        hashWf := wf_freeHash _
        hashBelow := below_freeHash _
        uninit := fun he => absurd he huninit
        idle := fun he => absurd he hidle }
  · exact h.with_ports h.fromHost (Memory.wf_forgetBelow h.outWf cap) _ t.policy t.freeCtr

/-- Only the bytes that ENCODE reads can be another's, so the instruction is a command with the same word. -/
theorem asRead_cases (d : Disturbance) (ctr : Nat) (i : Instr) :
    asRead d ctr i = i ∨ ∃ more rsvd cap data data', i = .encode more rsvd cap data ∧
      asRead d ctr i = .encode more rsvd cap data' := by
  cases i with
  | encode more rsvd cap data =>
    simp only [asRead]
    split
    · exact .inr ⟨more, rsvd, cap, data, _, rfl, rfl⟩
    · exact .inl rfl
  | _ => exact .inl rfl

@[simp] theorem isCommand_asRead (d : Disturbance) (ctr : Nat) (i : Instr) : (asRead d ctr i).isCommand = i.isCommand := by
  rcases asRead_cases d ctr i with h | ⟨more, rsvd, cap, data, data', rfl, h⟩
  · rw [h]
  · rw [h]; rfl

@[simp] theorem commandWord_asRead (d : Disturbance) (ctr : Nat) (i : Instr) :
    (asRead d ctr i).commandWord = i.commandWord := by
  rcases asRead_cases d ctr i with h | ⟨more, rsvd, cap, data, data', rfl, h⟩
  · rw [h]
  · rw [h]; rfl

@[simp] theorem capacityOf_asRead (d : Disturbance) (ctr : Nat) (i : Instr) :
    capacityOf (asRead d ctr i) = capacityOf i := by
  rcases asRead_cases d ctr i with h | ⟨more, rsvd, cap, data, data', rfl, h⟩
  · rw [h]
  · rw [h]; rfl

theorem capacityOf_ne_none {d : Disturbance} {i : Instr} (h : breaksDuties d i = true) : capacityOf i ≠ none := by
  rcases breaksDuties_cases h with ⟨more, rsvd, cap, data, rfl⟩ | ⟨rsvd, cap, rfl⟩ <;> exact Option.some_ne_none _

theorem Inv.of_runDisturbed {d : Disturbance} {r : Request} {s t : State} (h : Inv s)
    (he : runDisturbed d r s = .next t) : Inv t := by
  obtain ⟨i, hi, hcases⟩ := runDisturbed_cases he
  have hcmd := isCommand_of_decodeRequest hi
  rcases hcases with ⟨hbreaks, u, hu, rfl⟩ | ⟨-, ht⟩
  · have hs := h.after_supplyOut i
    have hcap : capacityOf (asRead d s.freeCtr i) ≠ none := by simpa using capacityOf_ne_none hbreaks
    cases effect_of_exec hu with
    | fault _ c => exact hs.disturb_raiseFault c _ _
    | answer _ hn _ => exact absurd hn hcap
    | init _ hn _ _ => exact absurd hn hcap
    | encode more cap data _ _ => exact (hs.after_encodeEffect data).disturb_of_started (.inl (encodeUpdate_phase data _)) _
    | finish cap _ _ => exact hs.after_finishEffect.disturb_of_started (.inr rfl) _
    | element hi' => simp [hcmd] at hi'
  · exact (h.after_supplyOut i).of_exec hcmd ht

/-- Taking an arrival that a host can make off the port. -/
theorem Inv.take {s : State} (h : Inv s) {a : Arrival} {rest : List Arrival} (hin : s.inbox = a :: rest) :
    a.fromHost = true ∧ Inv { s with inbox := rest } := by
  have hhost := h.fromHost
  rw [hin, List.all_cons, Bool.and_eq_true] at hhost
  exact ⟨hhost.1, h.with_ports hhost.2 h.outWf s.response s.policy s.freeCtr⟩

/-- What a host issues is a command. -/
theorem isCommand_of_fromHost {x : Encoding} {i : Instr} (hx : (Arrival.issue x).fromHost = true)
    (hi : decode x = .ok i) : i.isCommand = true := by
  cases x with
  | request r => exact isCommand_of_decodeRequest hi
  | element e => cases hx

theorem Inv.of_step {s t : State} (h : Inv s) (hstep : step s = .next t) : Inv t := by
  rcases step_cases hstep with ⟨-, rfl⟩ | ⟨a, rest, hin, harrival⟩
  · exact h
  · obtain ⟨hhost, htaken⟩ := h.take hin
    rcases harrival with ⟨x, i, rfl, hi, he⟩ | ⟨d, r, rfl, he⟩ | ⟨rfl, rfl⟩ | ⟨r, rfl, rfl⟩
    · exact (htaken.after_supplyOut i).of_exec (isCommand_of_fromHost hhost hi) he
    · exact htaken.of_runDisturbed he
    · exact htaken.after_applyReset
    · exact htaken.after_applyResetDuring r

end Sys2Proof.Machine

namespace Sys2Proof.Proofs

open Sys2Proof Sys2Proof.Machine

/-- Settles O11: the port holds only what a host can send, so every arrival is a command, a disturbed command or a reset, and
each kind of effect keeps the invariant (`Inv.of_exec`, `Inv.of_runDisturbed`, `Inv.after_applyReset`). -/
theorem stepKeepsTheInvariant : Obligations.StepKeepsTheInvariant :=
  fun _ _ h hstep => h.of_step hstep

/-- Settles O10: the reset column and empty memories meet each clause. -/
theorem resetMeetsTheInvariant : Obligations.ResetMeetsTheInvariant := inv_reset

/-- Settles O9: each field of the reset state is written out in the model, and no HASH entry is listed. -/
theorem resetColumn : Obligations.ResetColumn :=
  ⟨rfl, rfl, rfl, rfl, rfl, rfl, rfl, rfl, rfl, rfl, rfl, fun _ => rfl⟩

/-- Settles O13: the step takes the reset off the port and applies it. -/
theorem resetAppliesFromAnyState : Obligations.ResetAppliesFromAnyState := by
  intro s rest hin
  rw [step, takeArrival, hin]
  rfl

end Sys2Proof.Proofs

/-! The fault registers and the checksum over a step. -/

namespace Sys2Proof.Machine

/-! The command word of what a request decodes to (30_encoding R92). -/

/-- A word of TBLINIT, FINISH or a reserved opcode below 8 is its opcode under the other 28 bits. -/
theorem above4_append_of_cwOp {cw : Word} {op : BitVec 4} (h : cwOp cw = op) :
    (cwAbove4 cw ++ op : BitVec (28 + 4)) = cw := h ▸ append_cwOp cw

theorem wordInit_of_cwOp {cw : Word} (h : cwOp cw = 2) : wordInit (cwEn cw) (cwFmt cw) (cwAbove7 cw) = cw := by
  have hcw := above7_append_fields cw
  rwa [h] at hcw

theorem wordEncode_of_cwOp {cw : Word} (h : cwOp cw = 3) : wordEncode (cwMore cw) (cwAbove5 cw) = cw := by
  have hcw := above5_append_more cw
  rwa [h] at hcw

theorem wordRdreg_of_cwOp {cw : Word} (h : cwOp cw = 5) : wordRdreg (cwMid cw) (cwReg cw) (cwAbove12 cw) = cw := by
  have hcw := above12_append_fields cw
  rwa [h] at hcw

/-- An opcode of 8 or more is the bit 1 over its low three bits. -/
theorem wordReserved8F_of_cwOp {cw : Word} (h : 8 ≤ (cwOp cw).toNat) :
    wordReserved8F (cw.extractLsb' 0 3) (cwAbove4 cw) = cw := by
  have hop : (0x1#1 ++ cw.extractLsb' 0 3 : BitVec (1 + 3)) = cwOp cw := by
    have hlow : cw.extractLsb' 0 3 = (cwOp cw).extractLsb' 0 3 := by
      simp only [cwOp, BitVec.extractLsb'_extractLsb'_of_le (show 0 + 3 ≤ 4 by decide)]
    rw [hlow]
    generalize cwOp cw = op at h
    revert op
    decide
  rw [wordReserved8F, hop]
  exact append_cwOp cw

theorem commandWord_of_bare {r : Request} {i j : Instr} (h : bare r i = .ok j) (hw : i.commandWord = r.cw) :
    j.commandWord = r.cw := (bare_ok h).1 ▸ hw

/-- A request is decoded without loss of a bit of its command word. -/
theorem commandWord_of_decodeRequest {r : Request} {i : Instr} (h : decodeRequest r = .ok i) : i.commandWord = r.cw := by
  rw [decodeRequest] at h
  have hop {op : BitVec 4} : (cwOp r.cw).toNat = op.toNat → cwOp r.cw = op := BitVec.eq_of_toNat_eq
  split at h
  · exact commandWord_of_bare h (above4_append_of_cwOp (op := 0) (hop ‹_›))
  · exact commandWord_of_bare h (above4_append_of_cwOp (op := 1) (hop ‹_›))
  · exact commandWord_of_bare h (wordInit_of_cwOp (hop ‹_›))
  · split at h
    · split at h <;> cases h
      exact wordEncode_of_cwOp (hop ‹_›)
    · cases h
  · split at h
    · split at h <;> cases h
      exact above4_append_of_cwOp (op := 4) (hop ‹_›)
    · cases h
  · exact commandWord_of_bare h (wordRdreg_of_cwOp (hop ‹_›))
  · exact commandWord_of_bare h (above4_append_of_cwOp (op := 6) (hop ‹_›))
  · exact commandWord_of_bare h (above4_append_of_cwOp (op := 7) (hop ‹_›))
  · exact commandWord_of_bare h (wordReserved8F_of_cwOp (by simp only [imp_false] at *; omega))

theorem isCommand_of_plain {e : Element} {i j : Instr} (h : plain e i = .ok j) (hi : i.isCommand = false) :
    j.isCommand = false := (plain_ok h).1 ▸ hi

theorem isCommand_of_withLenExtra {e : Element} {sym : Nat} {i j : Instr} (h : withLenExtra e sym i = .ok j)
    (hi : i.isCommand = false) : j.isCommand = false := (withLenExtra_ok h).1 ▸ hi

theorem isCommand_of_decodeHeader {e : Element} {i : Instr} (h : decodeHeader e = .ok i) : i.isCommand = false := by
  rw [decodeHeader] at h
  split at h
  · split at h
    · split at h <;> cases h
      rfl
    · cases h
  · split at h
    · exact isCommand_of_plain h rfl
    · split at h
      · exact isCommand_of_plain h rfl
      · cases h

theorem isCommand_of_decodeDistance {e : Element} {i : Instr} (h : decodeDistance e = .ok i) : i.isCommand = false := by
  rw [decodeDistance] at h
  split at h <;> [skip; cases h]
  split at h <;> [skip; cases h]
  split at h <;> [skip; cases h]
  split at h <;> cases h
  rfl

theorem isCommand_of_decodeSymbol {e : Element} {i : Instr} (h : decodeSymbol e = .ok i) : i.isCommand = false := by
  simp only [decodeSymbol] at h
  split_ifs at h
  · exact isCommand_of_plain h rfl
  · exact isCommand_of_withLenExtra h rfl
  · exact isCommand_of_withLenExtra h rfl
  · exact isCommand_of_plain h rfl
  · exact isCommand_of_plain h rfl
  · exact isCommand_of_plain h rfl
  · exact isCommand_of_withLenExtra h rfl
  · exact isCommand_of_plain h rfl
  · exact isCommand_of_plain h rfl
  · exact isCommand_of_plain h rfl

/-- No output element is decoded to a command. -/
theorem isCommand_of_decodeElement {e : Element} {i : Instr} (h : decodeElement e = .ok i) : i.isCommand = false := by
  rw [decodeElement] at h
  split at h
  · exact isCommand_of_decodeHeader h
  · exact isCommand_of_decodeSymbol h
  · exact isCommand_of_decodeDistance h

/-! The fault registers. -/

/-- FAULT, LAST_CAUSE and FAULTCMD are as before. -/
def SameFaults (s t : State) : Prop := t.fault = s.fault ∧ t.lastCause = s.lastCause ∧ t.faultCmd = s.faultCmd

/-- `t` has recorded a fault of the command word `cw` (60_exceptions R302). -/
def RecordsFault (cw : Word) (s t : State) : Prop :=
  ∃ c : Cause, t.fault = setFaultBit c s.fault ∧ t.lastCause = c.code ∧ t.faultCmd = cw ∧
    t.response = some (faultResponse c)

/-- An instruction leaves the fault registers, or it is a command and records its fault. -/
theorem faults_of_exec {i : Instr} {s t : State} (h : exec i s = .next t) :
    SameFaults s t ∨ i.isCommand = true ∧ RecordsFault i.commandWord s t := by
  cases effect_of_exec h with
  | fault hi c => exact .inr ⟨hi, c, rfl, rfl, rfl, rfl⟩
  | answer => exact .inl ⟨rfl, rfl, rfl⟩
  | init => exact .inl ⟨rfl, rfl, rfl⟩
  | encode more cap data =>
    exact .inl ⟨encodeUpdate_fault data s, encodeUpdate_lastCause data s, encodeUpdate_faultCmd data s⟩
  | finish => exact .inl ⟨rfl, rfl, rfl⟩
  | element => exact .inl ⟨rfl, rfl, rfl⟩

/-- The same of a request, whatever the host does to its buffers. -/
theorem faults_of_runDisturbed {d : Disturbance} {r : Request} {s t : State} (h : runDisturbed d r s = .next t) :
    SameFaults s t ∨ RecordsFault r.cw s t := by
  obtain ⟨i, hi, hcases⟩ := runDisturbed_cases h
  rw [← commandWord_of_decodeRequest hi]
  rcases hcases with ⟨-, u, hu, rfl⟩ | ⟨-, ht⟩
  · simpa [SameFaults, RecordsFault] using (faults_of_exec hu).imp_right And.right
  · simpa [SameFaults, RecordsFault] using (faults_of_exec ht).imp_right And.right

theorem applyResetDuring_lastCause_faultCmd (r : Request) (s : State) :
    (applyResetDuring r s).lastCause = 0 ∧ (applyResetDuring r s).faultCmd = 0 := by
  simp only [applyResetDuring]
  split <;> exact ⟨rfl, rfl⟩

/-- A request waits first at the port, its buffers disturbed or not. -/
def Requests (s : State) (r : Request) : Prop :=
  ∃ rest, s.inbox = .issue (.request r) :: rest ∨ ∃ d, s.inbox = .issueDisturbed d r :: rest

/-- A reset waits first at the port, during a command or not. -/
def Resets (s : State) : Prop := ∃ rest, s.inbox = .reset :: rest ∨ ∃ r, s.inbox = .resetDuring r :: rest

/-- A step leaves the fault registers, records the fault of the request it runs, or is a reset. -/
theorem faults_of_step {s t : State} (h : step s = .next t) :
    SameFaults s t ∨ (∃ r, Requests s r ∧ RecordsFault r.cw s t) ∨ Resets s ∧ t.lastCause = 0 ∧ t.faultCmd = 0 := by
  rcases step_cases h with ⟨-, rfl⟩ | ⟨a, rest, hin, harrival⟩
  · exact .inl ⟨rfl, rfl, rfl⟩
  · rcases harrival with ⟨x, i, rfl, hi, he⟩ | ⟨d, r, rfl, he⟩ | ⟨rfl, rfl⟩ | ⟨r, rfl, rfl⟩
    · rcases faults_of_exec he with hsame | ⟨hcmd, hfault⟩
      · exact .inl (by simpa [SameFaults] using hsame)
      · cases x with
        | request r =>
          rw [commandWord_of_decodeRequest hi] at hfault
          exact .inr (.inl ⟨r, ⟨rest, .inl hin⟩, by simpa [RecordsFault] using hfault⟩)
        | element e => exact absurd hcmd (ne_true_of_eq_false (isCommand_of_decodeElement hi))
    · exact (faults_of_runDisturbed he).imp_right fun hfault => .inl ⟨r, ⟨rest, .inr ⟨d, hin⟩⟩, hfault⟩
    · exact .inr (.inr ⟨⟨rest, .inl hin⟩, rfl, rfl⟩)
    · exact .inr (.inr ⟨⟨rest, .inr ⟨r, hin⟩⟩, applyResetDuring_lastCause_faultCmd r _⟩)

end Sys2Proof.Machine

namespace Sys2Proof.Proofs

open Sys2Proof Sys2Proof.Machine

/-- Settles O27: a step that is no reset leaves FAULT, or adds the bit of the fault it records. -/
theorem faultBitsAreSticky : Obligations.FaultBitsAreSticky := by
  intro s t h hreset hduring
  rcases faults_of_step h with ⟨hfault, -, -⟩ | ⟨r, -, c, hfault, -, -, -⟩ | ⟨⟨rest, hin | ⟨r, hin⟩⟩, -⟩
  · rw [hfault, BitVec.and_self]
  · obtain ⟨-, -, -, -, hkept⟩ := setFaultBit_latches c s.fault
    rw [hfault, hkept]
  · exact absurd hin (hreset rest)
  · exact absurd hin (hduring r rest)

/-- Settles O28: of the three things a step can do to the fault registers, one changes nothing, and the others are the two of
the statement. -/
theorem onlyFaultsAndResetWriteLastCause : Obligations.OnlyFaultsAndResetWriteLastCause := by
  intro s t h hchanged
  rcases faults_of_step h with ⟨-, hcause, hcmd⟩ | ⟨r, ⟨rest, hin⟩, c, -, hcause, hcmd, hresponse⟩ | ⟨⟨rest, hin⟩, hzero⟩
  · exact absurd hchanged (not_or.2 ⟨not_not.2 hcause, not_not.2 hcmd⟩)
  · obtain ⟨-, hlow, hhigh, -⟩ := setFaultBit_latches c s.fault
    rw [hcause]
    exact .inl ⟨hresponse, hlow, hhigh, r, rest, hin, hcmd⟩
  · exact .inr ⟨hzero.1, hzero.2, rest, hin⟩

end Sys2Proof.Proofs

/-! The sums of Adler32 (43_checksums R256, R257). -/

namespace Sys2Proof.Machine

theorem adlerS1_adlerPack (s1 s2 : Nat) : adlerS1 (adlerPack s1 s2) = s1 % 2 ^ 16 := by
  rw [adlerS1, adlerPack, BitVec.extractLsb'_append_eq_right, BitVec.toNat_ofNat]

theorem adlerS2_adlerPack (s1 s2 : Nat) : adlerS2 (adlerPack s1 s2) = s2 % 2 ^ 16 := by
  rw [adlerS2, adlerPack, BitVec.extractLsb'_append_eq_left, BitVec.toNat_ofNat]

/-- One byte of Adler32 leaves both sums reduced, whatever they were. -/
theorem adlerUpdate_reduced (c : Word) (b : Byte) :
    adlerS1 (adlerUpdate c b) < adlerMod ∧ adlerS2 (adlerUpdate c b) < adlerMod := by
  have hmod (n : Nat) : n % adlerMod % 2 ^ 16 < adlerMod :=
    lt_of_le_of_lt (Nat.mod_le _ _) (Nat.mod_lt n (by decide))
  simp only [adlerUpdate, adlerS1_adlerPack, adlerS2_adlerPack]
  exact ⟨hmod _, hmod _⟩

theorem checksumUpdate_zlib_reduced {c : Word} (h : adlerS1 c < adlerMod ∧ adlerS2 c < adlerMod) (d : List Byte) :
    adlerS1 (checksumUpdate .zlib c d) < adlerMod ∧ adlerS2 (checksumUpdate .zlib c d) < adlerMod := by
  induction d generalizing c with
  | nil => exact h
  | cons b rest ih => exact ih (adlerUpdate_reduced c b)

theorem adlerReduced_exec {i : Instr} {s t : State} (hs : AdlerReduced s) (h : exec i s = .next t) : AdlerReduced t := by
  cases effect_of_exec h with
  | fault => exact hs
  | answer => exact hs
  | init _ _ en format =>
    intro hf
    cases (show format = .zlib from hf)
    show adlerS1 (checksumSeed .zlib) < adlerMod ∧ adlerS2 (checksumSeed .zlib) < adlerMod
    decide
  | encode more cap data =>
    intro hf
    have hformat : s.format = .zlib := (encodeUpdate_format data s).symm.trans hf
    have hcksum : (encodeEffect data s).cksum = checksumUpdate .zlib s.cksum data :=
      hformat ▸ encodeUpdate_cksum data s
    rw [hcksum]
    exact checksumUpdate_zlib_reduced (hs hformat) data
  | finish => exact hs
  | element => exact hs

/-- FORMAT is raw after reset. -/
theorem adlerReduced_applyReset (s : State) : AdlerReduced (applyReset s) := nofun

theorem adlerReduced_applyResetDuring (r : Request) (s : State) : AdlerReduced (applyResetDuring r s) := by
  simp only [applyResetDuring]
  split <;> exact adlerReduced_applyReset _

/-! No instruction but RDREG reads the fault registers (10_state R40). -/

/-- The state with the fault registers at 0: what is left of it when they are not looked at. -/
def clearFaults (s : State) : State := { s with fault := 0, lastCause := 0, faultCmd := 0 }

/-- What any other instruction answers does not depend on the fault registers, but for what it leaves in them. -/
theorem exec_faults {i : Instr} (hi : ∀ a b c, i ≠ .rdreg a b c) (s : State) (f l : BitVec 4) (w : Word) :
    mapNext clearFaults (exec i { s with fault := f, lastCause := l, faultCmd := w }) = mapNext clearFaults (exec i s) := by
  cases i with
  | rdreg rsvdLow reg rsvdHigh => exact absurd rfl (hi _ _ _)
  | tblinit rsvd =>
    simp only [exec, execTblinit]
    split <;> rfl
  | init en fmt rsvd =>
    simp only [exec, execInit]
    split
    · rfl
    · split <;> rfl
  | encode more rsvd cap data =>
    have hworst : worstEnc { s with fault := f, lastCause := l, faultCmd := w } data.length = worstEnc s data.length := rfl
    have heffect : clearFaults (encodeEffect data { s with fault := f, lastCause := l, faultCmd := w }) =
        clearFaults (encodeEffect data s) := by cases data <;> rfl
    simp only [exec, execEncode, hworst]
    split
    · rfl
    · split
      · rfl
      · split
        · rfl
        · exact congrArg Host.Outcome.next heffect
  | finish rsvd cap =>
    have hworst : worstFin { s with fault := f, lastCause := l, faultCmd := w } = worstFin s := rfl
    simp only [exec, execFinish, hworst]
    split
    · rfl
    · split
      · rfl
      · split <;> rfl
  | blkStoredHdr | len257271 | len272279 | len280285 | dist =>
    have hbytes : streamBytes { s with fault := f, lastCause := l, faultCmd := w } = streamBytes s := rfl
    simp only [exec, execBlkStoredHdr, execLen257271, execLen272279, execLen280285, execDist, hbytes]
    split <;> rfl
  | reservedOp0 | reservedOp67 | reservedOp8F | blkFixedHdr | blkFinalHdr | lit000F | lit104F | lit508F | lit909F
  | litA0BF | litC0FF | eob => rfl

/-! ENCODE's word. -/

/-- MORE is read by none of ENCODE's checks and effects (30_encoding R96): with either value it takes one and the same fault,
or has one and the same effect. -/
theorem execEncode_more_cases (rsvd : BitVec 27) (cap : Word) (data : List Byte) (s : State) :
    (∃ c, ∀ more, execEncode more rsvd cap data s = .next (raiseFault c (wordEncode more rsvd) s)) ∨
    ∀ more, execEncode more rsvd cap data s = .next (encodeEffect data s) := by
  simp only [execEncode]
  split_ifs
  · exact .inl ⟨.illegal, fun _ => rfl⟩
  · exact .inl ⟨.usage, fun _ => rfl⟩
  · exact .inl ⟨.outCapacity, fun _ => rfl⟩
  · exact .inr fun _ => rfl

/-- `RESULT <- o` (40_commands R146). -/
theorem encodeEffect_response (data : List Byte) (s : State) :
    (encodeEffect data s).response = some ⟨true, 0, BitVec.ofNat 32 (encodeEffect data s).cursor⟩ := rfl

/-- Where STATE is IDLE or ACTIVE and CAP is enough ENCODE has its effect (40_commands R145, R146). -/
theorem exec_encode_completes (more : BitVec 1) {cap : Word} {data : List Byte} {s : State}
    (hp : s.phase = .idle ∨ s.phase = .active) (hcap : worstEnc s data.length ≤ cap.toNat) :
    exec (.encode more 0 cap data) s = .next (encodeEffect data s) := by
  simp only [exec, execEncode, noStream_false hp, if_neg (not_lt.2 hcap)]
  rfl

theorem checksumUpdate_eq_foldl (format : Format) (c : Word) (d : List Byte) :
    checksumUpdate format c d = d.foldl (fun c b => if format = .zlib then adlerUpdate c b else crcUpdate c b) c := by
  cases format <;> rfl

/-- ENCODE of no bytes leaves the pending bits pending (40_commands R148). -/
theorem encodeUpdate_nil_acc_cnt (s : State) : (encodeUpdate [] s).acc = s.acc ∧ (encodeUpdate [] s).cnt = s.cnt := by
  simp [encodeUpdate_nil, BitVec.setWidth_setWidth_of_le]

/-- At LEVEL 0 HASH stays (41_match_finder R193). -/
theorem encodeUpdate_hash_of_level_zero {s : State} (h : s.level = 0) (data : List Byte) :
    (encodeUpdate data s).hash = s.hash := by
  by_cases hd : data = []
  · rw [hd, encodeUpdate_nil]; rfl
  · rw [encodeUpdate_of_ne_nil hd, encodeBlocks_of_level_zero h]

/-! The views of RDREG (10_state R39). -/

theorem toNat_append_eq_add {m n : Nat} (x : BitVec m) (y : BitVec n) :
    (x ++ y).toNat = x.toNat * 2 ^ n + y.toNat := by
  rw [BitVec.toNat_append, ← Nat.shiftLeft_add_eq_or_of_lt y.isLt, Nat.shiftLeft_eq]

theorem word_eq_ofNat_toNat (w : Word) : w = BitVec.ofNat 32 w.toNat := by
  rw [BitVec.ofNat_toNat, BitVec.setWidth_eq]

theorem viewStatus_eq (s : State) :
    viewStatus s = BitVec.ofNat 32 (s.phase.bits.toNat + 4 * s.level.toNat + 8 * s.format.bits.toNat) := by
  apply BitVec.eq_of_toNat_eq
  simp only [viewStatus, toNat_append_eq_add, BitVec.toNat_ofNat]
  omega

theorem viewFaults_eq (s : State) : viewFaults s = BitVec.ofNat 32 (s.fault.toNat + 16 * s.lastCause.toNat) := by
  apply BitVec.eq_of_toNat_eq
  simp only [viewFaults, toNat_append_eq_add, BitVec.toNat_ofNat]
  omega

theorem viewBits_eq (s : State) : viewBits s = BitVec.ofNat 32 (s.acc.toNat + 256 * s.cnt.toNat) := by
  apply BitVec.eq_of_toNat_eq
  simp only [viewBits, toNat_append_eq_add, BitVec.toNat_ofNat]
  omega

theorem viewHist_eq (s : State) : viewHist s = BitVec.ofNat 32 s.hist.toNat := by
  apply BitVec.eq_of_toNat_eq
  simp only [viewHist, toNat_append_eq_add, BitVec.toNat_ofNat]
  omega

theorem checksumValue_eq (format : Format) (c : Word) :
    checksumValue format c = BitVec.ofNat 32 (if format = .zlib then c.toNat else (~~~c).toNat) := by
  cases format <;> exact word_eq_ofNat_toNat _

theorem exec_rdreg_of_view {reg : BitVec 4} {s : State} {v : Word} (h : view reg s = some v) :
    exec (.rdreg 0 reg 0) s = .next { s with response := some ⟨true, 0, v⟩ } := by
  simp only [exec, execRdreg, h]
  rfl

/-- The indices 8 to 15 have no view. -/
theorem view_reserved {reg : BitVec 4} (h : 8 ≤ reg.toNat) (s : State) : view reg s = none := by
  obtain ⟨k, hk⟩ := Nat.exists_eq_add_of_le' h
  rw [view, hk]
  rfl

theorem exec_rdreg_reserved {reg : BitVec 4} (h : 8 ≤ reg.toNat) (s : State) :
    exec (.rdreg 0 reg 0) s = .next (raiseFault .illegal (wordRdreg 0 reg 0) s) := by
  simp only [exec, execRdreg, view_reserved h]
  rfl

end Sys2Proof.Machine

namespace Sys2Proof.Proofs

open Sys2Proof Sys2Proof.Machine

/-- Settles O12: one byte of Adler32 reduces both sums, INIT seeds them reduced, and nothing else but a disturbing host
touches CKSUM while FORMAT is zlib. -/
theorem adlerSumsStayReduced : Obligations.AdlerSumsStayReduced := by
  intro s t hs hdutiful h
  rcases step_cases h with ⟨-, rfl⟩ | ⟨a, rest, hin, harrival⟩
  · exact hs
  · rcases harrival with ⟨x, i, rfl, -, he⟩ | ⟨d, r, rfl, -⟩ | ⟨rfl, rfl⟩ | ⟨r, rfl, rfl⟩
    · exact adlerReduced_exec (by simpa [AdlerReduced] using hs) he
    · exact absurd hin (hdutiful d r rest)
    · exact adlerReduced_applyReset _
    · exact adlerReduced_applyResetDuring r _

/-- Settles O30: no other meaning reads the fault registers, so clearing them afterwards hides what they were before. -/
theorem onlyRdregReadsTheFaultRegisters : Obligations.OnlyRdregReadsTheFaultRegisters := by
  intro i s t f l w hi ht
  have h := exec_faults hi s f l w
  rw [ht] at h
  obtain ⟨t', ht', hclear⟩ := mapNext_eq_next h
  exact ⟨t', ht', hclear.symm⟩

/-- Settles O32: where FMT names a format INIT has its effect, and that writes the V bit of each HASH entry and keeps the
entry's P. -/
theorem initStartsAStream : Obligations.InitStartsAStream := by
  intro en s fmt format hfmt
  refine ⟨initEffect en format s, ?_, ?_, fun h => ?_⟩
  · rcases hfmt with ⟨rfl, rfl⟩ | ⟨rfl, rfl⟩ | ⟨rfl, rfl⟩ <;> rfl
  · rcases hfmt with ⟨rfl, rfl⟩ | ⟨rfl, rfl⟩ | ⟨rfl, rfl⟩ <;> rfl
  · refine ⟨hashInvalid_hashInvalidate s.hash h, ?_⟩
    simp only [initEffect_hash, hashRead, hashInvalidate, Memory.read_mapValues]
    cases s.hash.read h <;> rfl

/-- Settles O35: ENCODE's checks and effect do not read MORE, and a fault records the word. -/
theorem moreHasNoEffect : Obligations.MoreHasNoEffect := by
  intro more more' rsvd cap data s t ht
  rcases execEncode_more_cases rsvd cap data s with ⟨c, hfault⟩ | heffect
  · cases (hfault more).symm.trans ht
    rw [if_neg (by simp [faultResponse])]
    exact hfault more'
  · cases (heffect more).symm.trans ht
    rw [if_pos (encodeEffect_response data s)]
    exact heffect more'

/-- Settles O33: the registers ENCODE updates are read off its effect field by field, and every other field is as it was. -/
theorem encodeCompletes : Obligations.EncodeCompletes := by
  intro more cap data s hp hcap
  refine ⟨encodeEffect data s, exec_encode_completes more hp hcap, ?_, ?_, ?_, fun hd => ?_, fun hd => ?_, fun hl => ?_⟩
  · cases data <;> rfl
  · exact (encodeUpdate_cksum data s).trans (checksumUpdate_eq_foldl _ _ _)
  · exact encodeUpdate_totalIn data s
  · exact (congrArg BitVec.toNat (encodeUpdate_hist data s hd)).trans (toNat_histAfter _ _)
  · subst hd
    exact ⟨rfl, rfl, rfl, encodeUpdate_nil_acc_cnt s⟩
  · exact encodeUpdate_hash_of_level_zero hl data

/-- Settles O43: each view is its fields put side by side, and the word of a reserved index is RDREG's with that index. -/
theorem rdregReturnsTheViews : Obligations.RdregReturnsTheViews := by
  refine fun s => ⟨fun reg v hv hreg => ?_, fun reg hreg => ?_⟩
  · subst hv
    have hcases : reg = 0 ∨ reg = 1 ∨ reg = 2 ∨ reg = 3 ∨ reg = 4 ∨ reg = 5 ∨ reg = 6 ∨ reg = 7 := by
      revert reg; decide
    apply exec_rdreg_of_view
    rcases hcases with rfl | rfl | rfl | rfl | rfl | rfl | rfl | rfl
    · exact congrArg some (viewStatus_eq s)
    · exact congrArg some (viewFaults_eq s)
    · exact congrArg some (word_eq_ofNat_toNat s.faultCmd)
    · exact congrArg some (word_eq_ofNat_toNat s.cksum)
    · exact congrArg some (checksumValue_eq s.format s.cksum)
    · exact congrArg some (word_eq_ofNat_toNat s.totalIn)
    · exact congrArg some (viewBits_eq s)
    · exact congrArg some (viewHist_eq s)
  · have hword : wordRdreg 0 reg 0 = 0x5#32 ||| (reg.setWidth 32 <<< 8) := by clear hreg; revert reg; decide
    rw [exec_rdreg_reserved hreg, hword]
    rfl

end Sys2Proof.Proofs

/-! WINDOW after ENCODE (41_match_finder R188), and which of its bytes the match finder reads (R185, R186). -/

namespace Sys2Proof.Machine

/-! What WindowUpdate writes. -/

/-- An index that no byte of the chunk maps to reads as before. -/
theorem read_windowUpdate_of_forall_ne {win : Memory Byte} {q k : Nat} {d : List Byte}
    (h : ∀ i, i < d.length → (q + i) % wsize ≠ k) : (windowUpdate win q d).read k = win.read k := by
  induction d generalizing win q with
  | nil => rfl
  | cons b rest ih =>
    have hrest (i : Nat) (hi : i < rest.length) : (q + 1 + i) % wsize ≠ k := by
      have hnext := h (i + 1) (Nat.succ_lt_succ hi)
      rwa [Nat.add_right_comm]
    rw [windowUpdate, ih hrest, winWrite, Memory.read_write]
    exact if_neg (h 0 (Nat.succ_pos _)).symm

/-- Of the last 32768 bytes of a chunk, byte i is at its index: no later byte of the chunk maps there too. -/
theorem read_windowUpdate_of_lt {win : Memory Byte} {q i : Nat} {d : List Byte} (hi : i < d.length)
    (hlast : d.length ≤ i + wsize) : (windowUpdate win q d).read ((q + i) % wsize) = d[i]? := by
  induction d generalizing win q i with
  | nil => cases hi
  | cons b rest ih =>
    rw [List.length_cons] at hi hlast
    cases i with
    | zero =>
      have hlater (j : Nat) (hj : j < rest.length) : (q + 1 + j) % wsize ≠ q % wsize := by
        simp only [wsize] at hlast ⊢
        omega
      rw [windowUpdate, Nat.add_zero q, read_windowUpdate_of_forall_ne hlater, winWrite, Memory.read_write]
      exact if_pos rfl
    | succ i =>
      rw [windowUpdate, List.getElem?_cons_succ, show q + (i + 1) = q + 1 + i by omega]
      exact ih (by omega) (by omega)

/-- WindowUpdate puts the chunk after the bytes that WINDOW held: the last 32768 bytes of the stream with the chunk. -/
theorem winRead_windowUpdate {win : Memory Byte} {q h : Nat} {data stream : List Byte}
    (hwin : ∀ k : Nat, 1 ≤ k → k ≤ h →
      stream[k - 1]? = some (winRead win (((q : Int) - (k : Int)) % (wsize : Int)).toNat))
    {k : Nat} (h1 : 1 ≤ k) (hk : k ≤ min wsize (h + data.length)) :
    (data.reverse ++ stream)[k - 1]? =
      some (winRead (windowUpdate win q data) ((((q + data.length : Nat) : Int) - (k : Int)) % (wsize : Int)).toNat) := by
  have hbound : k ≤ wsize ∧ k ≤ h + data.length := le_min_iff.1 hk
  rcases Nat.lt_or_ge data.length k with hold | hnew
  · have hindex : ((((q + data.length : Nat) : Int) - (k : Int)) % (wsize : Int)).toNat =
        (((q : Int) - ((k - data.length : Nat) : Int)) % (wsize : Int)).toNat := by
      congr 2; omega
    have huntouched (i : Nat) (hi : i < data.length) :
        (q + i) % wsize ≠ (((q : Int) - ((k - data.length : Nat) : Int)) % (wsize : Int)).toNat := by
      simp only [wsize] at hbound ⊢
      omega
    rw [List.getElem?_append_right (by simp; omega), List.length_reverse, hindex, winRead,
      read_windowUpdate_of_forall_ne huntouched, ← winRead, ← hwin _ (by omega) (by omega)]
    congr 1
    omega
  · have hindex : ((((q + data.length : Nat) : Int) - (k : Int)) % (wsize : Int)).toNat =
        (q + (data.length - k)) % wsize := by
      simp only [wsize]
      omega
    have hlt : data.length - k < data.length := by omega
    rw [List.getElem?_append_left (by simp; omega), List.getElem?_reverse (by omega), hindex, winRead,
      read_windowUpdate_of_lt hlt (by omega), show data.length - 1 - (k - 1) = data.length - k by omega,
      List.getElem?_eq_getElem hlt]
    rfl

/-- The index does not see the wrap of TOTAL_IN (10_state R28). -/
theorem windowIndex_totalIn (t : Word) (n k : Nat) :
    (((t + BitVec.ofNat 32 n).toNat : Int) - (k : Int)) % (wsize : Int) =
      (((t.toNat + n : Nat) : Int) - (k : Int)) % (wsize : Int) := by
  rw [BitVec.toNat_add, BitVec.toNat_ofNat]
  simp only [wsize]
  omega

theorem windowHolds_encodeUpdate {s : State} {stream : List Byte} (h : windowHolds s stream) (data : List Byte) :
    windowHolds (encodeUpdate data s) (data.reverse ++ stream) := by
  obtain ⟨hle, hwin⟩ := h
  have hhist := toNat_encodeUpdate_hist hle data
  refine ⟨hhist ▸ Nat.min_le_left _ _, fun k h1 hk => ?_⟩
  rw [encodeUpdate_window, encodeUpdate_totalIn, windowIndex_totalIn]
  exact winRead_windowUpdate hwin h1 (hhist ▸ hk)

/-! What the match finder reads of WINDOW. -/

/-- Two windows agree on the last `h0` bytes before position `p0`. -/
def WindowsAgree (p0 : Word) (h0 : Nat) (win win' : Memory Byte) : Prop :=
  ∀ k : Nat, 1 ≤ k → k ≤ h0 →
    winRead win (((p0.toNat : Int) - (k : Int)) % (wsize : Int)).toNat =
      winRead win' (((p0.toNat : Int) - (k : Int)) % (wsize : Int)).toNat

section
variable {p0 : Word} {h0 : Nat} {win win' : Memory Byte} (h : WindowsAgree p0 h0 win win') (d : List Byte)
include h

theorem byteSource_congr {j : Int} (hj : -(h0 : Int) ≤ j) : byteSource d p0 win j = byteSource d p0 win' j := by
  simp only [byteSource]
  split
  · rfl
  · obtain ⟨k, rfl⟩ : ∃ k : Nat, j = -(k : Int) := ⟨j.natAbs, by omega⟩
    exact h k (by omega) (by omega)

theorem matchExtend_congr {i dist : Nat} (hdist : dist ≤ h0 + i) (fuel len : Nat) :
    matchExtend d p0 win i dist fuel len = matchExtend d p0 win' i dist fuel len := by
  induction fuel generalizing len with
  | zero => rfl
  | succ n ih =>
    have hback : -(h0 : Int) ≤ ((i + len : Nat) : Int) - dist := by omega
    simp only [matchExtend, byteSource_congr h d hback, ih]

/-- A candidate is used only where it lies within the last HIST bytes and the chunk (41_match_finder R186). -/
theorem matchCandidate_congr (i : Nat) (e : HashEntry) :
    matchCandidate d p0 h0 win i e = matchCandidate d p0 h0 win' i e := by
  simp only [matchCandidate]
  split
  · split
    · next hdist => rw [matchExtend_congr h d (hdist.2.trans (Nat.min_le_right _ _))]
    · rfl
  · rfl

theorem tokenizeFrom_congr (fuel i : Nat) (hash : Memory HashEntry) :
    tokenizeFrom d p0 h0 win fuel i hash = tokenizeFrom d p0 h0 win' fuel i hash := by
  induction fuel generalizing i hash with
  | zero => rfl
  | succ n ih => simp only [tokenizeFrom, matchCandidate_congr h d, ih]

end

/-- Under the reference policy ENCODE's blocks depend on WINDOW only through the last HIST bytes. -/
theorem encodeBlocks_window {s : State} (hpolicy : s.policy = .reference) {window : Memory Byte}
    (h : WindowsAgree s.totalIn s.hist.toNat window s.window) (data : List Byte) (p : Packer) :
    encodeBlocks data { s with window := window } p = encodeBlocks data s p := by
  have hchoice : chooseTokens data { s with window := window } = chooseTokens data s := by
    simp only [chooseTokens, hpolicy, tokenize, tokenizeFrom_congr h data]
  simp only [encodeBlocks, hchoice]

/-- The state but for WINDOW. -/
def clearWindow (s : State) : State := { s with window := [] }

theorem encodeEffect_window {s : State} (hpolicy : s.policy = .reference) {window : Memory Byte}
    (h : WindowsAgree s.totalIn s.hist.toNat window s.window) (data : List Byte) :
    clearWindow (encodeEffect data { s with window := window }) = clearWindow (encodeEffect data s) := by
  by_cases hd : data = []
  · subst hd; rfl
  · have hblocks := encodeBlocks_window hpolicy h data
    simp only [encodeEffect, encodeUpdate_of_ne_nil hd, hblocks]
    rfl

/-- ENCODE's checks do not read WINDOW at all, and its effect as much as its blocks do. -/
theorem execEncode_window {s : State} (hpolicy : s.policy = .reference) {window : Memory Byte}
    (h : WindowsAgree s.totalIn s.hist.toNat window s.window) (more : BitVec 1) (rsvd : BitVec 27) (cap : Word)
    (data : List Byte) :
    mapNext clearWindow (execEncode more rsvd cap data { s with window := window }) =
      mapNext clearWindow (execEncode more rsvd cap data s) := by
  have hworst : worstEnc { s with window := window } data.length = worstEnc s data.length := rfl
  simp only [execEncode, hworst]
  split_ifs
  · rfl
  · rfl
  · rfl
  · exact congrArg Host.Outcome.next (encodeEffect_window hpolicy h data)

end Sys2Proof.Machine

namespace Sys2Proof.Proofs

open Sys2Proof Sys2Proof.Machine

/-- Settles O49: of the bytes of a chunk that map to one index of WINDOW the last one stays, and among the last 32768 bytes no
two map to one index. -/
theorem encodeWritesItsChunkIntoWindow : Obligations.EncodeWritesItsChunkIntoWindow := by
  intro more cap data s hp hd hcap
  have hwindow : (encodeEffect data s).window = windowUpdate s.window s.totalIn.toNat data := encodeUpdate_window data s
  refine ⟨encodeEffect data s, exec_encode_completes more hp hcap, fun i hi hlast => ?_, fun k hk => ?_, ?_, ?_⟩
  · exact hwindow ▸ read_windowUpdate_of_lt hi hlast
  · exact hwindow ▸ read_windowUpdate_of_forall_ne hk
  · exact (congrArg BitVec.toNat (encodeUpdate_hist data s hd)).trans (toNat_histAfter _ _)
  · refine (congrArg BitVec.toNat (encodeUpdate_totalIn data s)).trans ?_
    rw [BitVec.toNat_add, BitVec.toNat_ofNat, Nat.add_mod_mod]

/-- Settles O48: an ENCODE that answers OK has its effect, which puts the chunk after the bytes WINDOW held, and what it writes
over is more than 32768 bytes back. -/
theorem windowHoldsTheStream : Obligations.WindowHoldsTheStream := by
  intro more rsvd cap data stream s t result hwin ht hok
  rcases execEncode_more_cases rsvd cap data s with ⟨c, hfault⟩ | heffect
  · cases (hfault more).symm.trans ht
    cases hok
  · cases (heffect more).symm.trans ht
    exact windowHolds_encodeUpdate hwin data

/-- Settles O51: ENCODE reads WINDOW only where it compares a candidate, and a candidate that is used starts within the last
HIST bytes. -/
theorem unspecifiedWindowBytesAreNotRead : Obligations.UnspecifiedWindowBytesAreNotRead := by
  intro more rsvd cap data s t window hpolicy hagree ht
  have h := execEncode_window hpolicy hagree more rsvd cap data
  rw [show execEncode more rsvd cap data s = .next t from ht] at h
  obtain ⟨t', ht', hclear⟩ := mapNext_eq_next h
  exact ⟨t', ht', hclear.symm⟩

end Sys2Proof.Proofs

/-! How many bytes ENCODE and FINISH write, at both LEVELs, whatever tokens are chosen (42_bit_packer R226 to R233). -/

namespace Sys2Proof.Machine

/-! Stored pieces. -/

/-- The pieces of a chunk are the chunk, cut up: one for every 65535 bytes and one for the rest (42_bit_packer R226). -/
theorem storedPieces_spec {fuel : Nat} {d : List Byte} (h : d.length ≤ fuel) :
    (storedPieces fuel d).flatten = d ∧ (storedPieces fuel d).length = ceilDiv d.length storedMax := by
  induction fuel generalizing d with
  | zero =>
    obtain rfl := List.eq_nil_of_length_eq_zero (Nat.le_zero.1 h)
    exact ⟨rfl, rfl⟩
  | succ n ih =>
    by_cases hd : d = []
    · subst hd; exact ⟨rfl, rfl⟩
    · have hpos : 0 < d.length := List.length_pos_iff.2 hd
      have hrest : (d.drop storedMax).length ≤ n := by
        simp only [List.length_drop, storedMax]; omega
      obtain ⟨hflat, hcount⟩ := ih hrest
      rw [List.length_drop] at hcount
      simp only [storedPieces, List.isEmpty_iff, if_neg hd, List.flatten_cons, hflat, List.length_cons, hcount]
      exact ⟨List.take_append_drop _ _, (ceilDiv_succ (by decide) hpos).trans (Nat.add_comm _ _) |>.symm⟩

/-! The bits of each kind of block. -/

/-- A fixed block packs FixedBits bits (42_bit_packer R228). -/
theorem bitCount_emitFixed (ts : List Token) (p : Packer) : bitCount (emitFixed ts p) = bitCount p + fixedBits ts := by
  rw [emitFixed, bitCount_putHuff, bitCount_foldl_emitToken, bitCount_putBits, fixedBits, show huffLen eobSymbol = 7 from rfl]
  omega

/-- A stored chunk packs StoredBits bits (42_bit_packer R228): only its first block meets pending bits. -/
theorem bitCount_emitStored {d : List Byte} (hd : d ≠ []) (p : Packer) :
    bitCount (emitStored d p) = bitCount p + storedBits d.length p.c := by
  obtain ⟨hflat, hcount⟩ := storedPieces_spec (le_refl d.length)
  have hsum := congrArg List.length hflat
  rw [List.length_flatten] at hsum
  rw [emitStored, storedBits, ← hcount]
  cases hpieces : storedPieces d.length d with
  | nil => exact absurd (hflat.symm.trans (congrArg List.flatten hpieces)) hd
  | cons e rest =>
    rw [hpieces] at hsum
    obtain ⟨hc, hfirst⟩ := emitStoredBlock_count e p
    obtain ⟨hc', hrest⟩ := foldl_emitStoredBlock_count rest _ hc
    simp only [List.foldl_cons, bitCount, hc', hrest, hfirst, List.map_cons, List.sum_cons, List.length_cons,
      ceilDiv] at hsum ⊢
    omega

/-- Whichever block ENCODE chooses, it packs at most StoredBits bits: the fixed block is taken only where it is no dearer
(42_bit_packer R229). -/
theorem bitCount_encodeBlocks_le {data : List Byte} (hd : data ≠ []) {s : State} {p : Packer} (hp : p.c = s.cnt.toNat) :
    bitCount (encodeBlocks data s p).1 ≤ bitCount p + storedBits data.length s.cnt.toNat := by
  have hstored := bitCount_emitStored hd p
  rw [hp] at hstored
  simp only [encodeBlocks]
  split
  · exact hstored.le
  · split
    · rw [bitCount_emitFixed]
      exact Nat.add_le_add_left ‹_› _
    · exact hstored.le

/-- With the pending bits, StoredBits is at most the bits of the chunk, of 5 bytes for each piece and of one byte more
(42_bit_packer R232). -/
theorem add_storedBits_le {n c : Nat} (hn : 0 < n) (hc : c < 8) :
    c + storedBits n c ≤ 8 * (n + 5 * ceilDiv n storedMax + 1) := by
  have hpiece := ceilDiv_succ (b := storedMax) (by decide) hn
  have hfirst : 8 * ceilDiv (c + 3) 8 ≤ 16 := by simp only [ceilDiv]; omega
  simp only [storedBits]
  omega

/-! The bytes of each command. -/

/-- A command's packer holds HDR_IF_IDLE bytes when its header is out (42_bit_packer R232). -/
theorem length_header (s : State) : (emitHeaderIfIdle s (openPacker s)).emitted.length = hdrIfIdle s :=
  (length_emitHeaderIfIdle s (openPacker s)).trans (Nat.zero_add _)

/-- ENCODE writes at most WORST_ENC(LEN) bytes (42_bit_packer R232, R233). -/
theorem encodeUpdate_cursor_le (data : List Byte) (s : State) : (encodeUpdate data s).cursor ≤ worstEnc s data.length := by
  have hheader := length_header s
  by_cases hd : data = []
  · simp [hd, encodeUpdate_nil, worstEnc, hheader]
  · have hn : 0 < data.length := List.length_pos_iff.2 hd
    have hblocks := bitCount_encodeBlocks_le hd (emitHeaderIfIdle_c s (openPacker s))
    have hworst := add_storedBits_le hn s.cnt.isLt
    simp only [bitCount, emitHeaderIfIdle_c, openPacker_c, hheader] at hblocks
    simp only [encodeUpdate_of_ne_nil hd, commitPacker_cursor, worstEnc, if_neg hn.ne']
    omega

/-- FINISH writes at most WORST_FIN bytes: the 10 bits of the final block and up to 7 pending ones fill at most 3
(42_bit_packer R232, R233). -/
theorem finishUpdate_cursor_le (s : State) : (finishUpdate s).cursor ≤ worstFin s := by
  have hheader := length_header s
  have hfinal : bitCount (emitFinalBlock (emitHeaderIfIdle s (openPacker s))) =
      bitCount (emitHeaderIfIdle s (openPacker s)) + 3 + 7 := by
    rw [emitFinalBlock, bitCount_putHuff, bitCount_putBits]; rfl
  have halign := (align_count (emitFinalBlock (emitHeaderIfIdle s (openPacker s))) (c_lt_putBits _ _ _)).2
  have hcnt := s.cnt.isLt
  simp only [bitCount, emitHeaderIfIdle_c, openPacker_c, hheader] at hfinal
  simp only [finishUpdate, commitPacker_cursor, emitTrailer, Packer.emitAll, List.length_append, length_trailerBytes,
    worstFin, halign, ceilDiv]
  omega

/-- What the packer writes back leaves OUT at and above the new output cursor as it was. -/
theorem commitPacker_out_above {p : Packer} {s : State} {a : Nat} (h : (commitPacker p s).cursor ≤ a) :
    (commitPacker p s).out.read a = s.out.read a := by
  rw [commitPacker_cursor] at h
  rw [commitPacker_out, Memory.read_writeAll, if_neg (by omega)]

theorem encodeUpdate_out_above {data : List Byte} {s : State} {a : Nat} (h : (encodeUpdate data s).cursor ≤ a) :
    (encodeUpdate data s).out.read a = s.out.read a := by
  by_cases hd : data = []
  · rw [hd, encodeUpdate_nil] at h ⊢
    exact commitPacker_out_above (s := { s with cursor := 0 }) h
  · rw [encodeUpdate_of_ne_nil hd] at h ⊢
    exact commitPacker_out_above (s := { s with cursor := 0 }) h

theorem finishUpdate_out_above {s : State} {a : Nat} (h : (finishUpdate s).cursor ≤ a) :
    (finishUpdate s).out.read a = s.out.read a :=
  commitPacker_out_above (s := { s with cursor := 0 }) h

/-! What answers OK. -/

/-- An ENCODE that answers OK has had its effect, and its worst case fits CAP (40_commands R145, R146). -/
theorem encodeEffect_of_ok {more : BitVec 1} {rsvd : BitVec 27} {cap : Word} {data : List Byte} {s t : State}
    {result : Word} (ht : exec (.encode more rsvd cap data) s = .next t) (hok : t.response = some ⟨true, 0, result⟩) :
    worstEnc s data.length ≤ cap.toNat ∧ t = encodeEffect data s := by
  rcases execEncode_cases more rsvd cap data s with ⟨-, e⟩ | ⟨-, -, e⟩ | ⟨-, -, -, e⟩ | ⟨-, -, hcap, e⟩ <;>
    cases e.symm.trans ht
  · cases hok
  · cases hok
  · cases hok
  · exact ⟨hcap, rfl⟩

/-- A FINISH that answers OK has had its effect, and its worst case fits CAP (40_commands R149, R150). -/
theorem finishEffect_of_ok {rsvd : BitVec 28} {cap : Word} {s t : State} {result : Word}
    (ht : exec (.finish rsvd cap) s = .next t) (hok : t.response = some ⟨true, 0, result⟩) :
    worstFin s ≤ cap.toNat ∧ t = finishEffect s := by
  rcases execFinish_cases rsvd cap s with ⟨-, e⟩ | ⟨-, -, e⟩ | ⟨-, -, -, e⟩ | ⟨-, -, hcap, e⟩ <;>
    cases e.symm.trans ht
  · cases hok
  · cases hok
  · cases hok
  · exact ⟨hcap, rfl⟩

/-- RESULT is the output cursor, without wrap, where the cursor is within a capacity. -/
theorem toNat_result {s : State} {n : Nat} {cap result : Word} (hn : n ≤ cap.toNat)
    (hok : (respond (BitVec.ofNat 32 n) s).response = some ⟨true, 0, result⟩) : result.toNat = n := by
  cases hok
  rw [BitVec.toNat_ofNat]
  exact Nat.mod_eq_of_lt (lt_of_le_of_lt hn cap.isLt)

end Sys2Proof.Machine

/-! The output elements, each run alone (log 4): its bits, by the packing operation it is. -/

namespace Sys2Proof.Machine

/-- `o` is what element `e` leaves of `s`: its bits packed after the pending ones, whole bytes in OUT at the cursor, the
counts of the stream bytes it stands for (log 15) at `count` and `len`, and nothing else changed. -/
def PacksElement (e : Element) (s : State) (count len : Nat) (o : Host.Outcome State Fault Refusal) : Prop :=
  ∃ t bytes, o = .next t ∧
    t = { s with
      acc := t.acc, cnt := t.cnt, out := t.out, cursor := s.cursor + bytes.length, elementBytes := count,
      elementLen := len } ∧
    bytesBits bytes ++ pendingBits t = pendingBits s ++ elementBits e ∧
    t.acc.toNat < 2 ^ t.cnt.toNat ∧ holdsAt t.out s.cursor bytes ∧
    ∀ a : Nat, a < s.cursor ∨ s.cursor + bytes.length ≤ a → t.out.read a = s.out.read a

theorem holdsAt_writeAll (m : Memory Byte) (o : Nat) (l : List Byte) : holdsAt (m.writeAll o l) o l := by
  intro k hk
  rw [Memory.read_writeAll, if_pos (by omega), Nat.add_sub_cancel_left]

theorem appends_putHuff (sym : Nat) : Appends (putHuff sym) (msbBits (huffLen sym) (huffCode sym)) :=
  appends_rev _ (by have := huffLen_le sym; omega)

/-- A run of the packer that appends an element's code and extra bits, whatever is counted beside it. -/
theorem packsElement_runPacker {f : Packer → Packer} {width code extraWidth extra : Nat} {s : State}
    (hf : Appends f (msbBits width code ++ lsbBits extraWidth extra)) (hs : s.acc.toNat < 2 ^ s.cnt.toNat)
    (kind : ElementKind) (count len : Nat) :
    PacksElement ⟨kind, ⟨width, code⟩, ⟨extraWidth, extra⟩, []⟩ s count len
      (.next { runPacker f s with elementBytes := count, elementLen := len }) := by
  obtain ⟨bytes, hrun, hbits, hsettled⟩ := runPacker_spec hf hs
  have hout : (runPacker f s).out = s.out.writeAll s.cursor bytes := by rw [hrun]
  refine ⟨_, bytes, rfl, ?_, hbits, hsettled, ?_, fun a ha => ?_⟩
  · rw [hrun]
  · exact hout ▸ holdsAt_writeAll _ _ _
  · show (runPacker f s).out.read a = _
    rw [hout, Memory.read_writeAll, if_neg (by omega)]

section elements
variable {s : State} (hs : s.acc.toNat < 2 ^ s.cnt.toNat)
include hs

/-- A block header of 3 bits (42_bit_packer R221); its field is sent least significant bit first, so the row's code is the
field the other way round. -/
theorem packsElement_header {field code : Nat} (hfield : field < 8) (hcode : lsbBits 3 field = msbBits 3 code) :
    PacksElement ⟨.header, ⟨3, code⟩, ⟨0, 0⟩, []⟩ s s.elementBytes s.elementLen (.next (runPacker (putBits field 3) s)) := by
  have happ : Appends (putBits field 3) (msbBits 3 code ++ lsbBits 0 0) := by
    rw [lsbBits_zero, List.append_nil, ← hcode]
    exact appends_putBits hfield (by decide)
  exact packsElement_runPacker happ hs .header s.elementBytes s.elementLen

/-- A symbol's code without extra bits (42_bit_packer R214). -/
theorem packsElement_putHuff {sym width code : Nat} (hwidth : huffLen sym = width) (hcode : huffCode sym = code)
    (count : Nat) :
    PacksElement ⟨.symbol, ⟨width, code⟩, ⟨0, 0⟩, []⟩ s count s.elementLen
      (.next { runPacker (putHuff sym) s with elementBytes := count }) := by
  subst hwidth hcode
  have happ : Appends (putHuff sym) (msbBits (huffLen sym) (huffCode sym) ++ lsbBits 0 0) := by
    rw [lsbBits_zero, List.append_nil]
    exact appends_putHuff sym
  exact packsElement_runPacker happ hs .symbol count s.elementLen

/-- A length symbol's code and its extra bits (42_bit_packer R219). -/
theorem packsElement_runLength {sym width code base extra : Nat} (hextra : lenExtraOk sym extra = true)
    (hwidth : huffLen sym = width) (hcode : huffCode sym = code) (hbase : lenBase (sym - 257) = base) :
    PacksElement ⟨.symbol, ⟨width, code⟩, ⟨lenExtra (sym - 257), extra⟩, []⟩ s s.elementBytes
      (base + extra) (.next (runLength sym extra s)) := by
  subst hwidth hcode hbase
  exact packsElement_runPacker (appends_putLength (lenExtraOk_lt hextra).1) hs .symbol s.elementBytes _

/-- A distance code and its extra bits (42_bit_packer R219). -/
theorem packsElement_runDistance {j extra : Nat} (hextra : distExtraOk j extra = true) :
    PacksElement ⟨.distance, ⟨5, j⟩, ⟨distExtra j, extra⟩, []⟩ s (s.elementBytes + s.elementLen) 0
      (.next (runDistance j extra s)) :=
  packsElement_runPacker (appends_putDistance (distExtraOk_lt hextra).1) hs .distance _ 0

end elements

/-- A step with an undisturbed record or element first at the port decodes it and runs it, with the OUT that the host
supplies (20_memory R60, R66, R70). -/
theorem step_issue {s : State} {x : Encoding} {i : Instr} {rest : List Arrival} (hin : s.inbox = .issue x :: rest)
    (hx : decode x = .ok i) : step s = exec i (supplyOut i { s with inbox := rest }) := by
  rw [step, takeArrival, hin]
  simp only [arrive, runEncoding, hx]

end Sys2Proof.Machine

namespace Sys2Proof.Proofs

open Sys2Proof Sys2Proof.Machine

/-- Settles O36: a command that answers OK has had its effect, which moves the output cursor from 0 to at most the worst case
that its CAP check let through, and writes OUT below the cursor only. -/
theorem resultStaysWithinTheWorstCase : Obligations.ResultStaysWithinTheWorstCase := by
  refine ⟨fun more rsvd cap data s t result ht hok => ?_, fun rsvd cap s t result ht hok => ?_⟩
  · obtain ⟨hcap, rfl⟩ := encodeEffect_of_ok ht hok
    have hle := encodeUpdate_cursor_le data s
    have hresult : result.toNat = (encodeUpdate data s).cursor := toNat_result (hle.trans hcap) hok
    exact ⟨hresult, hresult ▸ hle, hcap, fun a ha => encodeUpdate_out_above (hresult ▸ ha)⟩
  · obtain ⟨hcap, rfl⟩ := finishEffect_of_ok ht hok
    have hle := finishUpdate_cursor_le s
    have hresult : result.toNat = (finishUpdate s).cursor := toNat_result (hle.trans hcap) hok
    exact ⟨hresult, hresult ▸ hle, hcap, fun a ha => finishUpdate_out_above (hresult ▸ ha)⟩

/-- Settles O54: every element is one packing operation, and its row's code and extra bits are what that operation appends. -/
theorem elementsPackTheirBits : Obligations.ElementsPackTheirBits := by
  intro i e s hwf henc hstored hs hdist
  cases i with
  | blkStoredHdr data => exact absurd rfl (hstored data)
  | blkFixedHdr | blkFinalHdr => cases henc; exact packsElement_header hs (by decide) (by decide)
  | eob => cases henc; exact packsElement_putHuff hs rfl rfl s.elementBytes
  | lit000F l | lit104F l | lit508F l | lit909F l | litA0BF l | litC0FF l =>
    have hl := l.isLt
    cases henc
    exact packsElement_putHuff hs (by simp only [huffLen]; split_ifs <;> omega)
      (by simp only [huffCode]; split_ifs <;> omega) (s.elementBytes + 1)
  | len257271 sym extra | len272279 sym extra | len280285 sym extra =>
    have hsym := sym.isLt
    simp only [Instr.wellFormed, Bool.and_eq_true, decide_eq_true_eq] at hwf
    cases henc
    simp only [exec, execLen257271, execLen272279, execLen280285, if_pos hwf]
    exact packsElement_runLength hs (by simp only [hwf]) (by simp only [huffLen]; split_ifs <;> omega)
      (by simp only [huffCode]; split_ifs <;> omega) (congrArg lenBase (by omega))
  | dist d extra =>
    simp only [Instr.wellFormed, Bool.and_eq_true, decide_eq_true_eq] at hwf
    cases henc
    rw [exec, execDist, if_pos ⟨hwf.1, hwf.2, hdist d extra rfl⟩]
    exact packsElement_runDistance hs hwf.2
  | _ => cases henc

/-- Settles O16: the step takes the arrival off the port, and only ENCODE and FINISH have an OUT to supply. -/
theorem stepRunsTheDecodedInstruction : Obligations.StepRunsTheDecodedInstruction := by
  intro s x i rest hin hx
  rw [step_issue hin hx]
  cases i <;> rfl

end Sys2Proof.Proofs

/-! The decoder of request records against the encoder: what each opcode calls for, and which command it is (30_encoding
R91 to R98). -/

namespace Sys2Proof

open Sys2Proof.Machine

/-- A bare word decodes exactly where nothing comes with it. -/
theorem bare_eq_ok_iff {r : Request} {i j : Instr} :
    bare r i = .ok j ↔ r.operands = [] ∧ r.input = [] ∧ i = j := by
  refine ⟨fun h => ?_, fun ⟨hops, hin, hij⟩ => ?_⟩
  · obtain ⟨hij, hops, hin⟩ := bare_ok h
    exact ⟨hops, hin, hij⟩
  · rw [bare, if_pos hops, if_pos hin, hij]

/-- The reserved opcodes 0x0 and 0x6 to 0xF call for a bare word, and the instruction faults ILLEGAL with that word (R98,
60_exceptions R304). -/
theorem decodeRequest_reserved {r : Request} (h : cwOp r.cw = 0 ∨ 6 ≤ (cwOp r.cw).toNat) :
    ∃ i, decodeRequest r = bare r i ∧ encode i = bareRequest r.cw ∧ i.wellFormed = true ∧
      ∀ s, exec i s = .next (raiseFault .illegal r.cw s) := by
  have hfault {w : Word} (hw : w = r.cw) (s : State) :
      (.next (raiseFault .illegal w s) : Host.Outcome State Fault Refusal) = .next (raiseFault .illegal r.cw s) := by rw [hw]
  have hcases : cwOp r.cw = 0 ∨ cwOp r.cw = 6 ∨ cwOp r.cw = 7 ∨ 8 ≤ (cwOp r.cw).toNat := by
    generalize cwOp r.cw = op at h
    revert op
    decide
  rcases hcases with h' | h' | h' | h'
  · have hw : wordReserved0 (cwAbove4 r.cw) = r.cw := above4_append_of_cwOp h'
    exact ⟨.reservedOp0 _, by rw [decodeRequest, h']; rfl, congrArg bareRequest hw, rfl, hfault hw⟩
  · have hw : wordReserved67 0 (cwAbove4 r.cw) = r.cw := above4_append_of_cwOp h'
    exact ⟨.reservedOp67 0 _, by rw [decodeRequest, h']; rfl, congrArg bareRequest hw, rfl, hfault hw⟩
  · have hw : wordReserved67 1 (cwAbove4 r.cw) = r.cw := above4_append_of_cwOp h'
    exact ⟨.reservedOp67 1 _, by rw [decodeRequest, h']; rfl, congrArg bareRequest hw, rfl, hfault hw⟩
  · have hw := wordReserved8F_of_cwOp h'
    obtain ⟨k, hk⟩ := Nat.exists_eq_add_of_le' h'
    exact ⟨.reservedOp8F _ _, by rw [decodeRequest, hk]; rfl, congrArg bareRequest hw, rfl, hfault hw⟩

/-- Every opcode but ENCODE's and FINISH's calls for a bare word, and the instruction is the one whose word it is. -/
theorem decodeRequest_eq_bare {r : Request} (h3 : cwOp r.cw ≠ 3) (h4 : cwOp r.cw ≠ 4) :
    ∃ i, decodeRequest r = bare r i ∧ encode i = bareRequest r.cw ∧ i.wellFormed = true := by
  by_cases hres : cwOp r.cw = 0 ∨ 6 ≤ (cwOp r.cw).toNat
  · obtain ⟨i, hi, henc, hwf, -⟩ := decodeRequest_reserved hres
    exact ⟨i, hi, henc, hwf⟩
  · have h : cwOp r.cw = 1 ∨ cwOp r.cw = 2 ∨ cwOp r.cw = 5 := by
      generalize cwOp r.cw = op at *
      revert op
      decide
    rcases h with h | h | h
    · exact ⟨.tblinit _, by rw [decodeRequest, h]; rfl, congrArg bareRequest (above4_append_of_cwOp h), rfl⟩
    · exact ⟨.init _ _ _, by rw [decodeRequest, h]; rfl, congrArg bareRequest (wordInit_of_cwOp h), rfl⟩
    · exact ⟨.rdreg _ _ _, by rw [decodeRequest, h]; rfl, congrArg bareRequest (wordRdreg_of_cwOp h), rfl⟩

/-- ENCODE calls for two operand words and LEN bytes. -/
theorem decodeRequest_encode_iff {r : Request} (h : cwOp r.cw = 3) {i : Instr} :
    decodeRequest r = .ok i ↔ ∃ len cap, r.operands = [len, cap] ∧ r.input.length = len.toNat ∧
      i = .encode (cwMore r.cw) (cwAbove5 r.cw) cap r.input := by
  have hop : (cwOp r.cw).toNat = 3 := congrArg BitVec.toNat h
  simp only [decodeRequest, hop]
  split
  · split <;> simp_all [eq_comm]
  · simp_all

/-- FINISH calls for one operand word. -/
theorem decodeRequest_finish_iff {r : Request} (h : cwOp r.cw = 4) {i : Instr} :
    decodeRequest r = .ok i ↔ ∃ cap, r.operands = [cap] ∧ r.input = [] ∧ i = .finish (cwAbove4 r.cw) cap := by
  have hop : (cwOp r.cw).toNat = 4 := congrArg BitVec.toNat h
  simp only [decodeRequest, hop]
  split
  · split <;> simp_all [eq_comm]
  · simp_all

/-- What a record decodes to is well-formed, and the record is its encoding. -/
theorem encode_of_decodeRequest {r : Request} {i : Instr} (h : decodeRequest r = .ok i) :
    i.wellFormed = true ∧ encode i = .request r := by
  obtain ⟨cw, operands, input⟩ := r
  by_cases h3 : cwOp cw = 3
  · obtain ⟨len, cap, rfl, hlen, rfl⟩ := (decodeRequest_encode_iff h3).1 h
    refine ⟨decide_eq_true (hlen ▸ len.isLt), ?_⟩
    simp only [encode, wordEncode_of_cwOp h3, hlen, ← word_eq_ofNat_toNat]
  · by_cases h4 : cwOp cw = 4
    · obtain ⟨cap, rfl, rfl, rfl⟩ := (decodeRequest_finish_iff h4).1 h
      have hw : wordFinish (cwAbove4 cw) = cw := above4_append_of_cwOp h4
      exact ⟨rfl, by rw [encode, hw]⟩
    · obtain ⟨j, hj, henc, hwf⟩ := decodeRequest_eq_bare (r := ⟨cw, operands, input⟩) h3 h4
      obtain ⟨rfl, rfl, rfl⟩ := bare_eq_ok_iff.1 (hj ▸ h)
      exact ⟨hwf, henc⟩

/-- A command's encoding decodes to it. -/
theorem decode_encode_of_isCommand {i : Instr} (hi : i.isCommand = true) (hwf : i.wellFormed = true) :
    decode (encode i) = .ok i := by
  cases i with
  | encode more rsvd cap data =>
    have hlen : (BitVec.ofNat 32 data.length).toNat = data.length :=
      (BitVec.toNat_ofNat _ _).trans (Nat.mod_eq_of_lt (of_decide_eq_true hwf))
    refine (decodeRequest_encode_iff (cwOp_wordEncode more rsvd)).2 ⟨_, cap, rfl, hlen.symm, ?_⟩
    rw [cwMore_wordEncode, cwAbove5_wordEncode]
  | finish rsvd cap =>
    refine (decodeRequest_finish_iff (cwOp_wordFinish rsvd)).2 ⟨cap, rfl, rfl, ?_⟩
    rw [cwAbove4_wordFinish]
  | tblinit | init | rdreg | reservedOp0 => simp [encode, bareRequest, decode, decodeRequest, bare]
  | reservedOp67 low rest =>
    have hbit : ∀ b : BitVec 1, b = 0 ∨ b = 1 := by decide
    rcases hbit low with rfl | rfl <;> simp [encode, bareRequest, decode, decodeRequest, bare]
  | reservedOp8F low rest =>
    have hop : ∀ b : BitVec 3, 8 ≤ (0x1#1 ++ b).toNat := by decide
    obtain ⟨k, hk⟩ := Nat.exists_eq_add_of_le' (hop low)
    simp [encode, bareRequest, decode, decodeRequest, bare, hk]
  | _ => cases hi

end Sys2Proof

/-! The decoder of output elements against the encoder (30_encoding R104 to R118). -/

namespace Sys2Proof

open Sys2Proof.Machine

/-- What an element without extra bits and data decodes to carries its code. -/
theorem encode_of_plain {kind : ElementKind} {width value : Nat} {extra : Bits} {data : List Byte} {i j : Instr}
    (h : plain ⟨kind, ⟨width, value⟩, extra, data⟩ i = .ok j) (henc : encode i = plainElement kind width value)
    (hwf : i.wellFormed = true) : j.wellFormed = true ∧ encode j = .element ⟨kind, ⟨width, value⟩, extra, data⟩ := by
  obtain ⟨rfl, hextra, hdata⟩ := plain_ok h
  cases hextra
  cases hdata
  exact ⟨hwf, henc⟩

/-- What a length symbol decodes to carries its code and its extra bits. -/
theorem encode_of_withLenExtra {width value sym extraWidth extra : Nat} {data : List Byte} {i j : Instr}
    (h : withLenExtra ⟨.symbol, ⟨width, value⟩, ⟨extraWidth, extra⟩, data⟩ sym i = .ok j)
    (henc : extra < 32 → encode i = lenElement width value sym extra)
    (hwf : extra < 32 → lenExtraOk sym extra = true → i.wellFormed = true) :
    j.wellFormed = true ∧ encode j = .element ⟨.symbol, ⟨width, value⟩, ⟨extraWidth, extra⟩, data⟩ := by
  obtain ⟨rfl, hdata, hwidth, hok⟩ := withLenExtra_ok h
  have hlt := (lenExtraOk_lt hok).2
  refine ⟨hwf hlt hok, ?_⟩
  rw [henc hlt, lenElement, ← hwidth, ← hdata]

theorem encode_of_decodeHeader {code extra : Bits} {data : List Byte} {i : Instr}
    (h : decodeHeader ⟨.header, code, extra, data⟩ = .ok i) :
    i.wellFormed = true ∧ encode i = .element ⟨.header, code, extra, data⟩ := by
  simp only [decodeHeader] at h
  split_ifs at h with h0 hextra hlen h2 h6
  · cases h
    exact ⟨decide_eq_true hlen, by rw [encode, h0, hextra]⟩
  · subst h2
    exact encode_of_plain h rfl rfl
  · subst h6
    exact encode_of_plain h rfl rfl

theorem encode_of_decodeDistance {code extra : Bits} {data : List Byte} {i : Instr}
    (h : decodeDistance ⟨.distance, code, extra, data⟩ = .ok i) :
    i.wellFormed = true ∧ encode i = .element ⟨.distance, code, extra, data⟩ := by
  obtain ⟨width, value⟩ := code
  obtain ⟨extraWidth, extraValue⟩ := extra
  simp only [decodeDistance] at h
  split_ifs at h with hcode hvalue hdata hextra
  cases h
  obtain ⟨rfl, -⟩ := hcode
  obtain ⟨rfl, hok⟩ := hextra
  subst hdata
  have hlt := (distExtraOk_lt hok).2
  have hd : (BitVec.ofNat 5 value).toNat = value := by rw [BitVec.toNat_ofNat]; omega
  have he : (BitVec.ofNat 13 extraValue).toNat = extraValue := by rw [BitVec.toNat_ofNat]; omega
  simp [Instr.wellFormed, encode, hd, he, hvalue, hok]

/-- A field of `n` bits holds a number of as many. -/
theorem toNat_ofNat_of_lt {n v : Nat} (h : v < 2 ^ n) : (BitVec.ofNat n v).toNat = v := by
  rw [BitVec.toNat_ofNat, Nat.mod_eq_of_lt h]

/-- The code of a row that holds the offset from its first code in its field. -/
theorem add_toNat_ofNat_sub {n base v : Nat} (h : base ≤ v) (h' : v - base < 2 ^ n) :
    base + (BitVec.ofNat n (v - base)).toNat = v := by
  rw [toNat_ofNat_of_lt h', Nat.add_sub_cancel' h]

theorem encode_of_decodeSymbol {code extra : Bits} {data : List Byte} {i : Instr}
    (h : decodeSymbol ⟨.symbol, code, extra, data⟩ = .ok i) :
    i.wellFormed = true ∧ encode i = .element ⟨.symbol, code, extra, data⟩ := by
  obtain ⟨width, v⟩ := code
  obtain ⟨extraWidth, extra⟩ := extra
  have hextra (hlt : extra < 32) : (BitVec.ofNat 5 extra).toNat = extra := toNat_ofNat_of_lt hlt
  simp only [decodeSymbol] at h
  split_ifs at h <;> subst width
  · exact encode_of_plain h (by subst v; rfl) rfl
  · have hv : (BitVec.ofNat 4 v).toNat = v := toNat_ofNat_of_lt (by omega)
    refine encode_of_withLenExtra h (fun hlt => ?_) fun hlt hok => ?_
    · rw [encode, hv, hextra hlt]
    · rw [Instr.wellFormed, hv, hextra hlt, hok, decide_eq_true (by omega)]; rfl
  · have hv : (BitVec.ofNat 3 (v - 0b0010000)).toNat = v - 0b0010000 := toNat_ofNat_of_lt (by omega)
    refine encode_of_withLenExtra h (fun hlt => ?_) fun hlt hok => ?_
    · rw [encode, hv, hextra hlt, Nat.add_sub_cancel' (by omega)]
    · rw [Instr.wellFormed, hv, hextra hlt, hok]
  · exact encode_of_plain h (by rw [encode, add_toNat_ofNat_sub (by omega) (by omega)]) rfl
  · exact encode_of_plain h (by rw [encode, add_toNat_ofNat_sub (by omega) (by omega)]) rfl
  · exact encode_of_plain h (by rw [encode, add_toNat_ofNat_sub (by omega) (by omega)]) rfl
  · have hv : (BitVec.ofNat 3 (v - 0b11000000)).toNat = v - 0b11000000 := toNat_ofNat_of_lt (by omega)
    refine encode_of_withLenExtra h (fun hlt => ?_) fun hlt hok => ?_
    · rw [encode, hv, hextra hlt, Nat.add_sub_cancel' (by omega)]
    · rw [Instr.wellFormed, hv, hextra hlt, hok, decide_eq_true (by omega)]; rfl
  · exact encode_of_plain h (by rw [encode, add_toNat_ofNat_sub (by omega) (by omega)]) rfl
  · exact encode_of_plain h (by rw [encode, add_toNat_ofNat_sub (by omega) (by omega)]) rfl
  · exact encode_of_plain h (by rw [encode, add_toNat_ofNat_sub (by omega) (by omega)]) rfl

/-- What an element decodes to is well-formed, and the element is its encoding. -/
theorem encode_of_decodeElement {e : Element} {i : Instr} (h : decodeElement e = .ok i) :
    i.wellFormed = true ∧ encode i = .element e := by
  obtain ⟨kind, code, extra, data⟩ := e
  cases kind with
  | header => exact encode_of_decodeHeader h
  | symbol => exact encode_of_decodeSymbol h
  | distance => exact encode_of_decodeDistance h

/-! Each row's encoding decodes to it. -/

/-- A length symbol whose extra bits fit is accepted. -/
theorem withLenExtra_of_ok {kind : ElementKind} {code : Bits} {sym extra : Nat} {i : Instr}
    (h : lenExtraOk sym extra = true) :
    withLenExtra ⟨kind, code, ⟨lenExtra (sym - 257), extra⟩, []⟩ sym i = .ok i := by
  simp [withLenExtra, h]

/-- An element's encoding decodes to it, where the block emits it. -/
theorem decode_encode_of_element {i : Instr} (hi : i.isCommand = false) (hwf : i.wellFormed = true) :
    decode (encode i) = .ok i := by
  cases i with
  | blkStoredHdr data =>
    simp only [Instr.wellFormed, decide_eq_true_eq] at hwf
    simp [encode, decode, decodeElement, decodeHeader, hwf]
  | blkFixedHdr | blkFinalHdr | eob => rfl
  | lit000F l | lit104F l | lit508F l | lit909F l | litA0BF l | litC0FF l => clear hi hwf; revert l; decide
  | len257271 sym extra =>
    simp only [Instr.wellFormed, Bool.and_eq_true, decide_eq_true_eq] at hwf
    have hsym := sym.isLt
    have hne : sym.toNat ≠ 0 := by omega
    have hle : sym.toNat ≤ 0b0001111 := by omega
    simp [encode, lenElement, decode, decodeElement, decodeSymbol, hne, hle, withLenExtra_of_ok hwf.2]
  | len272279 sym extra =>
    have hsym := sym.isLt
    have hgt : ¬ 0b0010000 + sym.toNat ≤ 0b0001111 := by omega
    have hle : 0b0010000 + sym.toNat ≤ 0b0010111 := by omega
    simp [encode, lenElement, decode, decodeElement, decodeSymbol, hgt, hle, withLenExtra_of_ok hwf]
  | len280285 sym extra =>
    simp only [Instr.wellFormed, Bool.and_eq_true, decide_eq_true_eq] at hwf
    have hge : ¬ 0b11000000 + sym.toNat < 0b00110000 := by omega
    have hgt (bound : Nat) (h : bound < 0b11000000) : ¬ 0b11000000 + sym.toNat ≤ bound := by omega
    have hle : 0b11000000 + sym.toNat ≤ 0b11000101 := by omega
    simp [encode, lenElement, decode, decodeElement, decodeSymbol, hge, hgt, hle, withLenExtra_of_ok hwf.2]
  | dist d extra =>
    simp only [Instr.wellFormed, Bool.and_eq_true, decide_eq_true_eq] at hwf
    have hd := d.isLt
    simp [encode, decode, decodeElement, decodeDistance, hwf, Nat.le_of_lt_succ hd]
  | _ => cases hi

end Sys2Proof

namespace Sys2Proof.Proofs

open Sys2Proof Sys2Proof.Machine

/-- Settles O1: a command's opcode leads to its own arm of the decoder, and an element's code lies in the range of its own
row. -/
theorem decodeOfEncodeIsTheInstruction : Obligations.DecodeOfEncodeIsTheInstruction := by
  intro i hwf
  cases hi : i.isCommand with
  | true => exact decode_encode_of_isCommand hi hwf
  | false => exact decode_encode_of_element hi hwf

/-- Settles O2: a record's fields put together are its command word, and a row's first code with the offset in its field is
the element's code. -/
theorem encodeOfDecodeIsTheEncoding : Obligations.EncodeOfDecodeIsTheEncoding := by
  intro x i h
  cases x with
  | request r => exact encode_of_decodeRequest h
  | element e => exact encode_of_decodeElement h

/-- Settles O3: ENCODE and FINISH call for their operands, and each of the other opcodes for a bare word. -/
theorem opcodeAloneSettlesTheRecord : Obligations.OpcodeAloneSettlesTheRecord := by
  intro r
  change (∃ i, decodeRequest r = .ok i) ↔ if cwOp r.cw = 3 then _ else if cwOp r.cw = 4 then _ else _
  split_ifs with h3 h4
  · simp only [decodeRequest_encode_iff h3]
    exact ⟨fun ⟨_, len, cap, hops, hlen, _⟩ => ⟨len, cap, hops, hlen⟩,
      fun ⟨len, cap, hops, hlen⟩ => ⟨_, len, cap, hops, hlen, rfl⟩⟩
  · simp only [decodeRequest_finish_iff h4, List.length_eq_one_iff]
    exact ⟨fun ⟨_, cap, hops, hin, _⟩ => ⟨⟨cap, hops⟩, hin⟩, fun ⟨⟨cap, hops⟩, hin⟩ => ⟨_, cap, hops, hin, rfl⟩⟩
  · obtain ⟨i, hi, -, -⟩ := decodeRequest_eq_bare h3 h4
    simp only [hi, bare_eq_ok_iff]
    exact ⟨fun ⟨_, hops, hin, _⟩ => ⟨hops, hin⟩, fun ⟨hops, hin⟩ => ⟨i, hops, hin, rfl⟩⟩

/-- Settles O19: a reserved opcode calls for a bare word, and its meaning is the ILLEGAL fault of that word. -/
theorem reservedOpcodesFaultIllegal : Obligations.ReservedOpcodesFaultIllegal := by
  intro cw s hop
  have hres : cwOp cw = 0 ∨ 6 ≤ (cwOp cw).toNat := hop
  refine ⟨?_, fun w ws d => ?_⟩
  · obtain ⟨i, hi, -, -, hfault⟩ := decodeRequest_reserved (r := ⟨cw, [], []⟩) hres
    exact ⟨i, hi.trans (bare_eq_ok_iff.2 ⟨rfl, rfl, rfl⟩), hfault s⟩
  · obtain ⟨i, hi, -, -, -⟩ := decodeRequest_reserved (r := ⟨cw, w :: ws, d⟩) hres
    rw [hi]
    rfl

/-- Settles O4: the assembler's word of a command is the one its fields make, so this is decoding after encoding. -/
theorem assembledWordsDecode : Obligations.AssembledWordsDecode := by
  refine ⟨rfl, fun en fmt => ?_, fun more len cap data hlen => ?_, fun cap => ?_, fun reg => ?_⟩
  · have hword : 0x2#32 ||| (en.setWidth 32 <<< 4) ||| (fmt.setWidth 32 <<< 5) = wordInit en fmt 0 := by
      revert en fmt; decide
    rw [hword]
    exact decode_encode_of_isCommand (i := .init en fmt 0) rfl rfl
  · have hword : 0x3#32 ||| (more.setWidth 32 <<< 4) = wordEncode more 0 := by clear hlen; revert more; decide
    rw [hword, word_eq_ofNat_toNat len, ← hlen]
    exact decode_encode_of_isCommand (i := .encode more 0 cap data) rfl (decide_eq_true (hlen ▸ len.isLt))
  · exact decode_encode_of_isCommand (i := .finish 0 cap) rfl rfl
  · have hword : 0x5#32 ||| (reg.setWidth 32 <<< 8) = wordRdreg 0 reg 0 := by revert reg; decide
    rw [hword]
    exact decode_encode_of_isCommand (i := .rdreg 0 reg 0) rfl rfl

/-- Settles O5: sixteen words, each decoded. -/
theorem opcodeTableWordsDecode : Obligations.OpcodeTableWordsDecode := by
  unfold Obligations.OpcodeTableWordsDecode
  decide

/-- Settles O17: the step takes the arrival off the port and the decoder rejects it. -/
theorem malformedArrivalsStopByName : Obligations.MalformedArrivalsStopByName := by
  intro s x e rest hin hx
  rw [step, takeArrival, hin]
  simp only [arrive, runEncoding, hx]

end Sys2Proof.Proofs


/-! Reserved opcodes, reserved bits and elements that are never emitted (30_encoding R97, R98, R118). -/

namespace Sys2Proof.Machine

/-- A word is its upper 28 bits shifted over its opcode. -/
theorem append_eq_shiftLeft_or (rest : BitVec 28) (op : BitVec 4) :
    (rest ++ op : BitVec (28 + 4)) = (rest.setWidth 32 <<< 4) ||| op.setWidth 32 := by
  apply BitVec.eq_of_toNat_eq
  have hshift : rest.toNat <<< 4 < 2 ^ 32 := by rw [Nat.shiftLeft_eq]; omega
  rw [BitVec.toNat_append, BitVec.toNat_or, BitVec.toNat_shiftLeft, BitVec.toNat_setWidth_of_le (by decide),
    BitVec.toNat_setWidth_of_le (by decide), Nat.mod_eq_of_lt hshift]

theorem wordReserved0_eq (rest : BitVec 28) : wordReserved0 rest = rest.setWidth 32 <<< 4 :=
  (append_eq_shiftLeft_or rest 0).trans (BitVec.or_zero)

theorem wordReserved67_eq (low : BitVec 1) (rest : BitVec 28) :
    wordReserved67 low rest = (rest.setWidth 32 <<< 4) ||| 0x6#32 ||| low.setWidth 32 := by
  have hop : ∀ b : BitVec 1, (0x3#3 ++ b : BitVec 4).setWidth 32 = 0x6#32 ||| b.setWidth 32 := by decide
  rw [BitVec.or_assoc, ← hop]
  exact append_eq_shiftLeft_or rest _

theorem wordReserved8F_eq (low : BitVec 3) (rest : BitVec 28) :
    wordReserved8F low rest = (rest.setWidth 32 <<< 4) ||| 0x8#32 ||| low.setWidth 32 := by
  have hop : ∀ b : BitVec 3, (0x1#1 ++ b : BitVec 4).setWidth 32 = 0x8#32 ||| b.setWidth 32 := by decide
  rw [BitVec.or_assoc, ← hop]
  exact append_eq_shiftLeft_or rest _

/-! Reserved bits. -/

/-- A command word of opcode 0x1 to 0x5 that differs under its row's mask from the row's match value (R97). -/
def SetsReservedBit (cw : Word) : Prop :=
  (cw.extractLsb' 0 4 = 0x1#4 ∧ cw &&& 0xFFFFFFFF#32 ≠ 0x00000001#32) ∨
  (cw.extractLsb' 0 4 = 0x2#4 ∧ cw &&& 0xFFFFFF8F#32 ≠ 0x00000002#32) ∨
  (cw.extractLsb' 0 4 = 0x3#4 ∧ cw &&& 0xFFFFFFEF#32 ≠ 0x00000003#32) ∨
  (cw.extractLsb' 0 4 = 0x4#4 ∧ cw &&& 0xFFFFFFFF#32 ≠ 0x00000004#32) ∨
  (cw.extractLsb' 0 4 = 0x5#4 ∧ cw &&& 0xFFFFF0FF#32 ≠ 0x00000005#32)

/-! A word whose reserved fields are zero sets none. -/

theorem not_setsReservedBit_wordTblinit : ¬ SetsReservedBit (wordTblinit 0) := by unfold SetsReservedBit; decide
theorem not_setsReservedBit_wordInit : ∀ en fmt, ¬ SetsReservedBit (wordInit en fmt 0) := by
  unfold SetsReservedBit; decide
theorem not_setsReservedBit_wordEncode : ∀ more, ¬ SetsReservedBit (wordEncode more 0) := by
  unfold SetsReservedBit; decide
theorem not_setsReservedBit_wordFinish : ¬ SetsReservedBit (wordFinish 0) := by unfold SetsReservedBit; decide
theorem not_setsReservedBit_wordRdreg : ∀ reg, ¬ SetsReservedBit (wordRdreg 0 reg 0) := by
  unfold SetsReservedBit; decide

/-- A command whose word sets a reserved bit faults ILLEGAL with that word, whatever its operands and the state. -/
theorem exec_of_setsReservedBit {i : Instr} (hi : i.isCommand = true) (h : SetsReservedBit i.commandWord) (s : State) :
    exec i s = .next (raiseFault .illegal i.commandWord s) := by
  cases i with
  | tblinit rsvd => exact if_pos fun hrsvd : rsvd = 0 => not_setsReservedBit_wordTblinit (hrsvd ▸ h)
  | init en fmt rsvd => exact if_pos fun hrsvd : rsvd = 0 => not_setsReservedBit_wordInit en fmt (hrsvd ▸ h)
  | encode more rsvd cap data => exact if_pos fun hrsvd : rsvd = 0 => not_setsReservedBit_wordEncode more (hrsvd ▸ h)
  | finish rsvd cap => exact if_pos fun hrsvd : rsvd = 0 => not_setsReservedBit_wordFinish (hrsvd ▸ h)
  | rdreg rsvdLow reg rsvdHigh =>
    refine if_pos (or_iff_not_imp_left.2 fun hlow hhigh => ?_)
    obtain rfl : rsvdLow = 0 := not_not.1 hlow
    subst hhigh
    exact not_setsReservedBit_wordRdreg reg h
  | reservedOp0 | reservedOp67 | reservedOp8F => rfl
  | _ => cases hi

/-! Elements that are never emitted. -/

/-- An output element that R118 excludes by its own bits is refused. -/
theorem exec_of_not_wellFormed {i : Instr} (hi : i.isCommand = false) (hwf : i.wellFormed = false) (s : State) :
    exec i s = .refused .notEmitted := by
  cases i with
  | blkStoredHdr data =>
    simp only [Instr.wellFormed, decide_eq_false_iff_not] at hwf
    exact if_neg hwf
  | len257271 sym extra | len280285 sym extra =>
    simp only [Instr.wellFormed, Bool.and_eq_false_iff, decide_eq_false_iff_not] at hwf
    exact if_neg fun ⟨hsym, hextra⟩ => hwf.elim (absurd hsym) (absurd hextra ∘ ne_true_of_eq_false)
  | len272279 sym extra =>
    simp only [Instr.wellFormed] at hwf
    rw [exec, execLen272279, hwf]
    rfl
  | dist d extra =>
    simp only [Instr.wellFormed, Bool.and_eq_false_iff, decide_eq_false_iff_not] at hwf
    exact if_neg fun ⟨hd, hextra, _⟩ => hwf.elim (absurd hd) (absurd hextra ∘ ne_true_of_eq_false)
  | blkFixedHdr | blkFinalHdr | lit000F | lit104F | lit508F | lit909F | litA0BF | litC0FF | eob => cases hwf
  | _ => cases hi

end Sys2Proof.Machine

namespace Sys2Proof.Proofs

open Sys2Proof Sys2Proof.Machine

/-- Settles O18: each reserved row is the fault entry with its word, and the word is its fields shifted into place. -/
theorem reservedRowsComplete : Obligations.ReservedRowsComplete := by
  refine fun s => ⟨fun rest => ?_, fun low rest => ?_, fun low rest => ?_⟩
  · rw [← wordReserved0_eq]; rfl
  · rw [← wordReserved67_eq]; rfl
  · rw [← wordReserved8F_eq]; rfl

/-- Settles O20: where the fields that a row reserves are zero its word matches under the mask, so a word that does not match
takes the ILLEGAL fault, which is checked first. -/
theorem reservedBitsFaultIllegal : Obligations.ReservedBitsFaultIllegal := by
  intro r i s h hbits
  rw [← commandWord_of_decodeRequest h] at hbits ⊢
  exact exec_of_setsReservedBit (isCommand_of_decodeRequest h) hbits s

/-- Settles O56: each meaning checks what the well-formedness of its element says, and DIST its reach too. -/
theorem neverEmittedElementsAreRefused : Obligations.NeverEmittedElementsAreRefused := by
  refine ⟨fun i s hi hwf => exec_of_not_wellFormed hi hwf s, fun _ => ⟨rfl, rfl⟩, fun _ => ⟨rfl, rfl⟩, by decide,
    fun d extra s hreach => if_neg fun ⟨_, _, hle⟩ => ?_⟩
  exact absurd hle (Nat.not_le.2 hreach)

end Sys2Proof.Proofs

/-! The rows of literals, lengths and distances (30_encoding R107 to R116), and the fixed code they carry. -/

namespace Sys2Proof.Machine

/-! The fixed code, range by range (R111). -/

theorem huffLen_le_143 {sym : Nat} (h : sym ≤ 143) : huffLen sym = 8 := if_pos h
theorem huffCode_le_143 {sym : Nat} (h : sym ≤ 143) : huffCode sym = 0x30 + sym := if_pos h
theorem huffLen_144_255 {sym : Nat} (h : 144 ≤ sym) (h' : sym ≤ 255) : huffLen sym = 9 := by
  simp only [huffLen]; split_ifs <;> omega
theorem huffCode_144_255 {sym : Nat} (h : 144 ≤ sym) (h' : sym ≤ 255) : huffCode sym = 0x190 + (sym - 144) := by
  simp only [huffCode]; split_ifs <;> omega
theorem huffLen_256_279 {sym : Nat} (h : 256 ≤ sym) (h' : sym ≤ 279) : huffLen sym = 7 := by
  simp only [huffLen]; split_ifs <;> omega
theorem huffCode_256_279 {sym : Nat} (h : 256 ≤ sym) (h' : sym ≤ 279) : huffCode sym = sym - 256 := by
  simp only [huffCode]; split_ifs <;> omega
theorem huffLen_ge_280 {sym : Nat} (h : 280 ≤ sym) : huffLen sym = 8 := by
  simp only [huffLen]; split_ifs <;> omega
theorem huffCode_ge_280 {sym : Nat} (h : 280 ≤ sym) : huffCode sym = 0xC0 + (sym - 280) := by
  simp only [huffCode]; split_ifs <;> omega

/-! The rows. -/

/-- The row of a literal byte carries the fixed code of its symbol (R111), and running it packs that symbol. -/
theorem literalRow_spec (b : Byte) :
    encode (literalRow b) = plainElement .symbol (huffLen b.toNat) (huffCode b.toNat) ∧
    ∀ s, exec (literalRow b) s = .next (runLiteral b.toNat s) := by
  have hb := b.isLt
  have h8 (h : b.toNat ≤ 143) {code : Nat} (hcode : code = 0x30 + b.toNat) :
      plainElement .symbol 8 code = plainElement .symbol (huffLen b.toNat) (huffCode b.toNat) := by
    rw [huffLen_le_143 h, huffCode_le_143 h, hcode]
  have h9 (h : 144 ≤ b.toNat) {code : Nat} (hcode : code = 0x190 + (b.toNat - 144)) :
      plainElement .symbol 9 code = plainElement .symbol (huffLen b.toNat) (huffCode b.toNat) := by
    rw [huffLen_144_255 h (by omega), huffCode_144_255 h (by omega), hcode]
  have hrun {sym : Nat} (hsym : sym = b.toNat) (s : State) :
      (.next (runLiteral sym s) : Host.Outcome State Fault Refusal) = .next (runLiteral b.toNat s) := by rw [hsym]
  simp only [literalRow]
  split_ifs
  · have hl : (BitVec.ofNat 4 b.toNat).toNat = b.toNat := toNat_ofNat_of_lt (by omega)
    exact ⟨h8 (by omega) (by omega), hrun (by omega)⟩
  · have hl : (BitVec.ofNat 6 (b.toNat - 0x10)).toNat = b.toNat - 0x10 := toNat_ofNat_of_lt (by omega)
    exact ⟨h8 (by omega) (by omega), hrun (by omega)⟩
  · have hl : (BitVec.ofNat 6 (b.toNat - 0x50)).toNat = b.toNat - 0x50 := toNat_ofNat_of_lt (by omega)
    exact ⟨h8 (by omega) (by omega), hrun (by omega)⟩
  · have hl : (BitVec.ofNat 4 (b.toNat - 0x90)).toNat = b.toNat - 0x90 := toNat_ofNat_of_lt (by omega)
    exact ⟨h9 (by omega) (by omega), hrun (by omega)⟩
  · have hl : (BitVec.ofNat 5 (b.toNat - 0xA0)).toNat = b.toNat - 0xA0 := toNat_ofNat_of_lt (by omega)
    exact ⟨h9 (by omega) (by omega), hrun (by omega)⟩
  · have hl : (BitVec.ofNat 6 (b.toNat - 0xC0)).toNat = b.toNat - 0xC0 := toNat_ofNat_of_lt (by omega)
    exact ⟨h9 (by omega) (by omega), hrun (by omega)⟩

/-- The row of a length is one that the block emits, carries the fixed code of its symbol and its extra bits, and running it
packs both (R113, R114). -/
theorem lengthRow_spec {len : Nat} (h : 3 ≤ len) (h' : len ≤ maxMatch) :
    (lengthRow len).wellFormed = true ∧
    encode (lengthRow len) = lenElement (huffLen (257 + lenIndex len)) (huffCode (257 + lenIndex len))
      (257 + lenIndex len) (len - lenBase (lenIndex len)) ∧
    ∀ s, exec (lengthRow len) s = .next (runLength (257 + lenIndex len) (len - lenBase (lenIndex len)) s) := by
  obtain ⟨hk, -, hextra, hne⟩ := lenIndex_spec h h'
  have hok : lenExtraOk (257 + lenIndex len) (len - lenBase (lenIndex len)) = true := by
    simp only [lenExtraOk, Nat.add_sub_cancel_left, Bool.and_eq_true, decide_eq_true_eq, Bool.not_eq_true',
      Bool.and_eq_false_iff, beq_eq_false_iff_ne]
    omega
  have he : (BitVec.ofNat 5 (len - lenBase (lenIndex len))).toNat = len - lenBase (lenIndex len) :=
    toNat_ofNat_of_lt (lenExtraOk_lt hok).2
  simp only [lengthRow]
  generalize hsym : 257 + lenIndex len = sym at hok ⊢
  generalize len - lenBase (lenIndex len) = extra at hok he ⊢
  split_ifs
  · have hs : (BitVec.ofNat 4 (sym - 256)).toNat = sym - 256 := toNat_ofNat_of_lt (by omega)
    have hrow : 256 + (sym - 256) = sym := by omega
    have hpos : 1 ≤ sym - 256 := by omega
    rw [huffLen_256_279 (by omega) (by omega), huffCode_256_279 (by omega) (by omega)]
    simp [Instr.wellFormed, encode, exec, execLen257271, hs, he, hrow, hok, hpos]
  · have hs : (BitVec.ofNat 3 (sym - 272)).toNat = sym - 272 := toNat_ofNat_of_lt (by omega)
    have hrow : 272 + (sym - 272) = sym := by omega
    have hcode : 0b0010000 + (sym - 272) = sym - 256 := by omega
    rw [huffLen_256_279 (by omega) (by omega), huffCode_256_279 (by omega) (by omega)]
    simp [Instr.wellFormed, encode, exec, execLen272279, hs, he, hrow, hok, hcode]
  · have hs : (BitVec.ofNat 3 (sym - 280)).toNat = sym - 280 := toNat_ofNat_of_lt (by omega)
    have hrow : 280 + (sym - 280) = sym := by omega
    have hle : sym - 280 ≤ 5 := by omega
    rw [huffLen_ge_280 (by omega), huffCode_ge_280 (by omega)]
    simp [Instr.wellFormed, encode, exec, execLen280285, hs, he, hrow, hok, hle]

/-- The row of a distance is one that the block emits, carries its code and its extra bits, and running it within reach packs
both (R115, R116). -/
theorem distanceRow_spec {d : Nat} (h : 1 ≤ d) (h' : d ≤ wsize) :
    (distanceRow d).wellFormed = true ∧
    encode (distanceRow d) = .element ⟨.distance, ⟨5, distIndex d⟩, ⟨distExtra (distIndex d), d - distBase (distIndex d)⟩, []⟩ ∧
    ∀ s, d ≤ streamBytes s →
      exec (distanceRow d) s = .next (runDistance (distIndex d) (d - distBase (distIndex d)) s) := by
  obtain ⟨hj, hbase, hextra⟩ := distIndex_spec h h'
  have hok : distExtraOk (distIndex d) (d - distBase (distIndex d)) = true := decide_eq_true hextra
  have hcode : (BitVec.ofNat 5 (distIndex d)).toNat = distIndex d := toNat_ofNat_of_lt (by omega)
  have he : (BitVec.ofNat 13 (d - distBase (distIndex d))).toNat = d - distBase (distIndex d) :=
    toNat_ofNat_of_lt (distExtraOk_lt hok).2
  refine ⟨?_, ?_, fun s hs => ?_⟩
  · simp [distanceRow, Instr.wellFormed, hcode, he, hj, hok]
  · rw [distanceRow, encode, hcode, he]
  · have hreach : distBase (distIndex d) + (d - distBase (distIndex d)) ≤ streamBytes s := by omega
    rw [distanceRow, exec, execDist, hcode, he, if_pos ⟨hj, hok, hreach⟩]

end Sys2Proof.Machine

namespace Sys2Proof.Proofs

open Sys2Proof Sys2Proof.Machine

/-- Settles O6: the row of a token's part is read off its symbol's range in the fixed code, and the tables give base and extra
bits. -/
theorem tokenRowsCarryTheFixedCodes : Obligations.TokenRowsCarryTheFixedCodes := by
  refine ⟨fun b => ?_, fun len h h' => ?_, fun d h h' => ?_⟩
  · rw [(literalRow_spec b).1, plainElement]
    split_ifs with hb
    · rw [huffLen_le_143 hb, huffCode_le_143 hb]
    · rw [huffLen_144_255 (by omega) (by omega), huffCode_144_255 (by omega) (by omega)]
  · obtain ⟨hk, hbase, hextra, hne⟩ := lenIndex_spec h h'
    obtain ⟨hwf, henc, -⟩ := lengthRow_spec h h'
    rw [lenElement, Nat.add_sub_cancel_left] at henc
    exact ⟨lenIndex len, len - lenBase (lenIndex len), hk, hwf, henc, Nat.add_sub_cancel' hbase, hextra, hne⟩
  · obtain ⟨hj, hbase, hextra⟩ := distIndex_spec h h'
    obtain ⟨hwf, henc, -⟩ := distanceRow_spec h h'
    exact ⟨distIndex d, d - distBase (distIndex d), hj, hwf, henc, Nat.add_sub_cancel' hbase, hextra⟩

/-- Settles O7: of two ranges of the fixed code with one length the codes differ, and of two with different lengths the longer
codes begin above or below every shorter one. -/
theorem fixedCodesArePrefixFree : Obligations.FixedCodesArePrefixFree := by
  intro a b ha hb hlen hprefix
  simp only [huffLen, huffCode] at hlen hprefix
  split_ifs at hlen hprefix <;> omega

end Sys2Proof.Proofs

/-! Stored blocks, byte for byte (30_encoding R117; 42_bit_packer R224, R226). -/

namespace Sys2Proof.Machine

/-! At a byte boundary with nothing pending whole bytes go straight out. -/

/-- Nothing of a field of `n` bits is left above bit `n`. -/
theorem setWidth_ushiftRight_eq_zero {n k : Nat} (v : BitVec n) (h : n ≤ k) : v.setWidth 32 >>> k = 0#32 := by
  have hv : v.toNat % 2 ^ 32 < 2 ^ k :=
    lt_of_le_of_lt (Nat.mod_le _ _) (lt_of_lt_of_le v.isLt (Nat.pow_le_pow_right (by decide) h))
  apply BitVec.eq_of_toNat_eq
  rw [BitVec.toNat_ushiftRight, BitVec.toNat_setWidth, Nat.shiftRight_eq_div_pow, Nat.div_eq_of_lt hv]
  rfl

theorem putBits_byte (b : Byte) (e : List Byte) : putBits b.toNat 8 ⟨0, 0, e⟩ = ⟨0, 0, e ++ [b]⟩ := by
  simp [putBits, Packer.drain, setWidth_ushiftRight_eq_zero]

/-- A field of 16 bits goes out least significant byte first. -/
theorem putBits_two_bytes (v : BitVec 16) (e : List Byte) :
    putBits v.toNat 16 ⟨0, 0, e⟩ = ⟨0, 0, e ++ [v.setWidth 8, (v >>> 8).setWidth 8]⟩ := by
  have hhigh : (v.setWidth 32 >>> 8).setWidth 8 = (v >>> 8).setWidth 8 := by
    apply BitVec.eq_of_toNat_eq
    simp [Nat.shiftRight_eq_div_pow]
    omega
  simp [putBits, Packer.drain, ← BitVec.shiftRight_add, setWidth_ushiftRight_eq_zero, hhigh]

/-- The data of a stored block (42_bit_packer R224). -/
theorem foldl_putBits_byte (d e : List Byte) :
    d.foldl (fun q b => putBits b.toNat 8 q) ⟨0, 0, e⟩ = ⟨0, 0, e ++ d⟩ := by
  induction d generalizing e with
  | nil => simp
  | cons b rest ih => rw [List.foldl_cons, putBits_byte, ih, List.append_assoc, List.singleton_append]

/-- The bytes that a stored block's header and its padding fill with the pending bits before them: two where more than 5
are pending (42_bit_packer R224). -/
def storedHeaderBytes (acc : BitVec 7) (cnt : BitVec 3) : List Byte :=
  if cnt.toNat ≤ 5 then [acc.setWidth 8] else [acc.setWidth 8, 0]

theorem align_storedHeader (acc : BitVec 7) (cnt : BitVec 3) (e : List Byte) :
    align (putBits (blockHeader 0 btypeStored) 3 ⟨acc.setWidth 32, cnt.toNat, e⟩) =
      ⟨0, 0, e ++ storedHeaderBytes acc cnt⟩ := by
  have hcnt := cnt.isLt
  simp only [storedHeaderBytes]
  generalize cnt.toNat = c at *
  interval_cases c <;> simp [align, putBits, Packer.drain, blockHeader, setWidth_ushiftRight_eq_zero]

/-- LEN and NLEN, least significant byte first, then the data (R117). -/
theorem emitStoredBlock_eq (d : List Byte) (acc : BitVec 7) (cnt : BitVec 3) (e : List Byte) :
    emitStoredBlock d ⟨acc.setWidth 32, cnt.toNat, e⟩ =
      ⟨0, 0, e ++ storedHeaderBytes acc cnt ++ storedBlockBytes d⟩ := by
  have hlow : (BitVec.ofNat 16 d.length).setWidth 8 = BitVec.ofNat 8 d.length := by
    apply BitVec.eq_of_toNat_eq; simp
  have hhigh : (BitVec.ofNat 16 d.length >>> 8).setWidth 8 = BitVec.ofNat 8 (d.length / 256) := by
    apply BitVec.eq_of_toNat_eq
    simp [Nat.shiftRight_eq_div_pow]
    omega
  have hnlow : (~~~(BitVec.ofNat 16 d.length)).setWidth 8 = ~~~(BitVec.ofNat 8 d.length) := by
    rw [BitVec.setWidth_not (by decide), hlow]
  have hnhigh : (~~~(BitVec.ofNat 16 d.length) >>> 8).setWidth 8 = ~~~(BitVec.ofNat 8 (d.length / 256)) := by
    rw [← hhigh]
    ext i hi
    simp [show 8 + i < 16 by omega]
  rw [emitStoredBlock, align_storedHeader, putBits_two_bytes, putBits_two_bytes, foldl_putBits_byte, hlow, hhigh, hnlow,
    hnhigh]
  simp [storedBlockBytes]

/-- A run of stored blocks from a byte boundary: each header is a byte 0 of its own. -/
theorem foldl_emitStoredBlock_eq (l : List (List Byte)) (e : List Byte) :
    l.foldl (fun q d => emitStoredBlock d q) ⟨0, 0, e⟩ =
      ⟨0, 0, e ++ l.flatMap fun d => [0x00] ++ storedBlockBytes d⟩ := by
  induction l generalizing e with
  | nil => simp
  | cons d rest ih =>
    have hd : emitStoredBlock d ⟨0, 0, e⟩ = ⟨0, 0, e ++ [0x00] ++ storedBlockBytes d⟩ := emitStoredBlock_eq d 0 0 e
    rw [List.foldl_cons, hd, ih, List.flatMap_cons, List.append_assoc, List.append_assoc, List.append_assoc]

theorem intercalate_cons {α : Type} (sep x : List α) (l : List (List α)) :
    sep.intercalate (x :: l) = x ++ l.flatMap fun y => sep ++ y := by
  induction l generalizing x with
  | nil => simp [List.intercalate]
  | cons y rest ih =>
    have hstep : sep.intercalate (x :: y :: rest) = x ++ (sep ++ sep.intercalate (y :: rest)) := by
      simp [List.intercalate]
    rw [hstep, ih, List.flatMap_cons, List.append_assoc]

/-- The pieces of a chunk: 65535 bytes each, and a last one of 1 to 65535 (42_bit_packer R226). -/
theorem storedPieces_full_but_last {fuel : Nat} {d : List Byte} (hd : d ≠ []) (h : d.length ≤ fuel) :
    ∃ pieces last, storedPieces fuel d = pieces ++ [last] ∧ (∀ e ∈ pieces, e.length = 65535) ∧ 1 ≤ last.length ∧
      last.length ≤ 65535 := by
  induction fuel generalizing d with
  | zero => exact absurd (List.eq_nil_of_length_eq_zero (Nat.le_zero.1 h)) hd
  | succ n ih =>
    have hpos : 0 < d.length := List.length_pos_iff.2 hd
    simp only [storedPieces, List.isEmpty_iff, if_neg hd, storedMax]
    by_cases hrest : d.drop 65535 = []
    · rw [List.drop_eq_nil_iff] at hrest
      refine ⟨[], d, ?_, by simp, hpos, hrest⟩
      cases n <;> simp [storedPieces, List.take_of_length_le hrest, hrest]
    · have hlt : 65535 < d.length := by simpa using hrest
      obtain ⟨pieces, last, hpieces, hfull, hlast⟩ := ih hrest (by rw [List.length_drop]; omega)
      refine ⟨d.take 65535 :: pieces, last, by rw [hpieces]; rfl, fun e he => ?_, hlast⟩
      rcases List.mem_cons.1 he with rfl | he
      · rw [List.length_take]; omega
      · exact hfull e he

/-- A chunk sent as stored blocks from the pending bits of a state: what goes out, and that nothing stays pending. -/
theorem emitStored_isStoredChunk {data : List Byte} (hd : data ≠ []) (s : State) :
    ∃ bytes, isStoredChunk s data bytes ∧
      ∀ e, emitStored data ⟨s.acc.setWidth 32, s.cnt.toNat, e⟩ = ⟨0, 0, e ++ bytes⟩ := by
  obtain ⟨pieces, last, hpieces, hfull, hlast, hlast'⟩ := storedPieces_full_but_last hd (le_refl _)
  have hflat := (storedPieces_spec (le_refl data.length)).1
  rw [hpieces] at hflat
  refine ⟨_, ⟨pieces, last, hflat, hfull, hlast, hlast', rfl⟩, fun e => ?_⟩
  rw [emitStored, hpieces]
  cases hl : pieces ++ [last] with
  | nil => simp at hl
  | cons first rest =>
    rw [List.foldl_cons, emitStoredBlock_eq, foldl_emitStoredBlock_eq, List.map_cons, intercalate_cons,
      List.flatMap_map, storedHeaderBytes]
    simp only [List.append_assoc]

/-! What ENCODE leaves where its chunk is stored, and a stored block run alone. -/

/-- A command's packer when its header is out. -/
theorem header_eq (s : State) :
    emitHeaderIfIdle s (openPacker s) = ⟨s.acc.setWidth 32, s.cnt.toNat, writtenHeader s⟩ := by
  rw [emitHeaderIfIdle_eq]
  simp [Packer.emitAll, openPacker]

/-- `t` is what an ENCODE in `s` leaves that sends `bytes` after the header: its RESULT, OUT, and no bit pending. -/
def SendsWhole (s t : State) (bytes : List Byte) : Prop :=
  t.response = some ⟨true, 0, BitVec.ofNat 32 (writtenHeader s ++ bytes).length⟩ ∧ t.acc = 0 ∧ t.cnt = 0 ∧
    t.out = s.out.writeAll 0 (writtenHeader s ++ bytes)

theorem SendsWhole.out_spec {s t : State} {bytes : List Byte} (h : SendsWhole s t bytes) :
    holdsAt t.out 0 (writtenHeader s ++ bytes) ∧
    ∀ a, (writtenHeader s ++ bytes).length ≤ a → t.out.read a = s.out.read a := by
  obtain ⟨-, -, -, hout⟩ := h
  refine ⟨hout ▸ holdsAt_writeAll _ _ _, fun a ha => ?_⟩
  rw [hout, Memory.read_writeAll, if_neg (by omega)]

/-- Where ENCODE's choice is stored blocks it sends their bytes, at either LEVEL. -/
theorem sendsWhole_of_stored {data bytes : List Byte} (hd : data ≠ []) {s : State}
    (hblocks : ∀ p, (encodeBlocks data s p).1 = emitStored data p)
    (hbytes : ∀ e, emitStored data ⟨s.acc.setWidth 32, s.cnt.toNat, e⟩ = ⟨0, 0, e ++ bytes⟩) :
    SendsWhole s (encodeEffect data s) bytes := by
  have hpacked : (encodeBlocks data s (emitHeaderIfIdle s (openPacker s))).1 = ⟨0, 0, writtenHeader s ++ bytes⟩ := by
    rw [hblocks, header_eq, hbytes]
  simp only [SendsWhole, encodeEffect, encodeUpdate_of_ne_nil hd, hpacked]
  refine ⟨?_, rfl, rfl, rfl⟩
  simp [respond, okResponse]

/-- At LEVEL 1 a chunk whose stored blocks are cheaper is stored (42_bit_packer R229). -/
theorem encodeBlocks_of_stored_cheaper {data : List Byte} {s : State} (hl : s.level = 1)
    (h : storedBits data.length s.cnt.toNat < fixedBits (chooseTokens data s).1) (p : Packer) :
    encodeBlocks data s p = (emitStored data p, (chooseTokens data s).2.1, (chooseTokens data s).2.2) := by
  have hl0 : ¬ s.level = 0 := by rw [hl]; decide
  simp only [encodeBlocks, if_neg hl0, if_neg (Nat.not_le.2 h)]

/-- A settled packer with nothing pending has sent all its bits in whole bytes. -/
theorem eq_of_settled_zero {p : Packer} (hp : p.settled) (hc : p.c = 0) :
    p.w = 0 ∧ packedBits p = bytesBits p.emitted := by
  have hw := hp.2
  rw [hc] at hw
  refine ⟨BitVec.eq_of_toNat_eq (by simpa using hw), ?_⟩
  rw [packedBits, hc, lsbBits_zero, List.append_nil]

end Sys2Proof.Machine

namespace Sys2Proof.Proofs

open Sys2Proof Sys2Proof.Machine

/-- Settles O37: at LEVEL 0 the chunk is stored, and a stored chunk goes out in whole bytes from the pending bits on. -/
theorem levelZeroStoresTheChunk : Obligations.LevelZeroStoresTheChunk := by
  intro more cap data s hp hl hd hcap
  obtain ⟨bytes, hchunk, hbytes⟩ := emitStored_isStoredChunk hd s
  have hsends := sendsWhole_of_stored hd (fun p => congrArg Prod.fst (encodeBlocks_of_level_zero hl data p)) hbytes
  have hspec := hsends.out_spec
  obtain ⟨hresponse, hacc, hcnt, -⟩ := hsends
  exact ⟨_, bytes, exec_encode_completes more hp hcap, hchunk, hresponse, hacc, hcnt,
    encodeUpdate_hash_of_level_zero hl data, hspec⟩

/-- Settles O59: where storing is cheaper LEVEL 1 emits the stored chunk of LEVEL 0, and no other update reads LEVEL. -/
theorem levelOneStoresTheChunkWhereCheaper : Obligations.LevelOneStoresTheChunkWhereCheaper := by
  intro more cap data s hp hl hd hcap hcheaper
  obtain ⟨bytes, hchunk, hbytes⟩ := emitStored_isStoredChunk hd s
  have hblocks := encodeBlocks_of_stored_cheaper hl hcheaper
  have hsends := sendsWhole_of_stored hd (fun p => congrArg Prod.fst (hblocks p)) hbytes
  have hlevel0 : { s with level := 0 }.level = 0 := rfl
  have hsends0 : SendsWhole { s with level := 0 } (encodeEffect data { s with level := 0 }) bytes :=
    sendsWhole_of_stored hd (fun p => congrArg Prod.fst (encodeBlocks_of_level_zero hlevel0 data p)) hbytes
  obtain ⟨hholds, habove⟩ := hsends.out_spec
  obtain ⟨hresponse, hacc, hcnt, hout⟩ := hsends
  obtain ⟨-, -, -, hout0⟩ := hsends0
  have hhash : (encodeEffect data s).hash = (chooseTokens data s).2.1 := by
    simp only [encodeEffect, encodeUpdate_of_ne_nil hd, hblocks, respond_hash]
  refine ⟨_, bytes, exec_encode_completes more hp hcap, hchunk, hresponse, hacc, hcnt, hhash, hholds,
    habove, _, exec_encode_completes more (s := { s with level := 0 }) hp hcap, ?_, ?_, ?_, ?_, hout.trans hout0.symm⟩
  · exact (encodeUpdate_cksum data s).trans (encodeUpdate_cksum data { s with level := 0 }).symm
  · exact (encodeUpdate_totalIn data s).trans (encodeUpdate_totalIn data { s with level := 0 }).symm
  · exact (encodeUpdate_hist data s hd).trans (encodeUpdate_hist data { s with level := 0 } hd).symm
  · exact (encodeUpdate_window data s).trans (encodeUpdate_window data { s with level := 0 }).symm

/-- Settles O55: the block ends at a byte boundary, so all its bits are in the bytes that go to OUT. -/
theorem storedElementPacksItsBlock : Obligations.StoredElementPacksItsBlock := by
  intro data s hlen hs
  obtain ⟨hc, hsettled, hbits⟩ := packedBits_emitStoredBlock data (settled_openPacker hs)
  obtain ⟨hw, hwhole⟩ := eq_of_settled_zero hsettled hc
  have hn : (BitVec.ofNat 16 data.length).toNat = data.length := toNat_ofNat_of_lt (by omega)
  have hnlen : (~~~(BitVec.ofNat 16 data.length)).toNat = 65535 - data.length := by rw [BitVec.toNat_not, hn]
  refine ⟨runStored data s, (emitStoredBlock data (openPacker s)).emitted, if_pos hlen, ?_, ?_, ?_, fun a ha => ?_⟩
  · simp only [runStored, runPacker, commitPacker, hc, hw]
    rfl
  · rw [← hwhole, hbits, hn, hnlen, packedBits_openPacker, openPacker_c]
  · exact holdsAt_writeAll _ _ _
  · rw [runStored_out, runPacker, commitPacker_out, Memory.read_writeAll, if_neg (by omega)]

end Sys2Proof.Proofs

/-! The fixed block of an ENCODE, row by row (42_bit_packer R227; 41_match_finder R189). -/

namespace Sys2Proof.Machine

/-! The tokens ENCODE chooses meet the contract. -/

/-- Tokenize covers the chunk from its index on, and each of its copies is one (41_match_finder R183, R189). -/
theorem validFrom_tokenizeFrom (d : List Byte) (p0 : Word) (h0 : Nat) (win : Memory Byte) {fuel i : Nat}
    (hash : Memory HashEntry) (hi : i ≤ d.length) (hfuel : d.length ≤ i + fuel) :
    validFrom d p0 h0 win i (tokenizeFrom d p0 h0 win fuel i hash).1 = true := by
  induction fuel generalizing i hash with
  | zero => exact decide_eq_true (by omega)
  | succ n ih =>
    have hlit (hlt : i < d.length) (hash : Memory HashEntry) :
        validFrom d p0 h0 win i (.lit (chunkByte d i) :: (tokenizeFrom d p0 h0 win n (i + 1) hash).1) = true := by
      rw [validFrom, ih hash hlt (by omega), decide_eq_true ⟨hlt, rfl⟩]
      rfl
    simp only [tokenizeFrom]
    split_ifs with hlt hkey
    · split
      · next len dist hc =>
        obtain ⟨-, hmin, hmax, hd, hd', hend, hbytes⟩ := matchCandidate_spec hi hc
        have hcopy : ((List.range len).all fun k => decide (chunkByte d (i + k) =
            byteSource d p0 win (((i + k : Nat) : Int) - (dist : Int)))) = true :=
          List.all_eq_true.2 fun k hk => decide_eq_true (hbytes k (List.mem_range.1 hk)).symm
        rw [validFrom, hcopy, ih _ hend (by simp only [minMatch] at hmin; omega),
          decide_eq_true ⟨Nat.le_of_succ_le hmin, hmax, hd, hd', hend⟩]
        rfl
      · exact hlit hlt _
    · exact hlit hlt _
    · exact decide_eq_true (by omega)

/-- Under both policies (log 24). -/
theorem validTokens_chooseTokens (data : List Byte) (s : State) :
    validTokens data s.totalIn s.hist.toNat s.window (chooseTokens data s).1 = true := by
  have href : validTokens data s.totalIn s.hist.toNat s.window
      (tokenize data s.totalIn s.hist.toNat s.window s.hash).1 = true :=
    validFrom_tokenizeFrom _ _ _ _ _ (Nat.zero_le _) (by omega)
  simp only [chooseTokens]
  split
  · exact href
  · dsimp only
    split
    · assumption
    · exact href

/-! The rows of a token, run one after the other. -/

/-- A length row and a distance row are one run of the packer, and the copy's bytes are counted. -/
theorem runDistance_runLength {sym extra j extra' : Nat} {s : State} (h : (putLength sym extra (openPacker s)).settled) :
    runDistance j extra' (runLength sym extra s) =
      { runPacker (fun p => putDistance j extra' (putLength sym extra p)) s with
        elementBytes := s.elementBytes + (lenBase (sym - 257) + extra), elementLen := 0 } := by
  rw [← runPacker_runPacker (local_putDistance j extra') h]
  rfl

theorem execAll_cons_of_next {i : Instr} {s t : State} (h : exec i s = .next t) (rest : List Instr) :
    execAll (i :: rest) s = execAll rest t := by rw [execAll, h]

/-- Running the rows of a token packs the token and counts the bytes it covers, where its distance is within reach. -/
theorem execAll_tokenRows {tok : Token} {s : State} (hs : s.acc.toNat < 2 ^ s.cnt.toNat)
    (htok : ∀ len dist, tok = .copy len dist → 3 ≤ len ∧ len ≤ maxMatch ∧ 1 ≤ dist ∧ dist ≤ wsize ∧ dist ≤ streamBytes s)
    (rest : List Instr) :
    ∃ pending, execAll (tokenRows tok ++ rest) s = execAll rest { runPacker (emitToken tok) s with
      elementBytes := s.elementBytes + tokenSpan tok, elementLen := pending } := by
  cases tok with
  | lit b =>
    obtain ⟨-, hliteral⟩ := literalRow_spec b
    exact ⟨s.elementLen, execAll_cons_of_next (hliteral s) rest⟩
  | copy len dist =>
    obtain ⟨hmin, hmax, hd, hd', hreach⟩ := htok len dist rfl
    obtain ⟨-, -, hlength⟩ := lengthRow_spec hmin hmax
    obtain ⟨-, -, hdistance⟩ := distanceRow_spec hd hd'
    obtain ⟨-, hbase, hextra, -⟩ := lenIndex_spec hmin hmax
    have hsettled : (putLength (257 + lenIndex len) (len - lenBase (lenIndex len)) (openPacker s)).settled :=
      (appends_putLength (by rwa [Nat.add_sub_cancel_left]) _ (settled_openPacker hs)).1
    have hrows : execAll (tokenRows (.copy len dist) ++ rest) s = execAll rest
        (runDistance (distIndex dist) (dist - distBase (distIndex dist))
          (runLength (257 + lenIndex len) (len - lenBase (lenIndex len)) s)) :=
      (execAll_cons_of_next (hlength s) _).trans (execAll_cons_of_next (hdistance (runLength _ _ s) hreach) rest)
    refine ⟨0, hrows.trans ?_⟩
    rw [runDistance_runLength hsettled, Nat.add_sub_cancel_left, Nat.add_sub_cancel' hbase]
    rfl

/-- The contract of a token list, read for its first token (41_match_finder R189). -/
theorem validFrom_cons {d : List Byte} {p0 : Word} {h0 : Nat} {win : Memory Byte} {tok : Token} {ts : List Token}
    {i : Nat} (h : validFrom d p0 h0 win i (tok :: ts) = true) :
    (∀ len dist, tok = .copy len dist → 3 ≤ len ∧ len ≤ maxMatch ∧ 1 ≤ dist ∧ dist ≤ min wsize (h0 + i)) ∧
    validFrom d p0 h0 win (i + tokenSpan tok) ts = true := by
  cases tok with
  | lit b =>
    simp only [validFrom, Bool.and_eq_true] at h
    exact ⟨nofun, h.2⟩
  | copy len dist =>
    simp only [validFrom, Bool.and_eq_true, decide_eq_true_eq] at h
    obtain ⟨⟨⟨hmin, hmax, hd, hd', -⟩, -⟩, hrest⟩ := h
    exact ⟨fun _ _ e => by cases e; exact ⟨hmin, hmax, hd, hd'⟩, hrest⟩

/-- The rows of tokens that meet the contract, then EOB, are one run of the packer. -/
theorem execAll_tokens_eob {d : List Byte} {p0 : Word} {h0 : Nat} {win : Memory Byte} {ts : List Token} {i : Nat}
    (hvalid : validFrom d p0 h0 win i ts = true) {s : State} (hs : s.acc.toNat < 2 ^ s.cnt.toNat)
    (hreach : h0 + i ≤ streamBytes s) :
    ∃ count pending, execAll (ts.flatMap tokenRows ++ [.eob]) s =
      .next { runPacker (fun p => putHuff eobSymbol (ts.foldl (fun q t => emitToken t q) p)) s with
        elementBytes := count, elementLen := pending } := by
  induction ts generalizing i s with
  | nil => exact ⟨s.elementBytes, s.elementLen, rfl⟩
  | cons tok ts ih =>
    obtain ⟨hcopy, hrest⟩ := validFrom_cons hvalid
    have hrange (len dist : Nat) (h : tok = .copy len dist) :
        3 ≤ len ∧ len ≤ maxMatch ∧ 1 ≤ dist ∧ dist ≤ wsize ∧ dist ≤ streamBytes s := by
      obtain ⟨hmin, hmax, hd, hd'⟩ := hcopy len dist h
      obtain ⟨hwsize, hback⟩ := le_min_iff.1 hd'
      exact ⟨hmin, hmax, hd, hwsize, hback.trans hreach⟩
    obtain ⟨bits, happ⟩ := appends_emitToken tok fun len dist h => by
      obtain ⟨hmin, hmax, hd, hwsize, -⟩ := hrange len dist h
      exact ⟨hmin, hmax, hd, hwsize⟩
    have hsettled := (happ _ (settled_openPacker hs)).1
    obtain ⟨pending, hrows⟩ := execAll_tokenRows hs hrange (ts.flatMap tokenRows ++ [.eob])
    have hreach' : h0 + (i + tokenSpan tok) ≤ s.hist.toNat + (s.elementBytes + tokenSpan tok) := by
      simp only [streamBytes] at hreach
      omega
    obtain ⟨count, pending', hih⟩ := ih hrest (s := { runPacker (emitToken tok) s with
      elementBytes := s.elementBytes + tokenSpan tok, elementLen := pending }) (settled_commitPacker hsettled s).1 hreach'
    refine ⟨count, pending', ?_⟩
    have hrun := runPacker_runPacker
      (g := fun p => putHuff eobSymbol (ts.foldl (fun q t => emitToken t q) p))
      ((Local.foldl local_emitToken ts).comp (local_putHuff eobSymbol)) hsettled
    rw [List.flatMap_cons, List.append_assoc, hrows, hih]
    simp only [List.foldl_cons, ← hrun]
    rfl

/-- The rows of a fixed block are one run of the packer. -/
theorem execAll_fixedBlockRows {d : List Byte} {p0 : Word} {h0 : Nat} {win : Memory Byte} {ts : List Token}
    (hvalid : validTokens d p0 h0 win ts = true) {s : State} (hs : s.acc.toNat < 2 ^ s.cnt.toNat)
    (hreach : h0 ≤ streamBytes s) :
    ∃ count pending, execAll (fixedBlockRows ts) s =
      .next { runPacker (emitFixed ts) s with elementBytes := count, elementLen := pending } := by
  have hheader : (putBits (blockHeader 0 btypeFixed) 3 (openPacker s)).settled :=
    settled_putBits (settled_openPacker hs) (by decide) (by decide)
  obtain ⟨count, pending, hrows⟩ := execAll_tokens_eob hvalid
    (s := runPacker (putBits (blockHeader 0 btypeFixed) 3) s) (settled_commitPacker hheader s).1 hreach
  refine ⟨count, pending, ?_⟩
  rw [runPacker_runPacker ((Local.foldl local_emitToken ts).comp (local_putHuff eobSymbol)) hheader] at hrows
  exact hrows

/-! ENCODE where its choice is the fixed block. -/

/-- At LEVEL 1 a chunk whose fixed block is no dearer is sent as one (42_bit_packer R229). -/
theorem encodeBlocks_of_fixed {data : List Byte} {s : State} (hl : s.level = 1)
    (h : fixedBits (chooseTokens data s).1 ≤ storedBits data.length s.cnt.toNat) (p : Packer) :
    encodeBlocks data s p = (emitFixed (chooseTokens data s).1 p, (chooseTokens data s).2.1, (chooseTokens data s).2.2) := by
  have hl0 : ¬ s.level = 0 := by rw [hl]; decide
  simp only [encodeBlocks, if_neg hl0, if_pos h]

/-- What a run leaves of a state in ACC, CNT, OUT and the cursor. -/
def SamePacking (t u : State) : Prop := t.acc = u.acc ∧ t.cnt = u.cnt ∧ t.out = u.out ∧ t.cursor = u.cursor

/-- An operation behind the header in one packer is the operation alone behind the header in OUT. -/
theorem samePacking_behind_header {f : Packer → Packer} (hf : Local f) (s : State) :
    SamePacking (commitPacker (f (emitHeaderIfIdle s (openPacker s))) { s with cursor := 0 })
      (runPacker f { s with cursor := (writtenHeader s).length, out := s.out.writeAll 0 (writtenHeader s) }) := by
  rw [header_eq, hf]
  refine ⟨rfl, rfl, ?_, ?_⟩
  · rw [commitPacker_out, writeAll_append, Nat.zero_add]
    rfl
  · rw [commitPacker_cursor, List.length_append, Nat.zero_add]
    rfl

theorem holdsAt_of_append {m : Memory Byte} {o : Nat} {l l' : List Byte} (h : holdsAt m o (l ++ l')) : holdsAt m o l := by
  intro k hk
  rw [h k (by rw [List.length_append]; omega), List.getElem?_append_left hk]

end Sys2Proof.Machine

namespace Sys2Proof.Proofs

open Sys2Proof Sys2Proof.Machine

/-- Settles O57: the rows of the chosen tokens all run, since the tokens meet the contract, and running packers one after the
other is one run, behind the header as without one. -/
theorem fixedBlockIsItsTableRows : Obligations.FixedBlockIsItsTableRows := by
  intro more cap data s hp hl hd hcap hs hcheaper
  have hreach : s.hist.toNat ≤ streamBytes s := Nat.le_add_right _ _
  obtain ⟨count, pending, hrows⟩ := execAll_fixedBlockRows (validTokens_chooseTokens data s)
    (s := { s with cursor := (writtenHeader s).length, out := s.out.writeAll 0 (writtenHeader s) }) hs hreach
  obtain ⟨hacc, hcnt, hout, hcursor⟩ :
      SamePacking (encodeEffect data s) (runPacker (emitFixed (chooseTokens data s).1)
        { s with cursor := (writtenHeader s).length, out := s.out.writeAll 0 (writtenHeader s) }) := by
    have hpacking := samePacking_behind_header (local_emitFixed (chooseTokens data s).1) s
    simp only [encodeEffect, encodeUpdate_of_ne_nil hd, encodeBlocks_of_fixed hl hcheaper]
    exact hpacking
  have hwritten : (encodeEffect data s).out = s.out.writeAll 0 (writtenHeader s ++
      (emitFixed (chooseTokens data s).1 (openPacker s)).emitted) := by
    rw [hout, writeAll_append, Nat.zero_add]
    rfl
  have hresponse := encodeEffect_response data s
  rw [hcursor] at hresponse
  exact ⟨_, _, exec_encode_completes more hp hcap, hrows, hacc, hcnt, hout, hcursor, hresponse,
    holdsAt_of_append (hwritten ▸ holdsAt_writeAll _ _ _)⟩

end Sys2Proof.Proofs

/-! What each command answers in every state (40_commands R140, R154), and ENCODE of an empty chunk (R147, R148). -/

namespace Sys2Proof.Machine

/-! The STATE a command leaves. -/

/-- `o` is an answered command: it leaves STATE at `p` where it answers OK, and as in `s` where it faults. -/
def AnswersIn (p : Phase) (s : State) (o : Host.Outcome State Fault Refusal) : Prop :=
  ∃ t r, o = .next t ∧ t.response = some r ∧ (r.ok = false → t.phase = s.phase) ∧ (r.ok = true → t.phase = p)

theorem answersIn_raiseFault {s : State} {o : Host.Outcome State Fault Refusal} {c : Cause} {cw : Word}
    (h : o = .next (raiseFault c cw s)) (p : Phase) : AnswersIn p s o :=
  ⟨_, faultResponse c, h, rfl, fun _ => rfl, Bool.noConfusion⟩

theorem answersIn_respond {s t : State} {o : Host.Outcome State Fault Refusal} {result : Word}
    (h : o = .next (respond result t)) : AnswersIn t.phase s o :=
  ⟨_, okResponse result, h, rfl, Bool.noConfusion, fun _ => rfl⟩

/-- ENCODE leaves STATE ACTIVE or faults (40_commands R154). -/
theorem answersIn_execEncode (more : BitVec 1) (rsvd : BitVec 27) (cap : Word) (data : List Byte) (s : State) :
    AnswersIn .active s (execEncode more rsvd cap data s) := by
  rcases execEncode_cases more rsvd cap data s with ⟨-, e⟩ | ⟨-, -, e⟩ | ⟨-, -, -, e⟩ | ⟨-, -, -, e⟩
  · exact answersIn_raiseFault e _
  · exact answersIn_raiseFault e _
  · exact answersIn_raiseFault e _
  · exact encodeUpdate_phase data s ▸ answersIn_respond e

/-- FINISH leaves STATE CLOSED or faults (40_commands R154). -/
theorem answersIn_execFinish (rsvd : BitVec 28) (cap : Word) (s : State) :
    AnswersIn .closed s (execFinish rsvd cap s) := by
  rcases execFinish_cases rsvd cap s with ⟨-, e⟩ | ⟨-, -, e⟩ | ⟨-, -, -, e⟩ | ⟨-, -, -, e⟩
  · exact answersIn_raiseFault e _
  · exact answersIn_raiseFault e _
  · exact answersIn_raiseFault e _
  · exact answersIn_respond e

/-- The STATE of the transition table of 40_commands R154 where command `i` does not fault. -/
def phaseAfter (i : Instr) (s : State) : Phase :=
  match i with
  | .init _ _ _ => .idle
  | .encode _ _ _ _ => .active
  | .finish _ _ => .closed
  | _ => s.phase

theorem answersIn_exec {i : Instr} (hi : i.isCommand = true) (s : State) : AnswersIn (phaseAfter i s) s (exec i s) := by
  cases i with
  | tblinit rsvd =>
    rcases execTblinit_cases rsvd s with ⟨-, e⟩ | ⟨-, e⟩
    · exact answersIn_raiseFault e _
    · exact answersIn_respond e
  | init en fmt rsvd =>
    rcases execInit_cases en fmt rsvd s with ⟨-, e⟩ | ⟨-, -, e⟩ | ⟨-, format, -, e⟩
    · exact answersIn_raiseFault e _
    · exact answersIn_raiseFault e _
    · exact answersIn_respond e
  | encode more rsvd cap data => exact answersIn_execEncode more rsvd cap data s
  | finish rsvd cap => exact answersIn_execFinish rsvd cap s
  | rdreg rsvdLow reg rsvdHigh =>
    rcases execRdreg_cases rsvdLow reg rsvdHigh s with ⟨-, e⟩ | ⟨-, -, v, -, e⟩
    · exact answersIn_raiseFault e _
    · exact answersIn_respond e
  | reservedOp0 | reservedOp67 | reservedOp8F => exact answersIn_raiseFault rfl _
  | _ => cases hi

/-! Without a stream ENCODE and FINISH fault USAGE (40_commands R154, 60_exceptions R307). -/

theorem exec_encode_without_stream (more : BitVec 1) (cap : Word) (data : List Byte) {s : State}
    (h : s.phase = .uninit ∨ s.phase = .closed) :
    exec (.encode more 0 cap data) s = .next (raiseFault .usage (wordEncode more 0) s) := by
  simp only [exec, execEncode, noStream_true h]
  rfl

theorem exec_finish_without_stream (cap : Word) {s : State} (h : s.phase = .uninit ∨ s.phase = .closed) :
    exec (.finish 0 cap) s = .next (raiseFault .usage (wordFinish 0) s) := by
  simp only [exec, execFinish, noStream_true h]
  rfl

/-! ENCODE of no bytes. -/

/-- An empty chunk has the header written, where STATE is IDLE, and the pending bits left pending (40_commands R147, R148;
42_bit_packer R231). -/
theorem encodeEffect_nil (s : State) :
    encodeEffect [] s = { s with
      phase := .active, out := s.out.writeAll 0 (writtenHeader s), cursor := (writtenHeader s).length,
      response := some ⟨true, 0, BitVec.ofNat 32 (writtenHeader s).length⟩ } := by
  obtain ⟨hacc, hcnt⟩ := encodeUpdate_nil_acc_cnt s
  rw [encodeUpdate_nil, header_eq] at hacc hcnt
  simp only [commitPacker_acc, commitPacker_cnt] at hacc hcnt
  simp only [encodeEffect, encodeUpdate_nil, header_eq, commitPacker, respond, okResponse, hacc, hcnt, Nat.zero_add]

theorem writtenHeader_of_active {s : State} (h : s.phase = .active) : writtenHeader s = [] :=
  if_neg (by rw [h]; decide)

end Sys2Proof.Machine

namespace Sys2Proof.Proofs

open Sys2Proof Sys2Proof.Machine

/-- Settles O44: every command answers with the STATE of the transition table, or faults and leaves STATE; without a stream
ENCODE and FINISH fault USAGE. -/
theorem stateTransitions : Obligations.StateTransitions := by
  intro i s hi
  obtain ⟨t, r, ht, hr, hfault, hok⟩ := answersIn_exec hi s
  refine ⟨t, r, ht, hr, hfault, hok, ?_⟩
  rintro (⟨more, cap, data, rfl⟩ | ⟨cap, rfl⟩) hs
  · cases (exec_encode_without_stream more cap data hs).symm.trans ht
    cases hr
    exact ⟨rfl, rfl⟩
  · cases (exec_finish_without_stream cap hs).symm.trans ht
    cases hr
    exact ⟨rfl, rfl⟩

/-- Settles O34: what an empty chunk leaves is said once (`encodeEffect_nil`), and the header is empty in ACTIVE. -/
theorem encodeOfNothingEmitsAtMostTheHeader : Obligations.EncodeOfNothingEmitsAtMostTheHeader := by
  refine fun more cap s => ⟨fun hp => ?_, fun hp hcap => ?_⟩
  · have hcap : worstEnc s 0 ≤ cap.toNat := by simp [worstEnc, hdrIfIdle, hp]
    rw [exec_encode_completes more (data := []) (.inr hp) hcap, encodeEffect_nil, writtenHeader_of_active hp, ← hp]
    rfl
  · refine ⟨encodeEffect [] s, writtenHeader s, exec_encode_completes more (.inl hp) hcap, if_pos hp, ?_, ?_, fun a ha => ?_⟩
    · rw [encodeEffect_nil]
    · rw [encodeEffect_nil]
      exact holdsAt_writeAll _ _ _
    · rw [encodeEffect_nil]
      exact (Memory.read_writeAll _ _ _ _).trans (if_neg (by omega))

/-- Settles O31: TBLINIT has a reserved-bit check and a response, and its word is its upper 28 bits over the opcode. -/
theorem tblinitHasNoEffect : Obligations.TblinitHasNoEffect := by
  refine ⟨rfl, fun s => ⟨rfl, fun rsvd hrsvd => ?_⟩⟩
  have hfault : exec (.tblinit rsvd) s = .next (raiseFault .illegal (wordTblinit rsvd) s) := if_pos hrsvd
  have hword : wordTblinit rsvd = (rsvd.setWidth 32 <<< 4) ||| 0x1#32 := append_eq_shiftLeft_or rsvd 1
  rw [hfault, hword]
  rfl

end Sys2Proof.Proofs

/-! How many bits ENCODE adds (42_bit_packer R228, R229), and what does not depend on where the stream is cut into chunks
(43_checksums R254, R257; 40_commands R156). -/

namespace Sys2Proof.Machine

/-! The bits of ENCODE's blocks. -/

/-- A non-empty stored chunk leaves no bit pending: its last block ends at a byte boundary. -/
theorem emitStored_c {d : List Byte} (hd : d ≠ []) (p : Packer) : (emitStored d p).c = 0 := by
  obtain ⟨hflat, -⟩ := storedPieces_spec (le_refl d.length)
  rw [emitStored]
  cases hpieces : storedPieces d.length d with
  | nil => exact absurd (hflat.symm.trans (congrArg List.flatten hpieces)) hd
  | cons e rest => exact (foldl_emitStoredBlock_count rest _ (emitStoredBlock_count e p).1).1

/-- The bits that ENCODE of a chunk adds after the header: those of the stored blocks at LEVEL 0, of the cheaper of the two
blocks at LEVEL 1 (42_bit_packer R229). -/
def blockBits (data : List Byte) (s : State) : Nat :=
  if s.level = 0 then storedBits data.length s.cnt.toNat
  else min (fixedBits (chooseTokens data s).1) (storedBits data.length s.cnt.toNat)

/-- ENCODE's blocks pack those bits, and leave fewer than 8 pending. -/
theorem encodeBlocks_count {data : List Byte} (hd : data ≠ []) {s : State} {p : Packer} (hp : p.c = s.cnt.toNat) :
    bitCount (encodeBlocks data s p).1 = bitCount p + blockBits data s ∧ (encodeBlocks data s p).1.c < 8 := by
  have hstored : bitCount (emitStored data p) = bitCount p + storedBits data.length s.cnt.toNat :=
    hp ▸ bitCount_emitStored hd p
  have hstored8 : (emitStored data p).c < 8 := by rw [emitStored_c hd]; decide
  simp only [encodeBlocks, blockBits]
  split
  · exact ⟨hstored, hstored8⟩
  · split
    · next hfixed =>
      rw [Nat.min_eq_left hfixed]
      exact ⟨bitCount_emitFixed _ p, emitFixed_c_lt _ p⟩
    · next hfixed =>
      rw [Nat.min_eq_right (Nat.le_of_not_le hfixed)]
      exact ⟨hstored, hstored8⟩

/-- The bits sent and pending after ENCODE are those of the header, those pending before and those of its blocks. -/
theorem encodeUpdate_bits {data : List Byte} (hd : data ≠ []) (s : State) :
    8 * (encodeUpdate data s).cursor + (encodeUpdate data s).cnt.toNat =
      8 * hdrIfIdle s + s.cnt.toNat + blockBits data s := by
  obtain ⟨hbits, h8⟩ := encodeBlocks_count hd (emitHeaderIfIdle_c s (openPacker s))
  simp only [bitCount, length_header, emitHeaderIfIdle_c, openPacker_c] at hbits
  simp only [encodeUpdate_of_ne_nil hd, commitPacker_cursor, commitPacker_cnt, toNat_ofNat_of_lt (n := 3) h8]
  omega

/-! Two chunks and their joining. -/

theorem checksumUpdate_append (format : Format) (c : Word) (d d' : List Byte) :
    checksumUpdate format c (d ++ d') = checksumUpdate format (checksumUpdate format c d) d' := List.foldl_append

/-- HIST stops at 32768 whether the bytes come at once or in two counts (10_state R31). -/
theorem histAfter_histAfter (hist : BitVec 16) (m n : Nat) : histAfter (histAfter hist m) n = histAfter hist (m + n) := by
  apply BitVec.eq_of_toNat_eq
  simp only [toNat_histAfter]
  omega

/-- An empty chunk leaves HIST also where it is above 32768. -/
theorem encodeUpdate_hist_append (d d' : List Byte) (s : State) :
    (encodeUpdate d' (encodeEffect d s)).hist = (encodeUpdate (d ++ d') s).hist := by
  by_cases hd : d = []
  · subst hd
    rw [encodeEffect_nil]
    by_cases hd' : d' = []
    · subst hd'; rfl
    · rw [encodeUpdate_hist _ _ hd', List.nil_append, encodeUpdate_hist _ _ hd']
  · have hfirst : (encodeEffect d s).hist = histAfter s.hist d.length := encodeUpdate_hist d s hd
    rw [encodeUpdate_hist _ s (List.append_ne_nil_of_left_ne_nil hd d'), List.length_append, ← histAfter_histAfter, ← hfirst]
    by_cases hd' : d' = []
    · subst hd'
      rw [hfirst, histAfter_histAfter]
      exact hfirst
    · exact encodeUpdate_hist _ _ hd'

/-- TOTAL_IN modulo the size of WINDOW counts the chunk, across the wrap at 2^32 (70_reset R357). -/
theorem totalIn_add_mod_wsize (t : Word) (n : Nat) : (t + BitVec.ofNat 32 n).toNat % wsize = (t.toNat + n) % wsize := by
  rw [BitVec.toNat_add, BitVec.toNat_ofNat]
  simp only [wsize]
  omega

theorem encodeUpdate_window_append (d d' : List Byte) (s : State) :
    (encodeUpdate d' (encodeEffect d s)).window = (encodeUpdate (d ++ d') s).window := by
  simp only [encodeUpdate_window, encodeEffect, respond_window, respond_totalIn, encodeUpdate_totalIn, windowUpdate_append]
  exact windowUpdate_mod _ _ _ _ (totalIn_add_mod_wsize _ _)

theorem encodeUpdate_cksum_append (d d' : List Byte) (s : State) :
    (encodeUpdate d' (encodeEffect d s)).cksum = (encodeUpdate (d ++ d') s).cksum := by
  simp only [encodeUpdate_cksum, encodeEffect, respond_cksum, respond_format, encodeUpdate_format, checksumUpdate_append]

theorem encodeUpdate_totalIn_append (d d' : List Byte) (s : State) :
    (encodeUpdate d' (encodeEffect d s)).totalIn = (encodeUpdate (d ++ d') s).totalIn := by
  simp only [encodeUpdate_totalIn, encodeEffect, respond_totalIn, List.length_append, BitVec.ofNat_add, BitVec.add_assoc]

end Sys2Proof.Machine

namespace Sys2Proof.Proofs

open Sys2Proof Sys2Proof.Machine

/-- Settles O40: the block ENCODE takes packs the lesser number of bits, and the cursor with the pending bits counts them. -/
theorem encodeTakesTheCheaperBlock : Obligations.EncodeTakesTheCheaperBlock := by
  intro more cap data s hp hd hcap
  exact ⟨encodeEffect data s, exec_encode_completes more hp hcap, encodeUpdate_bits hd s⟩

/-- Settles O53: each of these registers is a running count or fold over the bytes of the stream, and WINDOW depends on TOTAL_IN
modulo 32768 only. -/
theorem chunkBoundariesDoNotMatter : Obligations.ChunkBoundariesDoNotMatter := by
  intro more rsvd cap cap' cap'' d d' s t u v r r' r'' ht hr hu hr' hv hr''
  obtain ⟨-, rfl⟩ := encodeEffect_of_ok ht hr
  obtain ⟨-, rfl⟩ := encodeEffect_of_ok hu hr'
  obtain ⟨-, rfl⟩ := encodeEffect_of_ok hv hr''
  refine ⟨encodeUpdate_cksum_append d d' s, encodeUpdate_totalIn_append d d' s, encodeUpdate_hist_append d d' s,
    encodeUpdate_window_append d d' s, ?_, ?_, ?_⟩
  · simp only [encodeEffect, respond_phase, encodeUpdate_phase]
  · simp only [encodeEffect, respond_format, encodeUpdate_format]
  · simp only [encodeEffect, respond_level, encodeUpdate_level]

end Sys2Proof.Proofs

/-! What FINISH writes, byte for byte (40_commands R150, 44_framer R272 to R276), and the same under a host that disturbs OUT
(70_reset R351). -/

namespace Sys2Proof.Machine

/-! The final block, padded. -/

/-- The final block is the header 1, 1, 0 and the seven zeros of the end-of-block symbol (44_framer R275). -/
theorem appends_emitFinalBlock : Appends emitFinalBlock ([true, true, false] ++ List.replicate 7 false) := by
  have hheader : Appends (putBits (blockHeader 1 btypeFixed) 3) [true, true, false] :=
    appends_putBits (v := blockHeader 1 btypeFixed) (n := 3) (by decide) (by decide)
  exact hheader.comp (appends_putHuff eobSymbol)

theorem local_align_emitFinalBlock : Local fun p => align (emitFinalBlock p) :=
  ((local_putBits _ _).comp (local_putHuff _)).comp local_align

/-- The bytes in which the pending bits and the final block go out. -/
def finalBytes (s : State) : List Byte := (align (emitFinalBlock (openPacker s))).emitted

theorem emitFinalBlock_c (p : Packer) : (emitFinalBlock p).c = (p.c + 10) % 8 := by
  rw [emitFinalBlock, putHuff, (putBits_count _ _ _).1, (putBits_count _ _ _).1]
  show ((p.c + 3) % 8 + 7) % 8 = _
  omega

/-- The pending bits and the 10 of the final block, filled up with zeros to the next byte, are those of `finalBytes`, and none
stays in W. -/
theorem align_emitFinalBlock_spec {s : State} (h : s.acc.toNat < 2 ^ s.cnt.toNat) :
    align (emitFinalBlock (openPacker s)) = ⟨0, 0, finalBytes s⟩ ∧
    bytesBits (finalBytes s) = pendingBits s ++ [true, true, false] ++ List.replicate 7 false ++
      List.replicate ((8 - (s.cnt.toNat + 10) % 8) % 8) false := by
  obtain ⟨hsettled, hbits⟩ := appends_emitFinalBlock _ (settled_openPacker h)
  obtain ⟨hc, hw, hpadded⟩ := packedBits_align hsettled
  refine ⟨?_, ?_⟩
  · show (⟨(align _).w, (align _).c, _⟩ : Packer) = _
    rw [hw, hc]
    rfl
  · rw [finalBytes, ← (eq_of_settled_zero (settled_align hsettled) hc).2, hpadded, hbits, packedBits_openPacker,
      emitFinalBlock_c, openPacker_c, Nat.mod_mod, ← List.append_assoc]

theorem length_finalBytes {s : State} (h : s.acc.toNat < 2 ^ s.cnt.toNat) :
    (finalBytes s).length = (s.cnt.toNat + 10 + 7) / 8 := by
  have hlength := congrArg List.length (align_emitFinalBlock_spec h).2
  simp only [length_bytesBits, List.length_append, List.length_replicate, pendingBits, length_lsbBits,
    List.length_cons, List.length_nil] at hlength
  omega

/-! FINISH. -/

/-- All that FINISH writes: the header where STATE is IDLE, the final block, the trailer. -/
def finishBytes (s : State) : List Byte :=
  writtenHeader s ++ finalBytes s ++ trailerBytes s.format s.cksum s.totalIn

/-- What FINISH leaves (40_commands R150): its bytes in OUT from 0 on, no bit pending, and every other register as it was. -/
theorem finishEffect_eq {s : State} (h : s.acc.toNat < 2 ^ s.cnt.toNat) :
    finishEffect s = { s with
      phase := .closed, acc := 0, cnt := 0, out := s.out.writeAll 0 (finishBytes s), cursor := (finishBytes s).length,
      response := some ⟨true, 0, BitVec.ofNat 32 (finishBytes s).length⟩ } := by
  have hfinal : align (emitFinalBlock (emitHeaderIfIdle s (openPacker s))) = ⟨0, 0, writtenHeader s ++ finalBytes s⟩ := by
    have hopen : align (emitFinalBlock ⟨s.acc.setWidth 32, s.cnt.toNat, []⟩) = ⟨0, 0, finalBytes s⟩ :=
      (align_emitFinalBlock_spec h).1
    have hlocal := local_align_emitFinalBlock (s.acc.setWidth 32) s.cnt.toNat (writtenHeader s)
    simp only [hopen] at hlocal
    rw [header_eq, hlocal]
  simp only [finishEffect, finishUpdate, hfinal, emitTrailer, Packer.emitAll, commitPacker, respond, okResponse, finishBytes,
    Nat.zero_add]
  rfl

/-- Where STATE is IDLE or ACTIVE and CAP is enough FINISH has its effect (40_commands R149, R150). -/
theorem exec_finish_completes {cap : Word} {s : State} (hp : s.phase = .idle ∨ s.phase = .active)
    (hcap : worstFin s ≤ cap.toNat) : exec (.finish 0 cap) s = .next (finishEffect s) := by
  simp only [exec, execFinish, noStream_false hp, if_neg (not_lt.2 hcap)]
  rfl

/-! FINISH under a host that disturbs its buffers. -/

/-- The state in which a command taken off the port runs that has an OUT: the host has supplied it afresh (20_memory R60). -/
def onFreshOut (s : State) (rest : List Arrival) : State := { s with inbox := rest, out := [] }

/-- A step with a disturbed FINISH first at the port runs FINISH on the OUT that the host supplies; what is lost afterwards,
where the host touched OUT, is what `disturb` says. -/
theorem step_finish_disturbed {s : State} {d : Disturbance} {r : Request} {rest : List Arrival} {cap : Word}
    (hin : s.inbox = .issueDisturbed d r :: rest) (hr : decodeRequest r = .ok (.finish 0 cap)) :
    step s = exec (.finish 0 cap) (onFreshOut s rest) ∨
    d ≠ .inOnly ∧ step s = mapNext (disturb cap.toNat) (exec (.finish 0 cap) (onFreshOut s rest)) := by
  rw [step, takeArrival, hin]
  simp only [arrive, runDisturbed, hr]
  split
  · next hbreaks =>
    refine .inr ⟨?_, rfl⟩
    rintro rfl
    cases hbreaks
  · exact .inl rfl

/-- On fresh OUT no byte from CAP on is known after FINISH. -/
theorem finishEffect_onFreshOut_above {s : State} {rest : List Arrival} {cap : Word} (hcap : worstFin s ≤ cap.toNat) {a : Nat}
    (ha : cap.toNat ≤ a) : (finishEffect (onFreshOut s rest)).out.read a = none :=
  have hle : (finishUpdate (onFreshOut s rest)).cursor ≤ worstFin s := finishUpdate_cursor_le _
  finishUpdate_out_above (hle.trans (hcap.trans ha))

end Sys2Proof.Machine

namespace Sys2Proof.Proofs

open Sys2Proof Sys2Proof.Machine

/-- Settles O41: the header goes out before and the trailer after a final block that ends at a byte boundary, so FINISH is one
run of whole bytes to OUT from 0 on (`finishEffect_eq`). -/
theorem finishClosesTheStream : Obligations.FinishClosesTheStream := by
  intro cap s hp hcap hs
  have hlength := length_finalBytes hs
  have hpad : 8 * (finalBytes s).length - (s.cnt.toNat + 10) = (8 - (s.cnt.toNat + 10) % 8) % 8 := by omega
  refine ⟨finishEffect s, finalBytes s, exec_finish_completes hp hcap, hlength, ?_, finishBytes s, ?_, ?_, ?_, fun a ha => ?_⟩
  · rw [hpad]
    exact (align_emitFinalBlock_spec hs).2
  · rw [finishBytes, writtenHeader]
    cases s.format <;> rfl
  · rw [finishEffect_eq hs]
  · rw [finishEffect_eq hs]
    exact holdsAt_writeAll _ _ _
  · rw [finishEffect_eq hs]
    exact (Memory.read_writeAll _ _ _ _).trans (if_neg (by omega))

/-- Settles O60: what a disturbing host costs FINISH is OUT below CAP, CKSUM, WINDOW and HASH, and FINISH has no IN. -/
theorem disturbedFinishStillCompletes : Obligations.DisturbedFinishStillCompletes := by
  intro s d r rest cap hin hr hp hcap
  have hu : exec (.finish 0 cap) (onFreshOut s rest) = .next (finishEffect (onFreshOut s rest)) :=
    exec_finish_completes hp hcap
  have hle : (finishEffect (onFreshOut s rest)).cursor ≤ worstFin s := finishUpdate_cursor_le _
  have habove (a : Nat) (ha : cap.toNat ≤ a) : (finishEffect (onFreshOut s rest)).out.read a = none :=
    finishEffect_onFreshOut_above hcap ha
  have hpending (hs : s.acc.toNat < 2 ^ s.cnt.toNat) := finishUpdate_acc_cnt (s := onFreshOut s rest) hs
  rcases step_finish_disturbed hin hr with hstep | ⟨hd, hstep⟩ <;> rw [hu] at hstep
  · exact ⟨_, _, hstep, hu, rfl, rfl, hle, rfl, rfl, rfl, rfl, rfl, rfl, rfl, rfl, rfl, hpending, fun _ => rfl, habove⟩
  · refine ⟨_, _, hstep, hu, rfl, rfl, hle, rfl, rfl, rfl, rfl, rfl, rfl, rfl, rfl, rfl, hpending, (absurd · hd),
      fun a ha => ?_⟩
    rw [disturb_out, Memory.read_forgetBelow, if_neg (by omega)]
    exact habove a ha

end Sys2Proof.Proofs

/-! The tokens a Match Finder chooses: what they decode to, which token starts Tokenize keys, and which token it takes at
each (41_match_finder R180 to R189). -/

namespace Sys2Proof.Machine

/-! Tokens that meet the contract decode to the chunk. -/

theorem reverse_take_succ {d : List Byte} {i : Nat} (hi : i < d.length) :
    (d.take (i + 1)).reverse = chunkByte d i :: (d.take i).reverse := by
  rw [List.take_succ_eq_append_getElem hi, List.reverse_append, chunkByte, List.getD_eq_getElem _ _ hi]
  rfl

section
variable {d stream : List Byte} {p0 : Word} {h0 : Nat} {win : Memory Byte}
  (hwin : ∀ k : Nat, 1 ≤ k → k ≤ h0 →
    stream[k - 1]? = some (winRead win (((p0.toNat : Int) - (k : Int)) % (wsize : Int)).toNat))
include hwin

/-- The byte `dist` back in the stream so far is what the Match Finder's byte source reads there (41_match_finder R185). -/
theorem getElem?_stream_eq_byteSource {i dist : Nat} (hi : i ≤ d.length) (hd : 1 ≤ dist) (hd' : dist ≤ h0 + i) :
    ((d.take i).reverse ++ stream)[dist - 1]? = some (byteSource d p0 win ((i : Int) - (dist : Int))) := by
  have hlength : (d.take i).length = i := List.length_take_of_le hi
  rcases Nat.lt_or_ge i dist with hwindow | hchunk
  · have hposition : (p0.toNat : Int) + ((i : Int) - (dist : Int)) = p0.toNat - ((dist - i : Nat) : Int) := by omega
    rw [List.getElem?_append_right (by rw [List.length_reverse]; omega), List.length_reverse, hlength,
      show dist - 1 - i = dist - i - 1 by omega, hwin _ (by omega) (by omega), byteSource, if_neg (by omega), hposition]
  · have hindex : ((i : Int) - (dist : Int)).toNat = i - dist := by omega
    have hlt : i - dist < d.length := by omega
    rw [List.getElem?_append_left (by rw [List.length_reverse]; omega), List.getElem?_reverse (by omega), hlength,
      show i - 1 - (dist - 1) = i - dist by omega, List.getElem?_take_of_lt (by omega), byteSource,
      if_pos (by omega), hindex, chunkByte, List.getD_eq_getElem _ _ hlt, List.getElem?_eq_getElem hlt]

/-- A copy whose bytes are those of the byte source appends the bytes it covers, also where it overlaps itself. -/
theorem copyBytes_eq {dist : Nat} (hd : 1 ≤ dist) {len i : Nat} (hd' : dist ≤ h0 + i) (hend : i + len ≤ d.length)
    (hbytes : ∀ k : Nat, k < len → chunkByte d (i + k) = byteSource d p0 win (((i + k : Nat) : Int) - (dist : Int))) :
    copyBytes dist len ((d.take i).reverse ++ stream) = some ((d.take (i + len)).reverse ++ stream) := by
  induction len generalizing i with
  | zero => rfl
  | succ len ih =>
    have hbytes' (k : Nat) (hk : k < len) :
        chunkByte d (i + 1 + k) = byteSource d p0 win (((i + 1 + k : Nat) : Int) - (dist : Int)) := by
      rw [show i + 1 + k = i + (k + 1) by omega]
      exact hbytes (k + 1) (Nat.succ_lt_succ hk)
    have hih := ih (i := i + 1) (by omega) (by omega) hbytes'
    rw [reverse_take_succ (by omega), show i + 1 + len = i + (len + 1) by omega] at hih
    have hbyte : chunkByte d i = byteSource d p0 win ((i : Int) - (dist : Int)) := hbytes 0 (Nat.succ_pos len)
    rw [copyBytes, getElem?_stream_eq_byteSource hwin (by omega) hd hd', ← hbyte]
    exact hih

/-- Tokens that meet the contract from an index on decode to the rest of the chunk. -/
theorem decodeTokens_of_validFrom {ts : List Token} {i : Nat} (h : validFrom d p0 h0 win i ts = true) :
    decodeTokens ts ((d.take i).reverse ++ stream) = some (d.reverse ++ stream) := by
  induction ts generalizing i with
  | nil =>
    simp only [validFrom, decide_eq_true_eq] at h
    rw [h, List.take_length]
    rfl
  | cons tok ts ih =>
    cases tok with
    | lit b =>
      simp only [validFrom, Bool.and_eq_true, decide_eq_true_eq] at h
      obtain ⟨⟨hlt, rfl⟩, hrest⟩ := h
      have hih := ih hrest
      rw [reverse_take_succ hlt] at hih
      exact hih
    | copy len dist =>
      simp only [validFrom, Bool.and_eq_true, decide_eq_true_eq, List.all_eq_true, List.mem_range] at h
      obtain ⟨⟨⟨-, -, hd, hd', hend⟩, hbytes⟩, hrest⟩ := h
      rw [decodeTokens, if_neg (by omega), copyBytes_eq hwin hd (le_min_iff.1 hd').2 hend hbytes]
      exact ih hrest

end

/-! The indices that a token list covers. -/

/-- Tokens that meet the contract cover the chunk exactly (41_match_finder R180). -/
theorem add_sum_tokenSpan_of_validFrom {d : List Byte} {p0 : Word} {h0 : Nat} {win : Memory Byte} {ts : List Token}
    {i : Nat} (h : validFrom d p0 h0 win i ts = true) : i + (ts.map tokenSpan).sum = d.length := by
  induction ts generalizing i with
  | nil => exact of_decide_eq_true h
  | cons tok ts ih =>
    rw [List.map_cons, List.sum_cons, ← Nat.add_assoc]
    exact ih (validFrom_cons h).2

/-- Every chosen token covers at least one byte. -/
theorem tokenSpan_pos_of_mem_chooseTokens {data : List Byte} {s : State} {tok : Token}
    (h : tok ∈ (chooseTokens data s).1) : 0 < tokenSpan tok := by
  cases tok with
  | lit b => exact Nat.one_pos
  | copy len dist => exact Nat.lt_of_lt_of_le (by decide) (copiesInRange_chooseTokens data s len dist h).1

/-- A token ends within what its list covers. -/
theorem add_tokenSpan_le_of_tokenAt {ts : List Token} {i : Nat} {tok : Token} (h : tokenAt ts i tok) :
    i + tokenSpan tok ≤ (ts.map tokenSpan).sum := by
  obtain ⟨before, after, rfl, rfl⟩ := h
  rw [List.map_append, List.sum_append, List.map_cons, List.sum_cons]
  omega

theorem mem_of_tokenAt {ts : List Token} {i : Nat} {tok : Token} (h : tokenAt ts i tok) : tok ∈ ts := by
  obtain ⟨before, after, rfl, -⟩ := h
  exact List.mem_append_right _ List.mem_cons_self

/-! The positions that a token list keys (41_match_finder R184). -/

theorem not_keyedAt_nil (d : List Byte) (i : Nat) : ¬ keyedAt d [] i := by
  rintro ⟨-, tok, h⟩
  cases mem_of_tokenAt h

/-- One more token keys the index at which the tokens before it end, where 4 bytes are left there. -/
theorem keyedAt_concat (d : List Byte) (ts : List Token) (tok : Token) (i : Nat) :
    keyedAt d (ts ++ [tok]) i ↔ keyedAt d ts i ∨ i = (ts.map tokenSpan).sum ∧ i + 4 ≤ d.length := by
  constructor
  · rintro ⟨hkey, tok', h⟩
    rcases (tokenAt_append _ _ _ _).1 h with h | ⟨j, ⟨before, after, hlast, rfl⟩, rfl⟩
    · exact .inl ⟨hkey, tok', h⟩
    · rcases List.singleton_eq_append_iff.1 hlast with ⟨rfl, -⟩ | ⟨-, hnil⟩
      · exact .inr ⟨rfl, hkey⟩
      · cases hnil
  · rintro (⟨hkey, tok', h⟩ | ⟨rfl, hkey⟩)
    · exact ⟨hkey, tok', (tokenAt_append _ _ _ _).2 (.inl h)⟩
    · exact ⟨hkey, tok, ts, [], rfl, rfl⟩

/-- Below the index at which a first list ends, what follows it keys nothing. -/
theorem keyedAt_append_of_lt {d : List Byte} {before : List Token} (after : List Token) {i : Nat}
    (hi : i < (before.map tokenSpan).sum) : keyedAt d (before ++ after) i ↔ keyedAt d before i := by
  refine and_congr_right fun _ => exists_congr fun tok => (tokenAt_append _ _ _ _).trans (or_iff_left ?_)
  rintro ⟨j, -, rfl⟩
  omega

/-- HASH with the position of index `i` written to the bucket of its 4 bytes, where 4 bytes are left (41_match_finder R183). -/
def keyIndex (d : List Byte) (p0 : Word) (i : Nat) (hash : Memory HashEntry) : Memory HashEntry :=
  if i + 4 ≤ d.length then hashWrite hash (hashOf (hashKey d i)) ⟨true, p0 + BitVec.ofNat 32 i⟩ else hash

/-- HASH after the starts of a token list, the first token at index `i`, are keyed in order (41_match_finder R184). -/
def keyStarts (d : List Byte) (p0 : Word) : Nat → List Token → Memory HashEntry → Memory HashEntry
  | _, [], hash => hash
  | i, tok :: ts, hash => keyStarts d p0 (i + tokenSpan tok) ts (keyIndex d p0 i hash)

theorem keyStarts_concat (d : List Byte) (p0 : Word) (i : Nat) (ts : List Token) (tok : Token) (hash : Memory HashEntry) :
    keyStarts d p0 i (ts ++ [tok]) hash = keyIndex d p0 (i + (ts.map tokenSpan).sum) (keyStarts d p0 i ts hash) := by
  induction ts generalizing i hash with
  | nil => rfl
  | cons tok' ts ih =>
    rw [List.cons_append, keyStarts, ih, keyStarts, List.map_cons, List.sum_cons, Nat.add_assoc]

theorem read_keyIndex (d : List Byte) (p0 : Word) (i : Nat) (hash : Memory HashEntry) (h : Nat) :
    (keyIndex d p0 i hash).read h =
      if i + 4 ≤ d.length ∧ h = hashOf (hashKey d i) then some ⟨true, p0 + BitVec.ofNat 32 i⟩ else hash.read h := by
  by_cases hi : i + 4 ≤ d.length
  · simp only [keyIndex, hashWrite, hi, true_and, if_true, Memory.read_write]
  · simp only [keyIndex, hi, false_and, if_false]

/-- `j` is the last of the indices that `ts` keys into bucket `h`. -/
def LastKeyedInto (d : List Byte) (ts : List Token) (h j : Nat) : Prop :=
  keyedAt d ts j ∧ hashOf (hashKey d j) = h ∧ ∀ k : Nat, j < k → keyedAt d ts k → hashOf (hashKey d k) ≠ h

/-- No index that `ts` keys goes into bucket `h`. -/
def NoneKeyedInto (d : List Byte) (ts : List Token) (h : Nat) : Prop :=
  ∀ k : Nat, keyedAt d ts k → hashOf (hashKey d k) ≠ h

/-- Every bucket holds the last index keyed into it, or what it held before where there is none. -/
theorem read_keyStarts (d : List Byte) (p0 : Word) (ts : List Token) (hash : Memory HashEntry) (h : Nat) :
    (∃ j, LastKeyedInto d ts h j ∧ (keyStarts d p0 0 ts hash).read h = some ⟨true, p0 + BitVec.ofNat 32 j⟩) ∨
    NoneKeyedInto d ts h ∧ (keyStarts d p0 0 ts hash).read h = hash.read h := by
  induction ts using List.reverseRecOn with
  | nil => exact .inr ⟨fun k hk => absurd hk (not_keyedAt_nil d k), rfl⟩
  | append_singleton ts tok ih =>
    rw [keyStarts_concat, Nat.zero_add, read_keyIndex]
    split
    · next hnew =>
      obtain ⟨hkey, rfl⟩ := hnew
      refine .inl ⟨_, ⟨(keyedAt_concat _ _ _ _).2 (.inr ⟨rfl, hkey⟩), rfl, fun k hlt hk => ?_⟩, rfl⟩
      rcases (keyedAt_concat _ _ _ _).1 hk with ⟨-, tok', htok⟩ | ⟨rfl, -⟩
      · have hle := add_tokenSpan_le_of_tokenAt htok
        omega
      · exact absurd hlt (lt_irrefl _)
    · next hold =>
      have hkeep {k : Nat} (hk : keyedAt d (ts ++ [tok]) k) (hhash : hashOf (hashKey d k) = h) : keyedAt d ts k := by
        refine ((keyedAt_concat _ _ _ _).1 hk).resolve_right ?_
        rintro ⟨rfl, hkey⟩
        exact hold ⟨hkey, hhash.symm⟩
      refine ih.imp ?_ ?_
      · rintro ⟨j, ⟨hj, hhash, hlast⟩, hread⟩
        have hlast' (k : Nat) (hlt : j < k) (hk : keyedAt d (ts ++ [tok]) k) : hashOf (hashKey d k) ≠ h := fun heq =>
          hlast k hlt (hkeep hk heq) heq
        exact ⟨j, ⟨(keyedAt_concat _ _ _ _).2 (.inl hj), hhash, hlast'⟩, hread⟩
      · rintro ⟨hnone, hread⟩
        exact ⟨fun k hk heq => hnone k (hkeep hk heq) heq, hread⟩

/-- What a bucket holds once the tokens before an index have been keyed. -/
theorem bucketBefore_keyStarts {d : List Byte} {s : State} {before : List Token} (after : List Token)
    (hpos : ∀ tok ∈ before, 0 < tokenSpan tok) (h : Nat) :
    bucketBefore d s (before ++ after) (before.map tokenSpan).sum h
      (hashRead (keyStarts d s.totalIn 0 before s.hash) h) := by
  have hsame {k : Nat} (hk : k < (before.map tokenSpan).sum) := keyedAt_append_of_lt (d := d) after hk
  rcases read_keyStarts d s.totalIn before s.hash h with ⟨j, ⟨hj, hhash, hlast⟩, hread⟩ | ⟨hnone, hread⟩
  · have hlt : j < (before.map tokenSpan).sum := by
      obtain ⟨-, tok, htok⟩ := hj
      have hle := add_tokenSpan_le_of_tokenAt htok
      have hspan := hpos tok (mem_of_tokenAt htok)
      omega
    refine .inl ⟨j, hlt, (hsame hlt).2 hj, hhash, ?_, fun k hjk hk hkey => hlast k hjk ((hsame hk).1 hkey)⟩
    rw [hashRead, hread]
    rfl
  · refine .inr ⟨fun k hk hkey => hnone k ((hsame hk).1 hkey), ?_⟩
    rw [hashRead, hread]
    rfl

/-! Tokenize, one token at a time. -/

section
variable (d : List Byte) (s : State)

/-- With fewer than 4 bytes left the reference policy takes the literal, whatever the bucket holds (41_match_finder R184). -/
theorem referenceToken_lit {i : Nat} (hi : ¬ i + 4 ≤ d.length) (e : HashEntry) :
    referenceToken d s i e (.lit (chunkByte d i)) :=
  ⟨fun huses => absurd huses.1 hi, fun _ => rfl⟩

/-- Tokenize ends, or takes the token that its bucket gives, keys the start of that token and goes on behind it
(41_match_finder R183). -/
theorem tokenizeFrom_succ_cases (fuel i : Nat) (hash : Memory HashEntry) :
    tokenizeFrom d s.totalIn s.hist.toNat s.window (fuel + 1) i hash = ([], hash) ∨
    ∃ tok, referenceToken d s i (hashRead hash (hashOf (hashKey d i))) tok ∧
      tokenizeFrom d s.totalIn s.hist.toNat s.window (fuel + 1) i hash =
        (let r := tokenizeFrom d s.totalIn s.hist.toNat s.window fuel (i + tokenSpan tok) (keyIndex d s.totalIn i hash)
        (tok :: r.1, r.2)) := by
  simp only [tokenizeFrom]
  split_ifs with hi hkey
  · have hkey' : i + 4 ≤ d.length := by simp only [keyBytes] at hkey; omega
    have htok := referenceToken_matchCandidate (s := s) (hashRead hash (hashOf (hashKey d i))) hkey'
    refine .inr ⟨_, htok, ?_⟩
    rw [keyIndex, if_pos hkey']
    rcases matchCandidate d s.totalIn s.hist.toNat s.window i (hashRead hash (hashOf (hashKey d i))) with - | ⟨len, dist⟩
    · rfl
    · rfl
  · have hkey' : ¬ i + 4 ≤ d.length := by simp only [keyBytes] at hkey; omega
    refine .inr ⟨_, referenceToken_lit d s hkey' _, ?_⟩
    rw [keyIndex, if_neg hkey']
    rfl
  · exact .inl rfl

/-- HASH after Tokenize is HASH with the starts of its tokens keyed (41_match_finder R184). -/
theorem tokenizeFrom_hash_eq (fuel i : Nat) (hash : Memory HashEntry) :
    (tokenizeFrom d s.totalIn s.hist.toNat s.window fuel i hash).2 =
      keyStarts d s.totalIn i (tokenizeFrom d s.totalIn s.hist.toNat s.window fuel i hash).1 hash := by
  induction fuel generalizing i hash with
  | zero => rfl
  | succ n ih =>
    rcases tokenizeFrom_succ_cases d s n i hash with hend | ⟨tok, -, hstep⟩
    · rw [hend]; rfl
    · rw [hstep]
      exact ih _ _

/-- Each token of Tokenize is the one that its bucket gives once the tokens before it have been keyed. -/
theorem referenceToken_of_tokenizeFrom {fuel i : Nat} {hash : Memory HashEntry} {before after : List Token} {tok : Token}
    (h : (tokenizeFrom d s.totalIn s.hist.toNat s.window fuel i hash).1 = before ++ tok :: after) :
    referenceToken d s (i + (before.map tokenSpan).sum)
      (hashRead (keyStarts d s.totalIn i before hash) (hashOf (hashKey d (i + (before.map tokenSpan).sum)))) tok := by
  induction fuel generalizing i hash before with
  | zero => simp [tokenizeFrom] at h
  | succ n ih =>
    rcases tokenizeFrom_succ_cases d s n i hash with hend | ⟨head, hhead, hstep⟩
    · simp [hend] at h
    · rw [hstep] at h
      cases before with
      | nil =>
        obtain ⟨rfl, -⟩ := List.cons.inj h
        exact hhead
      | cons tok' before =>
        obtain ⟨rfl, hrest⟩ := List.cons.inj h
        rw [List.map_cons, List.sum_cons, ← Nat.add_assoc]
        exact ih hrest

end

/-- The reference policy copies 4 bytes or more (41_match_finder R187). -/
theorem four_le_of_referenceToken {d : List Byte} {s : State} {i : Nat} {e : HashEntry} {len dist : Nat}
    (h : referenceToken d s i e (.copy len dist)) : 4 ≤ len := by
  obtain ⟨hcopy, hlit⟩ := h
  by_cases huses : usesCandidate d s i e
  · obtain ⟨len', htok, hmin, -⟩ := hcopy huses
    cases htok
    exact hmin
  · cases hlit huses

/-! The tokens of an ENCODE under the reference policy, and the HASH it leaves. -/

section
variable {data : List Byte} {s : State} (hpolicy : s.policy = .reference)
include hpolicy

theorem chooseTokens_of_reference :
    chooseTokens data s = ((tokenize data s.totalIn s.hist.toNat s.window s.hash).1,
      (tokenize data s.totalIn s.hist.toNat s.window s.hash).2, s.freeCtr) := by
  simp only [chooseTokens, hpolicy]

/-- Each token is the one that its bucket gives once the tokens before it have been keyed. -/
theorem referenceToken_of_chooseTokens {before after : List Token} {tok : Token}
    (h : (chooseTokens data s).1 = before ++ tok :: after) :
    referenceToken data s (before.map tokenSpan).sum
      (hashRead (keyStarts data s.totalIn 0 before s.hash) (hashOf (hashKey data (before.map tokenSpan).sum))) tok := by
  rw [chooseTokens_of_reference hpolicy] at h
  simpa only [Nat.zero_add] using referenceToken_of_tokenizeFrom data s h

theorem chooseTokens_hash_eq :
    (chooseTokens data s).2.1 = keyStarts data s.totalIn 0 (chooseTokens data s).1 s.hash := by
  rw [chooseTokens_of_reference hpolicy]
  exact tokenizeFrom_hash_eq data s _ _ _

/-- At LEVEL 1 an ENCODE that completes leaves HASH with the starts of its tokens keyed, whichever block it sends. -/
theorem encodeEffect_hash_of_level_one (hl : s.level = 1) :
    (encodeEffect data s).hash = keyStarts data s.totalIn 0 (chooseTokens data s).1 s.hash := by
  rw [← chooseTokens_hash_eq hpolicy]
  by_cases hd : data = []
  · subst hd
    rw [chooseTokens_of_reference hpolicy]
    rfl
  · simp only [encodeEffect, encodeUpdate_of_ne_nil hd, respond_hash]
    rcases Nat.lt_or_ge (storedBits data.length s.cnt.toNat) (fixedBits (chooseTokens data s).1) with hstored | hfixed
    · rw [encodeBlocks_of_stored_cheaper hl hstored]
    · rw [encodeBlocks_of_fixed hl hfixed]

end

theorem sum_tokenSpan_chooseTokens (data : List Byte) (s : State) :
    ((chooseTokens data s).1.map tokenSpan).sum = data.length :=
  (Nat.zero_add _).symm.trans (add_sum_tokenSpan_of_validFrom (validTokens_chooseTokens data s))

/-- The first byte of a chunk of 4 bytes or more is keyed. -/
theorem keyedAt_zero_chooseTokens {data : List Byte} (h : 4 ≤ data.length) (s : State) :
    keyedAt data (chooseTokens data s).1 0 := by
  have hsum := sum_tokenSpan_chooseTokens data s
  cases hts : (chooseTokens data s).1 with
  | nil =>
    rw [hts] at hsum
    have hzero : 0 = data.length := hsum
    omega
  | cons tok ts => exact ⟨by omega, tok, [], ts, rfl, rfl⟩

end Sys2Proof.Machine

namespace Sys2Proof.Proofs

open Sys2Proof Sys2Proof.Machine

/-- Settles O47: tokens that meet the contract decode to the chunk, since a copy reads the bytes of the stream that the byte
source names. -/
theorem tokensDecodeToTheChunk : Obligations.TokensDecodeToTheChunk := by
  intro data stream s hholds
  exact decodeTokens_of_validFrom hholds.2 (validTokens_chooseTokens data s)

/-- Settles O46: Tokenize reads a bucket when exactly the starts of the tokens before have been keyed, and takes the token that
the bucket gives. -/
theorem tokensMeetTheContract : Obligations.TokensMeetTheContract := by
  intro data s
  refine ⟨validTokens_chooseTokens data s, fun hpolicy => ⟨fun len dist hmem => ?_, ?_⟩⟩
  · obtain ⟨before, after, hsplit⟩ := List.append_of_mem hmem
    exact four_le_of_referenceToken (referenceToken_of_chooseTokens hpolicy hsplit)
  · rintro i tok ⟨before, after, hsplit, rfl⟩
    have hpos (tok' : Token) (hmem : tok' ∈ before) : 0 < tokenSpan tok' :=
      tokenSpan_pos_of_mem_chooseTokens (data := data) (s := s) (hsplit ▸ List.mem_append_left _ hmem)
    refine ⟨_, ?_, referenceToken_of_chooseTokens hpolicy hsplit⟩
    rw [hsplit]
    exact bucketBefore_keyStarts (tok :: after) hpos _

/-- Settles O50: HASH afterwards is HASH with the token starts keyed in order, so a bucket holds the last one keyed into it. -/
theorem encodeKeysOnlyItsChunk : Obligations.EncodeKeysOnlyItsChunk := by
  intro more cap data s hp hl hpolicy hcap
  have hread := read_keyStarts data s.totalIn (chooseTokens data s).1 s.hash
  have hbucket := bucketBefore_keyStarts (d := data) (s := s) []
    fun tok (hmem : tok ∈ (chooseTokens data s).1) => tokenSpan_pos_of_mem_chooseTokens hmem
  rw [List.append_nil, sum_tokenSpan_chooseTokens] at hbucket
  rw [← encodeEffect_hash_of_level_one hpolicy hl] at hread hbucket
  refine ⟨encodeEffect data s, exec_encode_completes more hp hcap, fun h => ?_, fun h4 => ?_, hbucket⟩
  · rcases hread h with ⟨j, ⟨⟨hj, -⟩, hhash, -⟩, hentry⟩ | ⟨-, hkept⟩
    · exact .inr ⟨j, hj, hhash.symm, hentry⟩
    · exact .inl hkept
  · rcases hread (hashOf (hashKey data 0)) with ⟨j, ⟨⟨hj, -⟩, hhash, -⟩, hentry⟩ | ⟨hnone, -⟩
    · exact ⟨j, hj, hhash, hentry⟩
    · exact absurd rfl (hnone 0 (keyedAt_zero_chooseTokens h4 s))

end Sys2Proof.Proofs

/-! The blocks of the bit packer: where EmitStored cuts a chunk, and the bits and bytes each block adds (42_bit_packer R226
to R232). -/

namespace Sys2Proof.Machine

/-- From any C the stored chunk's bits end at a byte boundary: the bytes that its first block's header fills, 4 bytes of LEN
and NLEN for each piece, a header byte for each piece but the first, and the data (42_bit_packer R228, R230). -/
theorem add_storedBits_eq {n : Nat} (hn : 0 < n) (c : Nat) :
    c + storedBits n c = 8 * (ceilDiv (c + 3) 8 + 5 * ceilDiv n storedMax - 1 + n) := by
  have hpiece := ceilDiv_succ (b := storedMax) (by decide) hn
  have hfirst : c ≤ 8 * ceilDiv (c + 3) 8 := by simp only [ceilDiv]; omega
  simp only [storedBits]
  omega

/-- C and the bytes emitted are what is left over and what is whole of the bits packed. -/
theorem c_and_length_of_bitCount {p q : Packer} {n : Nat} (hbits : bitCount q = bitCount p + n) (hq : q.c < 8) :
    q.c = (p.c + n) % 8 ∧ q.emitted.length = p.emitted.length + (p.c + n) / 8 := by
  simp only [bitCount] at hbits
  omega

end Sys2Proof.Machine

namespace Sys2Proof.Proofs

open Sys2Proof Sys2Proof.Machine

/-- Settles O8: PutHuff packs the reversed code least significant bit first, which is the code most significant bit first. -/
theorem putHuffPacksTheCodeMsbFirst : Obligations.PutHuffPacksTheCodeMsbFirst := by
  intro sym p _ hp
  exact (appends_putHuff sym p hp).symm

/-- Settles O38: the pieces are full ones with a last one behind them, which is not empty. -/
theorem storedBlocksSplitTheChunk : Obligations.StoredBlocksSplitTheChunk := by
  intro d hd
  obtain ⟨hflat, hcount⟩ := storedPieces_spec (le_refl d.length)
  obtain ⟨pieces, last, hpieces, hfull, hpos, hmax⟩ := storedPieces_full_but_last hd (le_refl d.length)
  refine ⟨fun p => rfl, hflat, hcount, fun e he => ?_, fun e he => ?_⟩
  · rw [hpieces, List.mem_append, List.mem_singleton] at he
    obtain he | rfl := he
    · rw [hfull e he]; decide
    · exact ⟨hpos, hmax⟩
  · rw [hpieces, List.dropLast_concat] at he
    exact hfull e he

/-- Settles O39: both blocks pack a known number of bits, and a stored chunk leaves none of them pending. -/
theorem blocksPackTheirBitCounts : Obligations.BlocksPackTheirBitCounts := by
  refine ⟨fun ts p _ => c_and_length_of_bitCount (bitCount_emitFixed ts p) (emitFixed_c_lt ts p), fun d p _ hd => ?_⟩
  have hne : d ≠ [] := List.length_pos_iff.1 hd
  have hc := emitStored_c hne p
  have hlength := (c_and_length_of_bitCount (bitCount_emitStored hne p) (by rw [hc]; decide)).2
  exact ⟨hc, hlength, Nat.div_eq_of_eq_mul_right (by decide) (add_storedBits_eq hd p.c)⟩

/-- Settles O24: the header counts in IDLE only, and the lengths are those of the two tables by FORMAT. -/
theorem worstCaseBounds : Obligations.WorstCaseBounds := by
  intro s n
  simp only [worstEnc, worstFin, hdrIfIdle, ceilDiv]
  cases s.phase <;> cases s.format <;> exact ⟨rfl, rfl⟩

end Sys2Proof.Proofs

/-! The check values of the checksums (43_checksums R259). -/

namespace Sys2Proof.Machine

/-- What FORMAT makes of a checksum: raw and gzip run the same CRC32 and complement it at read, zlib reads Adler32 as it is
(43_checksums R253, R257, R258). So three values fix a row of R259. -/
theorem checksums_by_format {d : List Byte} {crcSeed register value adlerSeed adler : Word}
    (hcrc : checksumUpdate .raw crcSeed d = register) (hvalue : ~~~register = value)
    (hadler : checksumUpdate .zlib adlerSeed d = adler) :
    checksumUpdate .raw crcSeed d = register ∧ checksumUpdate .gzip crcSeed d = register ∧
      checksumValue .raw register = value ∧ checksumValue .gzip register = value ∧
      checksumUpdate .zlib adlerSeed d = adler ∧ checksumValue .zlib adler = adler :=
  ⟨hcrc, hcrc, hvalue, hvalue, hadler, rfl⟩

end Sys2Proof.Machine

namespace Sys2Proof.Proofs

open Sys2Proof Sys2Proof.Machine

/-- Settles O52: the model computes the CRC32 register, its complement and the Adler32 value of each row. -/
theorem checksumCheckValues : Obligations.ChecksumCheckValues := by
  unfold Obligations.ChecksumCheckValues
  refine ⟨checksums_by_format ?_ ?_ ?_, checksums_by_format ?_ ?_ ?_, checksums_by_format ?_ ?_ ?_,
    checksums_by_format ?_ ?_ ?_, checksums_by_format ?_ ?_ ?_, checksums_by_format ?_ ?_ ?_⟩ <;> decide +kernel

end Sys2Proof.Proofs

/-! INIT straight to FINISH: the bytes of a stream without data (44_framer R278). -/

namespace Sys2Proof.Machine

/-- Where FMT names a format and no reserved bit is set INIT has its effect (40_commands R142, R143). -/
theorem exec_init_completes {fmt : BitVec 2} {format : Format} (hfmt : Format.ofFmt fmt = some format) (en : BitVec 1)
    (s : State) : exec (.init en fmt 0) s = .next (initEffect en format s) := by
  simp only [exec, execInit, hfmt]
  rfl

/-- No format's header, final block and trailer take more than 21 bytes (30_encoding R124). -/
theorem worstFin_le (s : State) : worstFin s ≤ 21 := by
  simp only [worstFin, hdrIfIdle]
  cases s.phase <;> cases s.format <;> decide

/-- A stream without data: the header, the final block from an empty packer, the trailer over the seeds. -/
def emptyStream (format : Format) : List Byte :=
  headerBytes format ++ [0x03, 0x00] ++ trailerBytes format (checksumSeed format) 0

/-- With no bit pending the final block's 10 bits fill two bytes (44_framer R275, R276). -/
theorem finalBytes_of_empty {s : State} (hacc : s.acc = 0) (hcnt : s.cnt = 0) : finalBytes s = [0x03, 0x00] := by
  rw [finalBytes, openPacker, hacc, hcnt]
  decide

/-- What FINISH writes right after INIT depends on FORMAT only. -/
theorem finishBytes_initEffect (en : BitVec 1) (format : Format) (s : State) :
    finishBytes (initEffect en format s) = emptyStream format := by
  rw [finishBytes, finalBytes_of_empty rfl rfl]
  cases format <;> rfl

/-- INIT of a format straight to FINISH completes where CAP is at least 21, with the empty stream in OUT and its length as
RESULT. -/
theorem exec_init_then_finish {fmt : BitVec 2} {format : Format} (hfmt : Format.ofFmt fmt = some format) (en : BitVec 1)
    (s : State) {cap : Word} (hcap : 21 ≤ cap.toNat) :
    ∃ t u, exec (.init en fmt 0) s = .next t ∧ exec (.finish 0 cap) t = .next u ∧
      u.response = some ⟨true, 0, BitVec.ofNat 32 (emptyStream format).length⟩ ∧ holdsAt u.out 0 (emptyStream format) := by
  have hfinish := exec_finish_completes (s := initEffect en format s) (.inl rfl) ((worstFin_le _).trans hcap)
  have hpending : (initEffect en format s).acc.toNat < 2 ^ (initEffect en format s).cnt.toNat := Nat.zero_lt_one
  rw [finishEffect_eq hpending, finishBytes_initEffect] at hfinish
  exact ⟨_, _, exec_init_completes hfmt en s, hfinish, rfl, holdsAt_writeAll _ _ _⟩

end Sys2Proof.Machine

namespace Sys2Proof.Proofs

open Sys2Proof Sys2Proof.Machine

/-- Settles O42: FMT 0, 1 and 2 name the three formats, and the bytes listed are their empty streams. -/
theorem emptyStreams : Obligations.EmptyStreams := by
  intro s en cap hcap
  exact ⟨exec_init_then_finish (format := .raw) rfl en s hcap, exec_init_then_finish (format := .zlib) rfl en s hcap,
    exec_init_then_finish (format := .gzip) rfl en s hcap⟩

end Sys2Proof.Proofs

/-! Which fault a command takes, said once: the first of its row's checks that fails, in the order of 60_exceptions R310. A
command that fails one changes the fault registers and the response only; one that fails none completes. -/

namespace Sys2Proof.Machine

/-- The cause of the fault that instruction `i` takes in state `s`, none where it takes none (60_exceptions R304 to R308,
R310). -/
def faultCause (i : Instr) (s : State) : Option Cause :=
  match i with
  | .tblinit rsvd => if rsvd ≠ 0 then some .illegal else none
  | .init _ fmt rsvd => if rsvd ≠ 0 then some .illegal else if fmt = 3 then some .badFormat else none
  | .encode _ rsvd cap data =>
    if rsvd ≠ 0 then some .illegal
    else if s.phase.noStream then some .usage
    else if cap.toNat < worstEnc s data.length then some .outCapacity
    else none
  | .finish rsvd cap =>
    if rsvd ≠ 0 then some .illegal
    else if s.phase.noStream then some .usage
    else if cap.toNat < worstFin s then some .outCapacity
    else none
  | .rdreg rsvdLow reg rsvdHigh => if rsvdLow ≠ 0 ∨ rsvdHigh ≠ 0 ∨ 8 ≤ reg.toNat then some .illegal else none
  | .reservedOp0 _ | .reservedOp67 _ _ | .reservedOp8F _ _ => some .illegal
  | _ => none

/-- Only the indices 8 to 15 have no view (10_state R39). -/
theorem eight_le_of_view_eq_none {reg : BitVec 4} {s : State} (h : view reg s = none) : 8 ≤ reg.toNat := by
  rw [view] at h
  split at h
  case h_9 => simp only [imp_false] at *; omega
  all_goals cases h

/-- What the command `i` answers in state `s`: where it takes a fault, the fault entry of 60_exceptions R302; where it takes
none, OK, with the fault registers as they were. -/
def Answers (i : Instr) (s : State) : Option Cause → Prop
  | some c => exec i s = .next (raiseFault c i.commandWord s)
  | none => ∃ t result, exec i s = .next (respond result t) ∧ SameFaults s t

theorem answers_of_fault {i : Instr} {s : State} {c : Cause} (hc : faultCause i s = some c)
    (h : exec i s = .next (raiseFault c i.commandWord s)) : Answers i s (faultCause i s) := hc ▸ h

theorem answers_of_respond {i : Instr} {s t : State} {result : Word} (hc : faultCause i s = none)
    (h : exec i s = .next (respond result t)) (hfaults : SameFaults s t) : Answers i s (faultCause i s) :=
  hc ▸ ⟨t, result, h, hfaults⟩

/-- Every command answers, by the fault it takes. -/
theorem answers_faultCause {i : Instr} (hi : i.isCommand = true) (s : State) : Answers i s (faultCause i s) := by
  cases i with
  | tblinit rsvd =>
    rcases execTblinit_cases rsvd s with ⟨hrsvd, e⟩ | ⟨hrsvd, e⟩
    · exact answers_of_fault (if_pos hrsvd) e
    · exact answers_of_respond (by simp [faultCause, hrsvd]) e ⟨rfl, rfl, rfl⟩
  | init en fmt rsvd =>
    rcases execInit_cases en fmt rsvd s with ⟨hrsvd, e⟩ | ⟨hrsvd, hfmt, e⟩ | ⟨hrsvd, format, hformat, e⟩
    · exact answers_of_fault (if_pos hrsvd) e
    · exact answers_of_fault (by simp [faultCause, hrsvd, hfmt]) e
    · have hfmt : ¬ fmt = 3 := by rintro rfl; cases hformat
      exact answers_of_respond (by simp only [faultCause, hrsvd, hfmt]; rfl) e ⟨rfl, rfl, rfl⟩
  | encode more rsvd cap data =>
    rcases execEncode_cases more rsvd cap data s with
      ⟨hrsvd, e⟩ | ⟨hrsvd, hs, e⟩ | ⟨hrsvd, hs, hcap, e⟩ | ⟨hrsvd, hs, hcap, e⟩
    · exact answers_of_fault (if_pos hrsvd) e
    · exact answers_of_fault (by simp [faultCause, hrsvd, hs]) e
    · exact answers_of_fault (by simp [faultCause, hrsvd, hs, hcap]) e
    · exact answers_of_respond (by simp [faultCause, hrsvd, hs, hcap]) e
        ⟨encodeUpdate_fault data s, encodeUpdate_lastCause data s, encodeUpdate_faultCmd data s⟩
  | finish rsvd cap =>
    rcases execFinish_cases rsvd cap s with
      ⟨hrsvd, e⟩ | ⟨hrsvd, hs, e⟩ | ⟨hrsvd, hs, hcap, e⟩ | ⟨hrsvd, hs, hcap, e⟩
    · exact answers_of_fault (if_pos hrsvd) e
    · exact answers_of_fault (by simp [faultCause, hrsvd, hs]) e
    · exact answers_of_fault (by simp [faultCause, hrsvd, hs, hcap]) e
    · exact answers_of_respond (by simp [faultCause, hrsvd, hs, hcap]) e ⟨rfl, rfl, rfl⟩
  | rdreg rsvdLow reg rsvdHigh =>
    rcases execRdreg_cases rsvdLow reg rsvdHigh s with ⟨hbits, e⟩ | ⟨hlow, hhigh, v, hv, e⟩
    · exact answers_of_fault (if_pos (hbits.imp_right (Or.imp_right eight_le_of_view_eq_none))) e
    · have hreg : ¬ 8 ≤ reg.toNat := fun h => Option.some_ne_none v (hv.symm.trans (view_reserved h s))
      exact answers_of_respond (by simp [faultCause, hlow, hhigh, hreg]) e ⟨rfl, rfl, rfl⟩
  | reservedOp0 | reservedOp67 | reservedOp8F => exact answers_of_fault rfl rfl
  | _ => cases hi

/-- The fault a command takes is answered by its fault entry. -/
theorem exec_of_faultCause {i : Instr} {s : State} {c : Cause} (hi : i.isCommand = true) (h : faultCause i s = some c) :
    exec i s = .next (raiseFault c i.commandWord s) :=
  (h ▸ answers_faultCause hi s : Answers i s (some c))

/-- LAST_CAUSE and FAULT show the fault a command takes, and no other. -/
theorem reports_of_faultCause {i : Instr} {s : State} {c : Cause} (hi : i.isCommand = true) (h : faultCause i s = some c) :
    ∃ t, exec i s = .next t ∧ t.lastCause = c.code ∧ t.fault = setFaultBit c s.fault :=
  ⟨_, exec_of_faultCause hi h, rfl, rfl⟩

/-! What the fault depends on. -/

section
variable {s u : State} (hphase : s.phase = u.phase) (hformat : s.format = u.format)
include hphase hformat

theorem hdrIfIdle_congr : hdrIfIdle s = hdrIfIdle u := by rw [hdrIfIdle, hdrIfIdle, hphase, hformat]

theorem worstEnc_congr (n : Nat) : worstEnc s n = worstEnc u n := by
  rw [worstEnc, worstEnc, hdrIfIdle_congr hphase hformat]

theorem worstFin_congr : worstFin s = worstFin u := by
  rw [worstFin, worstFin, hdrIfIdle_congr hphase hformat, hformat]

/-- Of the state the checks read STATE and FORMAT only (60_exceptions R301). -/
theorem faultCause_congr (i : Instr) : faultCause i s = faultCause i u := by
  cases i with
  | encode more rsvd cap data => rw [faultCause, faultCause, hphase, worstEnc_congr hphase hformat]
  | finish rsvd cap => rw [faultCause, faultCause, hphase, worstFin_congr hphase hformat]
  | _ => rfl

end

/-- Of the bytes of IN ENCODE's checks read their number only (60_exceptions R301). -/
theorem faultCause_encode_congr (more : BitVec 1) (rsvd : BitVec 27) (cap : Word) {data data' : List Byte}
    (h : data.length = data'.length) (s : State) :
    faultCause (.encode more rsvd cap data) s = faultCause (.encode more rsvd cap data') s := by
  simp only [faultCause, h]

/-! OK and CAUSE. -/

/-- OK and CAUSE are fixed by the fault a command takes. -/
theorem response_of_answers {i : Instr} {s : State} {c : Option Cause} (h : Answers i s c) :
    ∃ t r, exec i s = .next t ∧ t.response = some r ∧ r.ok = c.isNone ∧ r.cause = (c.map Cause.code).getD 0 := by
  cases c with
  | some c => exact ⟨_, faultResponse c, h, rfl, rfl, rfl⟩
  | none =>
    obtain ⟨t, result, ht, -⟩ := h
    exact ⟨_, okResponse result, ht, rfl, rfl, rfl⟩

/-- Two commands that take the same fault, or none, are answered with the same OK and CAUSE. -/
theorem same_answer_of_faultCause_eq {i j : Instr} {s u : State} (hi : i.isCommand = true) (hj : j.isCommand = true)
    (h : faultCause i s = faultCause j u) :
    ∃ t v r r', exec i s = .next t ∧ exec j u = .next v ∧ t.response = some r ∧ v.response = some r' ∧
      r.ok = r'.ok ∧ r.cause = r'.cause := by
  obtain ⟨t, r, ht, hr, hok, hcause⟩ := response_of_answers (answers_faultCause hi s)
  obtain ⟨v, r', hv, hr', hok', hcause'⟩ := response_of_answers (answers_faultCause hj u)
  rw [h] at hok hcause
  exact ⟨t, v, r, r', ht, hv, hr, hr', hok.trans hok'.symm, hcause.trans hcause'.symm⟩

/-! The command words of the faults that are not ILLEGAL. -/

theorem wordInit_formatThree : ∀ en, wordInit en 3 0 = 0x62#32 ||| (en.setWidth 32 <<< 4) := by decide

theorem wordEncode_eq : ∀ more, wordEncode more 0 = 0x3#32 ||| (more.setWidth 32 <<< 4) := by decide

end Sys2Proof.Machine

namespace Sys2Proof.Proofs

open Sys2Proof Sys2Proof.Machine

/-- Settles O26: a command that takes a fault makes its fault entry, and one that takes none answers OK. -/
theorem commandsAnswerAndFaultsChangeNothingElse : Obligations.CommandsAnswerAndFaultsChangeNothingElse := by
  intro i s hi
  have hanswers := answers_faultCause hi s
  cases hc : faultCause i s with
  | some c =>
    rw [hc] at hanswers
    obtain ⟨-, hlow, hhigh, -⟩ := setFaultBit_latches c s.fault
    exact ⟨_, false, c.code, 0, hanswers, rfl, Bool.noConfusion, fun _ => ⟨hlow, hhigh, rfl, rfl⟩⟩
  | none =>
    rw [hc] at hanswers
    obtain ⟨t, result, ht, hfaults⟩ := hanswers
    exact ⟨_, true, 0, result, ht, rfl, fun _ => ⟨rfl, hfaults⟩, Bool.noConfusion⟩

/-- Settles O29: the fault a command takes is fixed by STATE, FORMAT and, of ENCODE's bytes, their number. -/
theorem faultsDependOnlyOnWordStateFormatLenCap : Obligations.FaultsDependOnlyOnWordStateFormatLenCap := by
  intro s u hphase hformat
  refine ⟨fun more rsvd cap data data' hlen => same_answer_of_faultCause_eq rfl rfl ?_,
    fun i hi => same_answer_of_faultCause_eq hi hi (faultCause_congr hphase hformat i)⟩
  calc faultCause (.encode more rsvd cap data) s
    _ = faultCause (.encode more rsvd cap data) u := faultCause_congr hphase hformat _
    _ = faultCause (.encode more rsvd cap data') u := faultCause_encode_congr more rsvd cap hlen u

/-- Settles O15: taking an arrival where there is none does nothing. -/
theorem waitingHoldsTheState : Obligations.WaitingHoldsTheState := by
  intro s h
  rw [step, takeArrival, h]

/-- Settles O21: the format check comes first where no reserved bit is set. -/
theorem initOfFormatThreeFaultsBadFormat : Obligations.InitOfFormatThreeFaultsBadFormat := by
  intro en s
  rw [← wordInit_formatThree]
  exact exec_of_faultCause (c := .badFormat) rfl rfl

/-- Settles O22: the check of STATE comes before CAP is looked at. -/
theorem encodeAndFinishWithoutAStreamFaultUsage : Obligations.EncodeAndFinishWithoutAStreamFaultUsage := by
  refine fun s hs => ⟨fun more cap data => ?_, fun cap => exec_finish_without_stream cap hs⟩
  rw [← wordEncode_eq]
  exact exec_encode_without_stream more cap data hs

/-- Settles O23: with a stream open the check of CAP is the last one left. -/
theorem tooSmallCapacityFaultsOutCapacity : Obligations.TooSmallCapacityFaultsOutCapacity := by
  intro s hs
  have hstream := noStream_false hs
  refine ⟨fun more cap data hcap => ?_, fun cap hcap => ?_⟩
  · rw [← wordEncode_eq]
    exact exec_of_faultCause (c := .outCapacity) rfl (by simp [faultCause, hstream, hcap])
  · exact exec_of_faultCause (c := .outCapacity) rfl (by simp [faultCause, hstream, hcap])

/-- Settles O25: the cause reported is that of the first check that fails, whatever the later ones say. -/
theorem faultPriority : Obligations.FaultPriority := by
  refine fun s => ⟨fun en rsvd hrsvd => ?_, fun more rsvd cap data hrsvd => ?_, fun rsvd cap hrsvd => ?_, fun hs => ?_⟩
  · exact reports_of_faultCause (c := .illegal) rfl (if_pos hrsvd)
  · exact reports_of_faultCause (c := .illegal) rfl (if_pos hrsvd)
  · exact reports_of_faultCause (c := .illegal) rfl (if_pos hrsvd)
  · exact ⟨fun more cap data _ => ⟨_, exec_encode_without_stream more cap data hs, rfl, rfl⟩,
      fun cap _ => ⟨_, exec_finish_without_stream cap hs, rfl, rfl⟩⟩

end Sys2Proof.Proofs

/-! Reset during a command, and ENCODE under a host that disturbs its buffers (70_reset R341, R351, R353). -/

namespace Sys2Proof.Machine

/-- A step with a reset during a command first at the port resets the block on the OUT supplied with that command. -/
theorem step_resetDuring {s : State} {r : Request} {i : Instr} {rest : List Arrival}
    (hin : s.inbox = .resetDuring r :: rest) (hr : decodeRequest r = .ok i) :
    step s = .next (applyReset (supplyOut i { s with inbox := rest })) := by
  rw [step, takeArrival, hin]
  simp only [arrive, applyResetDuring, hr]

/-- What an ENCODE of `data` reads at IN (70_reset R351). -/
def dataRead (d : Disturbance) (ctr : Nat) (data : List Byte) : List Byte :=
  if d.reachesIn then disturbedData ctr data.length else data

theorem asRead_encode (d : Disturbance) (ctr : Nat) (more : BitVec 1) (rsvd : BitVec 27) (cap : Word) (data : List Byte) :
    asRead d ctr (.encode more rsvd cap data) = .encode more rsvd cap (dataRead d ctr data) := by
  simp only [asRead, dataRead]
  split <;> rfl

/-- LEN is that of the request, whatever becomes of the bytes. -/
@[simp] theorem length_dataRead (d : Disturbance) (ctr : Nat) (data : List Byte) :
    (dataRead d ctr data).length = data.length := by
  rw [dataRead]
  split
  · exact length_disturbedData _ _
  · rfl

/-- ENCODE reads its own bytes where the host leaves IN alone or there is none. -/
theorem dataRead_of_intact {d : Disturbance} {data : List Byte} (h : d = .outOnly ∨ data = []) (ctr : Nat) :
    dataRead d ctr data = data := by
  rcases h with rfl | rfl
  · rfl
  · exact List.eq_nil_of_length_eq_zero (length_dataRead d ctr [])

/-- Where no duty towards ENCODE is broken, IN is left alone or empty. -/
theorem intact_of_not_breaksDuties {d : Disturbance} {more : BitVec 1} {rsvd : BitVec 27} {cap : Word} {data : List Byte}
    (h : breaksDuties d (.encode more rsvd cap data) = false) : d = .outOnly ∨ data = [] := by
  cases d with
  | outOnly => exact .inl rfl
  | inOnly | both =>
    obtain ⟨hin, -⟩ := Bool.or_eq_false_iff.1 h
    exact .inr (by simpa [Disturbance.reachesIn, inputOf] using hin)

/-- `t` is `u` but for what a disturbed command leaves unspecified: OUT below `cap`, CKSUM, WINDOW and HASH
(70_reset R351), and the model's own counter (log 9, 12). -/
def UnspecifiedApart (cap : Nat) (u t : State) : Prop :=
  (∃ out cksum window hash freeCtr,
    t = { u with out := out, cksum := cksum, window := window, hash := hash, freeCtr := freeCtr }) ∧
  ∀ a : Nat, cap ≤ a → t.out.read a = u.out.read a

theorem unspecifiedApart_refl (cap : Nat) (u : State) : UnspecifiedApart cap u u :=
  ⟨⟨_, _, _, _, _, rfl⟩, fun _ _ => rfl⟩

theorem unspecifiedApart_disturb (cap : Nat) (u : State) : UnspecifiedApart cap u (disturb cap u) := by
  refine ⟨?_, fun a ha => ?_⟩
  · simp only [disturb]
    split <;> exact ⟨_, _, _, _, _, rfl⟩
  · rw [disturb_out, Memory.read_forgetBelow, if_neg (not_lt.2 ha)]

/-- A step with a disturbed ENCODE first at the port has ENCODE's effect on the bytes read and the OUT supplied, but for
what is then unspecified, and all of it where no duty is broken. -/
theorem step_encode_disturbed {s : State} {d : Disturbance} {r : Request} {rest : List Arrival} {more : BitVec 1}
    {cap : Word} {data : List Byte} (hin : s.inbox = .issueDisturbed d r :: rest)
    (hr : decodeRequest r = .ok (.encode more 0 cap data)) (hp : s.phase = .idle ∨ s.phase = .active)
    (hcap : worstEnc s data.length ≤ cap.toNat) :
    ∃ t, step s = .next t ∧
      UnspecifiedApart cap.toNat (encodeEffect (dataRead d s.freeCtr data) (onFreshOut s rest)) t ∧
      (breaksDuties d (.encode more 0 cap data) = false → t = encodeEffect data (onFreshOut s rest)) := by
  have hcompletes {read : List Byte} (hlength : read.length = data.length) :
      exec (.encode more 0 cap read) (onFreshOut s rest) = .next (encodeEffect read (onFreshOut s rest)) :=
    exec_encode_completes more hp (hlength ▸ hcap)
  rw [step, takeArrival, hin]
  cases hbreaks : breaksDuties d (.encode more 0 cap data) with
  | true =>
    simp only [arrive, runDisturbed, hr, hbreaks, asRead_encode, if_true]
    exact ⟨_, congrArg (mapNext _) (hcompletes (length_dataRead _ _ _)), unspecifiedApart_disturb _ _, nofun⟩
  | false =>
    simp only [arrive, runDisturbed, hr, hbreaks]
    rw [dataRead_of_intact (intact_of_not_breaksDuties hbreaks)]
    exact ⟨_, hcompletes rfl, unspecifiedApart_refl _ _, fun _ => rfl⟩

/-- On fresh OUT no byte from CAP on is known after ENCODE. -/
theorem encodeEffect_onFreshOut_above {s : State} {rest : List Arrival} {data : List Byte} {cap a : Nat}
    (hcap : worstEnc s data.length ≤ cap) (ha : cap ≤ a) : (encodeEffect data (onFreshOut s rest)).out.read a = none :=
  have hle : (encodeUpdate data (onFreshOut s rest)).cursor ≤ worstEnc s data.length := encodeUpdate_cursor_le _ _
  encodeUpdate_out_above (hle.trans (hcap.trans ha))

end Sys2Proof.Machine

namespace Sys2Proof.Proofs

open Sys2Proof Sys2Proof.Machine

/-- Settles O14: the command is abandoned before it does anything, and only ENCODE and FINISH have had an OUT supplied. -/
theorem resetDuringACommand : Obligations.ResetDuringACommand := by
  intro s r i rest hin hr
  refine ⟨_, step_resetDuring hin hr, ?_, rfl, fun a => ?_⟩
  · simp only [applyReset, supplyOut_inbox, supplyOut_policy, supplyOut_freeCtr]
  · rw [applyReset_out, supplyOut_out]
    cases i <;> rfl

/-- Settles O58: a disturbed ENCODE has the effect of an ENCODE of as many bytes, but for what R351 leaves unspecified. -/
theorem disturbedEncodeStillCompletes : Obligations.DisturbedEncodeStillCompletes := by
  intro s d r rest more cap data hin hr hp hcap
  have hu : exec (.encode more 0 cap data) (onFreshOut s rest) = .next (encodeEffect data (onFreshOut s rest)) :=
    exec_encode_completes more hp hcap
  obtain ⟨t, hstep, ⟨⟨out, cksum, window, hash, freeCtr, rfl⟩, hout⟩, hdutiful⟩ := step_encode_disturbed hin hr hp hcap
  have hintact (h : d = .outOnly ∨ data = []) := dataRead_of_intact h s.freeCtr
  have hlength : (dataRead d s.freeCtr data).length = data.length := length_dataRead _ _ _
  generalize dataRead d s.freeCtr data = read at *
  have hle : (encodeUpdate read (onFreshOut s rest)).cursor ≤ worstEnc s data.length :=
    hlength ▸ encodeUpdate_cursor_le read (onFreshOut s rest)
  refine ⟨_, _, _, hstep, hu, rfl, ?_, encodeUpdate_inbox _ _, encodeUpdate_phase _ _, encodeUpdate_level _ _,
    encodeUpdate_format _ _, encodeUpdate_fault _ _, encodeUpdate_lastCause _ _, encodeUpdate_faultCmd _ _, ?_, fun hd => ?_,
    fun h => ?_, fun h => hdutiful ?_, fun a ha => ?_⟩
  · rw [toNat_result (s := encodeUpdate read (onFreshOut s rest)) (hle.trans hcap) rfl]
    exact hle
  · rw [← hlength]
    exact encodeUpdate_totalIn read _
  · have hread : read ≠ [] := List.ne_nil_of_length_pos (hlength ▸ List.length_pos_iff.2 hd)
    rw [← hlength]
    exact (congrArg BitVec.toNat (encodeUpdate_hist read _ hread)).trans (toNat_histAfter _ _)
  · rw [hintact h]
    exact ⟨rfl, rfl, rfl⟩
  · rcases h with ⟨rfl, rfl⟩ | ⟨rfl, rfl⟩ <;> rfl
  · exact (hout a ha).trans (encodeEffect_onFreshOut_above (hlength ▸ hcap) ha)

end Sys2Proof.Proofs
